-- ==== Sys2Proof/Word.lean ====
section
/-! DEFINITION. The word type of the block: every datum is one byte (`20_memory.md` R62). -/

namespace Sys2Proof

/-- A byte, the spec's `u8`: bit 7 is its most significant bit (`00_scope.md` section 6). -/
abbrev Byte := BitVec 8

end Sys2Proof
end

