-- ==== Sys2Proof/Config.lean ====
section
/-! DEFINITION. The configuration of the block (`00_scope.md` R2 to R12), which is fixed for a run and is no state (R39),
and the free values that stand for what the spec leaves unspecified (R301). -/

namespace Sys2Proof

/-- `INBOUND_POLICY`: what `RING_PUSH_IN` does on a full ring (`00_scope.md` R12; `45_transport_ring.md` R221, R222). -/
inductive InboundPolicy
  | dropOldest
  | dropNewest
deriving DecidableEq, Repr

/-- The tick-domain timing parameters (`00_scope.md` R6). -/
structure Timing where
  rxShortMin : Nat
  rxLongMin : Nat
  rxLongMax : Nat
  rxSofMin : Nat
  rxSofMax : Nat
  rxEodMin : Nat
  txShort : Nat
  txLong : Nat
  txSof : Nat
  txIfs : Nat
deriving DecidableEq, Repr

/-- `isShort` of an elapsed tick count (`00_scope.md` R7). -/
def Timing.isShort (t : Timing) (e : Nat) : Bool := decide (t.rxShortMin ≤ e) && decide (e < t.rxLongMin)

/-- `isLong` of an elapsed tick count (`00_scope.md` R7). -/
def Timing.isLong (t : Timing) (e : Nat) : Bool := decide (t.rxLongMin ≤ e) && decide (e < t.rxLongMax)

/-- `isSof` of an elapsed tick count (`00_scope.md` R7). -/
def Timing.isSof (t : Timing) (e : Nat) : Bool := decide (t.rxSofMin ≤ e) && decide (e < t.rxSofMax)

/-- A well-formed `Timing` (`00_scope.md` R8). -/
def Timing.wf (t : Timing) : Bool :=
  decide (0 < t.rxShortMin ∧ t.rxShortMin < t.rxLongMin ∧ t.rxLongMin < t.rxLongMax ∧ t.rxLongMax ≤ t.rxSofMin ∧ t.rxSofMin < t.rxSofMax ∧
    t.rxSofMax ≤ 255 ∧ 0 < t.rxEodMin ∧ t.rxEodMin ≤ 255 ∧ t.isShort t.txShort = true ∧ t.isLong t.txLong = true ∧ t.isSof t.txSof = true ∧
    t.txLong < t.rxEodMin ∧ 0 < t.txIfs ∧ t.txIfs ≤ 255)

/-- `ticks(us) = ceil(us / TICK_US)` (`00_scope.md` R6). -/
def ticks (tickUs us : Nat) : Nat := (us + tickUs - 1) / tickUs

/-- The timing record of a tick period in microseconds, from the figures of `00_scope.md` R4 by the conversion of R6. -/
def Timing.ofTickUs (tickUs : Nat) : Timing where
  rxShortMin := ticks tickUs 34
  rxLongMin := ticks tickUs 96
  rxLongMax := ticks tickUs 163
  rxSofMin := ticks tickUs 163
  rxSofMax := ticks tickUs 239
  rxEodMin := ticks tickUs 163
  txShort := ticks tickUs 64
  txLong := ticks tickUs 128
  txSof := ticks tickUs 200
  txIfs := ticks tickUs 300

/-- The configuration of a run: timing, sizes and behaviour switches (`00_scope.md` R6, R9 to R12). -/
structure Config where
  timing : Timing
  rxqSlots : Nat
  txqSlots : Nat
  ringInSize : Nat
  ringOutSize : Nat
  filterMax : Nat
  inboundPolicy : InboundPolicy
  rxCrcCheck : Bool
  contentionSampleAtMatch : Bool
deriving DecidableEq, Repr

/-- A configuration the rules speak of: a well-formed `Timing` (R8), queues and rings of at least two cells (R9, R10). -/
def Config.wf (c : Config) : Bool :=
  decide (2 ≤ c.rxqSlots ∧ 2 ≤ c.txqSlots ∧ 2 ≤ c.ringInSize ∧ 2 ≤ c.ringOutSize ∧ c.timing.wf = true)

/-- The spec's defaults (`00_scope.md`, parameter summary): `TICK_US = 8`, 4 slots, 32 cells, 8 filter entries.
DESIGN CHOICE (log 3): the parameters are open, and these are the values of the spec's vectors. -/
def Config.default : Config where
  timing := Timing.ofTickUs 8
  rxqSlots := 4
  txqSlots := 4
  ringInSize := 32
  ringOutSize := 32
  filterMax := 8
  inboundPolicy := .dropOldest
  rxCrcCheck := false
  contentionSampleAtMatch := false

/-- Free bytes: the values that `RESET` leaves unspecified (`70_reset_and_hazards.md` R301), one for each index (log 5). -/
opaque Config.freeByte : Nat → Byte

/-- Free bits: the rails after `RESET`, which R301 leaves unspecified (log 5). -/
opaque Config.freeBit : Nat → Bool

end Sys2Proof
end

