-- ==== Sys2Proof/Syntax.lean ====
section
/-! DEFINITION. The operations of the block, one constructor for each row of `spec/opcode_table.json`, and the names that are
their operands. -/

namespace Sys2Proof

/-- The two channels, numbered 0 and 1 (`00_scope.md` R2). -/
inductive Chan
  | ch0
  | ch1
deriving DecidableEq, Repr

/-- The two bus levels (`30_encoding.md` R90). -/
inductive Level
  | passive
  | active
deriving DecidableEq, Repr

/-- The four frame queues (`10_state.md` R30). -/
inductive QueueId
  | rxq (c : Chan)
  | txq (c : Chan)
deriving DecidableEq, Repr

/-- The two transport rings (`10_state.md` R32). -/
inductive RingId
  | ringIn
  | ringOut
deriving DecidableEq, Repr

/-- The operations. The first ten have an operation tag, the next nine are command bytes, the next seven line-code symbols on a
channel's wire, the rest primitives without an encoding (`30_encoding.md` R106). -/
inductive Instr
  /-- `TICK` (`60_exceptions.md` R285). -/
  | tick
  /-- `EDGE c, lvl` (`43_vpw_receiver.md` R160). -/
  | edge (c : Chan) (lvl : Level)
  /-- `MATCH c` (`60_exceptions.md` R288). -/
  | timerMatch (c : Chan)
  /-- `XFER rx` (`45_transport_ring.md` R225). -/
  | xfer (rx : Byte)
  /-- `HOUSEKEEP` (`44_vpw_transmitter.md` R190). -/
  | housekeep
  /-- `SENDREQ c` (`44_vpw_transmitter.md` R191). -/
  | sendreq (c : Chan)
  /-- `DISPATCH` (`46_dispatcher.md` R240). -/
  | dispatch
  /-- `LINKTIMEOUT` (`60_exceptions.md` R290). -/
  | linktimeout
  /-- `SETINPUTS s, a, h` (`60_exceptions.md` R291). -/
  | setinputs (sw : Byte) (acc : Bool) (hp : Bool)
  /-- `RESET` (`70_reset_and_hazards.md` R300). -/
  | reset
  /-- `GET_SWITCH`, command byte 0x01 (`46_dispatcher.md` R242). -/
  | getSwitch
  /-- `GET_POWER`, command byte 0x02 (`46_dispatcher.md` R243). -/
  | getPower
  /-- `POP_RX0`, command byte 0x03 (`46_dispatcher.md` R244). -/
  | popRx0
  /-- `POP_RX1`, command byte 0x04 (`46_dispatcher.md` R244). -/
  | popRx1
  /-- `CLR_FILTER`, command byte 0x05 (`46_dispatcher.md` R246). -/
  | clrFilter
  /-- `SET_FILTER`, command byte 0x06 (`46_dispatcher.md` R247). -/
  | setFilter
  /-- `TX0`, command byte 0x07 (`46_dispatcher.md` R249). -/
  | tx0
  /-- `TX1`, command byte 0x08 (`46_dispatcher.md` R249). -/
  | tx1
  /-- `CMD_IGNORED v`, a byte with no row in the command table (`46_dispatcher.md` R253). -/
  | cmdIgnored (v : Byte)
  /-- `P_SHORT` on channel `c` (`30_encoding.md` R90, R91). -/
  | pShort (c : Chan)
  /-- `P_LONG` on channel `c` (`30_encoding.md` R90, R91). -/
  | pLong (c : Chan)
  /-- `EOD` on channel `c` (`30_encoding.md` R90). -/
  | eod (c : Chan)
  /-- `IFS` on channel `c` (`30_encoding.md` R90). -/
  | ifs (c : Chan)
  /-- `A_SHORT` on channel `c` (`30_encoding.md` R90, R91). -/
  | aShort (c : Chan)
  /-- `A_LONG` on channel `c` (`30_encoding.md` R90, R91). -/
  | aLong (c : Chan)
  /-- `SOF` on channel `c` (`30_encoding.md` R90). -/
  | sof (c : Chan)
  /-- `CRC_INIT` (`40_crc.md` R120). -/
  | crcInit
  /-- `CRC_BIT crc, b` (`40_crc.md` R121). -/
  | crcBit (crc : Byte) (b : Bool)
  /-- `CRC_BYTE crc, x` (`40_crc.md` R122). -/
  | crcByte (crc : Byte) (x : Byte)
  /-- `CRC_FINAL crc` (`40_crc.md` R123). -/
  | crcFinal (crc : Byte)
  /-- `CRC8 bytes` (`40_crc.md` R124). -/
  | crc8 (bytes : List Byte)
  /-- `Q_EMPTY q` (`41_frame_queue.md` R130). -/
  | qEmpty (q : QueueId)
  /-- `Q_FULL q` (`41_frame_queue.md` R131). -/
  | qFull (q : QueueId)
  /-- `Q_STAGE q, i, v` (`41_frame_queue.md` R133). -/
  | qStage (q : QueueId) (i : Nat) (v : Byte)
  /-- `Q_COMMIT q, n` (`41_frame_queue.md` R134). -/
  | qCommit (q : QueueId) (n : Nat)
  /-- `Q_HEAD q` (`41_frame_queue.md` R135). -/
  | qHead (q : QueueId)
  /-- `Q_RELEASE q` (`41_frame_queue.md` R136). -/
  | qRelease (q : QueueId)
  /-- `FILTER_MATCH b` (`42_header_filter.md` R150). -/
  | filterMatch (b : Byte)
  /-- `FILTER_CLEAR` (`42_header_filter.md` R151). -/
  | filterClear
  /-- `FILTER_BEGIN` (`42_header_filter.md` R152). -/
  | filterBegin
  /-- `FILTER_APPEND b` (`42_header_filter.md` R153). -/
  | filterAppend (b : Byte)
  /-- `FILTER_COMMIT` (`42_header_filter.md` R154). -/
  | filterCommit
  /-- `RING_PUSH_IN b` (`45_transport_ring.md` R221, R222). -/
  | ringPushIn (b : Byte)
  /-- `RING_PUSH_OUT b` (`45_transport_ring.md` R223). -/
  | ringPushOut (b : Byte)
  /-- `RING_POP r` (`45_transport_ring.md` R224). -/
  | ringPop (r : RingId)
  /-- `ARM c, w` (`60_exceptions.md` R286). -/
  | arm (c : Chan) (w : Nat)
  /-- `DISARM c` (`60_exceptions.md` R287). -/
  | disarm (c : Chan)
deriving DecidableEq, Repr

end Sys2Proof
end

