-- ==== Sys2Proof/WellFormed.lean ====
section
/-! DEFINITION. Which operands the rules speak of. -/

namespace Sys2Proof

/-- A command byte with a row in the command table: 0x01 to 0x08 (`30_encoding.md` R98, R100). -/
def isCommandByte (b : Byte) : Bool := decide (1 ≤ b.toNat) && decide (b.toNat ≤ 8)

/-- The operand ranges the rules give: `Q_STAGE` a byte index in 0..11 (`41_frame_queue.md` R133), `Q_COMMIT` a length in 1..12 (R134),
`ARM` a width in 1..255 (`60_exceptions.md` R286), `CMD_IGNORED` a byte outside 0x01..0x08 (`30_encoding.md` R103). Every other operand is
free by its type. -/
def Instr.wf : Instr → Bool
  | .qStage _ i _ => decide (i ≤ 11)
  | .qCommit _ n => decide (1 ≤ n) && decide (n ≤ 12)
  | .arm _ w => decide (1 ≤ w) && decide (w ≤ 255)
  | .cmdIgnored v => !isCommandByte v
  | .tick => true
  | .edge _ _ => true
  | .timerMatch _ => true
  | .xfer _ => true
  | .housekeep => true
  | .sendreq _ => true
  | .dispatch => true
  | .linktimeout => true
  | .setinputs _ _ _ => true
  | .reset => true
  | .getSwitch => true
  | .getPower => true
  | .popRx0 => true
  | .popRx1 => true
  | .clrFilter => true
  | .setFilter => true
  | .tx0 => true
  | .tx1 => true
  | .pShort _ => true
  | .pLong _ => true
  | .eod _ => true
  | .ifs _ => true
  | .aShort _ => true
  | .aLong _ => true
  | .sof _ => true
  | .crcInit => true
  | .crcBit _ _ => true
  | .crcByte _ _ => true
  | .crcFinal _ => true
  | .crc8 _ => true
  | .qEmpty _ => true
  | .qFull _ => true
  | .qHead _ => true
  | .qRelease _ => true
  | .filterMatch _ => true
  | .filterClear => true
  | .filterBegin => true
  | .filterAppend _ => true
  | .filterCommit => true
  | .ringPushIn _ => true
  | .ringPushOut _ => true
  | .ringPop _ => true
  | .disarm _ => true

end Sys2Proof
end

