-- ==== Sys2Proof/Decode.lean ====
section
/-! DEFINITION. The decoders of the block's three encoded spaces, the operation tags of the schedule, the command bytes of the serial
link and the 3-bit symbol labels of a channel's wire (`30_encoding.md` R98, R106), and the encoder into them. -/

namespace Sys2Proof

/-- Why a code is no operation. -/
inductive DecodeError
  /-- There is no tag to read. -/
  | noTag
  /-- The byte is no tag of R106. -/
  | unknownTag (t : Byte)
  /-- A two-byte tag without its second byte. -/
  | truncated (t : Byte)
  /-- Bytes follow a complete tag where one code was expected. -/
  | trailingBytes
  /-- The label `111` is no symbol (R106). -/
  | noSuchLabel (l : BitVec 3)
deriving DecidableEq, Repr

/-- An encoded operation: the tag bytes of an operation, a command byte, or a symbol label on a channel's wire (R106, R98). -/
inductive Code
  | tag (bytes : List Byte)
  | command (b : Byte)
  | label (c : Chan) (l : BitVec 3)
deriving DecidableEq, Repr

/-- The channel field of a tag: the bit is the channel's number (R106). -/
def chanOfBit (b : Bool) : Chan := if b then .ch1 else .ch0

/-- The level field of a tag: 1 = Active, 0 = Passive (R106). -/
def levelOfBit (b : Bool) : Level := if b then .active else .passive

/-- The operation at the head of a list of tag bytes, and the bytes after it (R106). -/
def decodeOp : List Byte → Except DecodeError (Instr × List Byte)
  | [] => .error .noTag
  | t :: rest =>
    if t = 0x00#8 then .ok (.tick, rest)
    else if t &&& 0xFC#8 = 0x10#8 then .ok (.edge (chanOfBit (t.getLsbD 1)) (levelOfBit (t.getLsbD 0)), rest)
    else if t &&& 0xFE#8 = 0x20#8 then .ok (.timerMatch (chanOfBit (t.getLsbD 0)), rest)
    else if t = 0x30#8 then
      match rest with
      | [] => .error (.truncated t)
      | r :: rest' => .ok (.xfer r, rest')
    else if t = 0x40#8 then .ok (.housekeep, rest)
    else if t &&& 0xFE#8 = 0x50#8 then .ok (.sendreq (chanOfBit (t.getLsbD 0)), rest)
    else if t = 0x60#8 then .ok (.dispatch, rest)
    else if t = 0x70#8 then .ok (.linktimeout, rest)
    else if t &&& 0xFC#8 = 0x80#8 then
      match rest with
      | [] => .error (.truncated t)
      | sw :: rest' => .ok (.setinputs sw (t.getLsbD 0) (t.getLsbD 1), rest')
    else if t = 0xF0#8 then .ok (.reset, rest)
    else .error (.unknownTag t)

/-- The command of a byte read while a command byte is expected (`30_encoding.md` R98, R103; `46_dispatcher.md` R241): every byte is one. -/
def decodeCommand (b : Byte) : Instr :=
  if b = 0x01#8 then .getSwitch
  else if b = 0x02#8 then .getPower
  else if b = 0x03#8 then .popRx0
  else if b = 0x04#8 then .popRx1
  else if b = 0x05#8 then .clrFilter
  else if b = 0x06#8 then .setFilter
  else if b = 0x07#8 then .tx0
  else if b = 0x08#8 then .tx1
  else .cmdIgnored b

/-- The symbol of a 3-bit label on channel `c`'s wire (R106). -/
def decodeSymbol (c : Chan) (l : BitVec 3) : Except DecodeError Instr :=
  if l = 0b000#3 then .ok (.pShort c)
  else if l = 0b001#3 then .ok (.pLong c)
  else if l = 0b010#3 then .ok (.eod c)
  else if l = 0b011#3 then .ok (.ifs c)
  else if l = 0b100#3 then .ok (.aShort c)
  else if l = 0b101#3 then .ok (.aLong c)
  else if l = 0b110#3 then .ok (.sof c)
  else .error (.noSuchLabel l)

/-- One encoded operation: total, and an error by name where the code is none. -/
def decode : Code → Except DecodeError Instr
  | .tag bytes =>
    match decodeOp bytes with
    | .error e => .error e
    | .ok (i, []) => .ok i
    | .ok (_, _ :: _) => .error .trailingBytes
  | .command b => .ok (decodeCommand b)
  | .label c l => decodeSymbol c l

/-- The channel's number as the low bit of a tag (R106). -/
def chanBit : Chan → Byte
  | .ch0 => 0
  | .ch1 => 1

/-- The level as the low bit of a tag (R106). -/
def levelBit : Level → Byte
  | .passive => 0
  | .active => 1

/-- A flag as the low bit of a tag. -/
def boolBit (b : Bool) : Byte := if b then 1 else 0

/-- The code of an operation (R98, R106). The primitives have none ("called by other operations and have no encoding", R106). -/
def encode : Instr → Option Code
  | .tick => some (.tag [0x00#8])
  | .edge c lvl => some (.tag [0x10#8 ||| (chanBit c <<< 1) ||| levelBit lvl])
  | .timerMatch c => some (.tag [0x20#8 ||| chanBit c])
  | .xfer rx => some (.tag [0x30#8, rx])
  | .housekeep => some (.tag [0x40#8])
  | .sendreq c => some (.tag [0x50#8 ||| chanBit c])
  | .dispatch => some (.tag [0x60#8])
  | .linktimeout => some (.tag [0x70#8])
  | .setinputs sw acc hp => some (.tag [0x80#8 ||| (boolBit hp <<< 1) ||| boolBit acc, sw])
  | .reset => some (.tag [0xF0#8])
  | .getSwitch => some (.command 0x01#8)
  | .getPower => some (.command 0x02#8)
  | .popRx0 => some (.command 0x03#8)
  | .popRx1 => some (.command 0x04#8)
  | .clrFilter => some (.command 0x05#8)
  | .setFilter => some (.command 0x06#8)
  | .tx0 => some (.command 0x07#8)
  | .tx1 => some (.command 0x08#8)
  | .cmdIgnored v => some (.command v)
  | .pShort c => some (.label c 0b000#3)
  | .pLong c => some (.label c 0b001#3)
  | .eod c => some (.label c 0b010#3)
  | .ifs c => some (.label c 0b011#3)
  | .aShort c => some (.label c 0b100#3)
  | .aLong c => some (.label c 0b101#3)
  | .sof c => some (.label c 0b110#3)
  | .crcInit => none
  | .crcBit _ _ => none
  | .crcByte _ _ => none
  | .crcFinal _ => none
  | .crc8 _ => none
  | .qEmpty _ => none
  | .qFull _ => none
  | .qStage _ _ _ => none
  | .qCommit _ _ => none
  | .qHead _ => none
  | .qRelease _ => none
  | .filterMatch _ => none
  | .filterClear => none
  | .filterBegin => none
  | .filterAppend _ => none
  | .filterCommit => none
  | .ringPushIn _ => none
  | .ringPushOut _ => none
  | .ringPop _ => none
  | .arm _ _ => none
  | .disarm _ => none

/-- A first tag byte that a second one follows: `XFER` and `SETINPUTS` (R106). -/
def twoByteTag (t : Byte) : Bool := t == 0x30#8 || t &&& 0xFC#8 == 0x80#8

/-- The tag bytes of a table word: a 16-bit row is one number whose bits 15..8 are the first tag byte (its match and mask stand "on the
16-bit word"); an 8-bit word that begins a two-byte tag is followed by a zero byte (log 14). -/
def tagBytesOfTableWord (nbits w : Nat) : List Byte :=
  if nbits ≤ 8 then
    if twoByteTag (BitVec.ofNat 8 w) then [BitVec.ofNat 8 w, 0#8] else [BitVec.ofNat 8 w]
  else [BitVec.ofNat 8 (w / 256), BitVec.ofNat 8 w]

/-- The instruction of a table word. The three encoded spaces share their small numbers, so an 8-bit word is read as an operation tag if it
is one and as a command byte else, and a word of fewer than 8 bits as a symbol label, on channel 0's wire (log 14). -/
def decodeTableWord (nbits w : Nat) : Option Instr :=
  if nbits < 8 then
    match decode (.label .ch0 (BitVec.ofNat 3 w)) with
    | .ok i => some i
    | .error _ => none
  else
    match decode (.tag (tagBytesOfTableWord nbits w)) with
    | .ok i => some i
    | .error _ => if nbits = 8 then some (decodeCommand (BitVec.ofNat 8 w)) else none

end Sys2Proof
end

