-- ==== Sys2Proof/Machine/State.lean ====
section
/-! DEFINITION. The state of the block (`10_state.md` R20 to R38) as plain data, the ways a step can stop, and the state after reset. -/

namespace Sys2Proof.Machine

/-- `st[c]`: the protocol state of a channel (`10_state.md` R21). An enumeration: its numbers are not defined (R105). -/
inductive Proto
  | idle
  | sofWait
  | receiving
  | txArmed
  | txWaitIfs
  | txSending
deriving DecidableEq, Repr

/-- The `start` and `end` indices of a circular queue or ring (`10_state.md` R30, R32): the read and the write position. -/
structure Ptrs where
  start : Nat
  stop : Nat
deriving DecidableEq, Repr

/-- The working registers of one channel (`10_state.md` R21 to R28) and the pointers of its two frame queues (R30). -/
structure Channel where
  /-- `st[c]` (R21). -/
  st : Proto
  /-- `last_edge[c]` (R22). -/
  lastEdge : Byte
  /-- `byte_idx[c]` (R23). -/
  byteIdx : Nat
  /-- `bit_idx[c]` (R23). -/
  bitIdx : Nat
  /-- `sh[c]` (R24). -/
  sh : Byte
  /-- `drive[c]`, the output pin (R25). -/
  drive : Level
  /-- `bus_in[c]`, the input pin (R26). -/
  busIn : Level
  /-- `rx_en[c]` (R27). -/
  rxEn : Bool
  /-- `ocr[c]` (R28). -/
  ocr : Byte
  /-- `match_en[c]` (R28). -/
  matchEn : Bool
  /-- `match_pend[c]` (R28). -/
  matchPend : Bool
  /-- `rxq[c].start` and `rxq[c].end` (R30). -/
  rxq : Ptrs
  /-- `txq[c].start` and `txq[c].end` (R30). -/
  txq : Ptrs
deriving DecidableEq, Repr

/-- `sess`: the command session (`10_state.md` R36). -/
inductive Session
  /-- `SIdle`. -/
  | idle
  /-- `SPopSend(c, idx, rem)`. -/
  | popSend (c : Chan) (idx : Nat) (rem : Nat)
  /-- `SFilterLoad`. -/
  | filterLoad
  /-- `STxLen(c)`. -/
  | txLen (c : Chan)
  /-- `STxData(c, idx, L)`. -/
  | txData (c : Chan) (idx : Nat) (len : Nat)
deriving DecidableEq, Repr

/-- `xfer_mode` (`10_state.md` R34): no rule reads or writes it. -/
inductive XferMode
  | idleEcho
  | data
deriving DecidableEq, Repr

/-- A storage cell of `20_memory.md` R60: a data byte or the length of a slot of a frame queue, or a byte of a ring. -/
inductive CellId
  | data (q : QueueId) (slot : Nat) (i : Nat)
  | len (q : QueueId) (slot : Nat)
  | ring (r : RingId) (i : Nat)
deriving DecidableEq, Repr

/-- The storage cells that have been written since reset, by key (log 6). -/
structure Memory where
  cells : List Host.Cell
deriving DecidableEq, Repr

/-- The faults of the spec, as the ghost events that `raise` may record (`60_exceptions.md` R270 to R275). They stop nothing. -/
inductive Raised
  /-- `TimingFault(c)` (R271). -/
  | timingFault (c : Chan)
  /-- `LengthFault(c)` (R272). -/
  | lengthFault (c : Chan)
  /-- `QueueOverflow(q)` (R273). -/
  | queueOverflow (q : QueueId)
  /-- `Contention(c)` (R274). -/
  | contention (c : Chan)
  /-- `TransportOverflow(in)` and `TransportOverflow(out)` (R275). -/
  | transportOverflow (r : RingId)
  /-- `TransportUnderflow` (R275). -/
  | transportUnderflow
deriving DecidableEq, Repr

/-- What an operation returned to its caller. -/
inductive Result
  /-- Nothing has been returned yet. -/
  | none
  /-- A byte: `tx` of `XFER`, a CRC value, a popped byte. -/
  | byte (b : Byte)
  /-- A truth value: `Q_EMPTY`, `Q_FULL`, `FILTER_MATCH`. -/
  | flag (b : Bool)
  /-- The frame `Q_HEAD` returns: its length and its bytes. -/
  | frame (len : Nat) (data : List Byte)
  /-- `accepted` (true) or `rejected` (false) of `Q_COMMIT`. -/
  | commit (accepted : Bool)
deriving DecidableEq, Repr

/-- The state of the block. The last five fields are the model's own (INVENTORY.md). -/
structure State where
  /-- `tcnt` (R20). -/
  tcnt : Byte
  /-- The registers of channel 0. -/
  ch0 : Channel
  /-- The registers of channel 1. -/
  ch1 : Channel
  /-- The storage of slots and rings (R29, R30, R32; `20_memory.md` R60). -/
  mem : Memory
  /-- `filt_active` (R31). -/
  filtActive : List Byte
  /-- `filt_stage` (R31). -/
  filtStage : List Byte
  /-- `ring_in.start` and `ring_in.end` (R32). -/
  ringIn : Ptrs
  /-- `ring_out.start` and `ring_out.end` (R32). -/
  ringOut : Ptrs
  /-- `sdr` (R33). -/
  sdr : Byte
  /-- `xfer_mode` (R34). -/
  xferMode : XferMode
  /-- `link_active` (R35). -/
  linkActive : Bool
  /-- `sess` (R36). -/
  sess : Session
  /-- `switch_code` (R37). -/
  switchCode : Byte
  /-- `acc_rail` (R37). -/
  accRail : Bool
  /-- `host_pwr_rail` (R37). -/
  hostPwrRail : Bool
  /-- The configuration, a parameter of the step relation (R39) that no operation writes (log 2). -/
  cfg : Config
  /-- The operation tags still to run: the schedule of R39 as data (log 1). -/
  sched : List Byte
  /-- The value the last value-returning operation returned (log 9). -/
  result : Result
  /-- The ghost log of `raise`, newest first (R270; log 10). -/
  raised : List Raised
  /-- How many free values `RESET` has taken (log 5). -/
  freeCount : Nat
deriving DecidableEq, Repr

/-- Why the block stops with a fault. -/
inductive Fault
  /-- A read of a storage cell that nothing has written since reset. Raised by every read of storage; the spec asks for it
  (`20_memory.md` R61, decision D36). Safe: no value is made up. -/
  | unwrittenCell
  /-- An access to a storage cell that does not exist: a slot, byte or ring index beyond its array (`20_memory.md` R60, R72). Raised by every
  access to storage; no state that the operations reach raises it. Safe: the model stops. -/
  | noSuchCell
deriving DecidableEq, Repr

/-- Why an operation is refused. -/
inductive Refusal
  /-- No meaning yet for the operation of that mnemonic. Raised by no arm of this model. Safe. -/
  | notModelled (mnemonic : String)
  /-- The next bytes of the schedule are no operation tag (`30_encoding.md` R106). Raised by the fetch. Safe: no such operation exists. -/
  | undecodable (e : DecodeError)
  /-- The configuration is not well formed (`00_scope.md` R8 to R10; I3 of `93_implementation_defined.md`: refuse). Raised by the fetch. Safe. -/
  | illFormedConfig
  /-- `TICK` while a match is pending (`60_exceptions.md` R289: enabled only when no `match_pend` bit is set). Raised by `TICK`. Safe. -/
  | tickNotEnabled
  /-- `EDGE c,lvl` with `lvl = bus_in[c]` (`43_vpw_receiver.md` R160; I17: refuse). Raised by `EDGE`. Safe. -/
  | edgeNotEnabled
  /-- `MATCH c` without `match_pend[c]` (`60_exceptions.md` R288; I17: refuse). Raised by `MATCH`, `EOD`, `IFS`. Safe. -/
  | matchNotEnabled
  /-- `SENDREQ c` outside its precondition (`44_vpw_transmitter.md` R191). Raised by `SENDREQ`. Safe. -/
  | sendreqNotEnabled
  /-- `DISPATCH` with no popped frame to send and `ring_in` empty (`46_dispatcher.md` R240). Raised by `DISPATCH`. Safe. -/
  | dispatchNotEnabled
  /-- A command byte while the session takes payload (`30_encoding.md` R98: recognised in `SIdle` or `SFilterLoad` only). Raised by the
  command operations. Safe. -/
  | sessionOpen
  /-- `CMD_IGNORED` of a byte that is a command (R103: 0x00 and 0x09 to 0xFF). Raised by `CMD_IGNORED`. Safe. -/
  | notAnIgnoredByte
  /-- A symbol that the channel's wire does not carry: another level or another width class (`30_encoding.md` R90). Raised by the symbols. Safe. -/
  | symbolAbsent
  /-- `Q_HEAD` or `Q_RELEASE` on an empty queue (`41_frame_queue.md` R135, R136; I15: refuse). Raised by both. Safe. -/
  | emptyQueue
  /-- `RING_POP` on an empty ring (`45_transport_ring.md` R224; I15: refuse). Raised by `RING_POP`. Safe. -/
  | emptyRing
  /-- `Q_COMMIT` of a length outside 1..12 (`41_frame_queue.md` R134). Raised by `Q_COMMIT`. Safe. -/
  | badLength
  /-- `ARM` with a width outside 1..255 (`60_exceptions.md` R286; I16: refuse). Raised by `ARM`. Safe. -/
  | armWidth
deriving DecidableEq, Repr

/-- What a part of an operation answers: a value, or one of the two ways to stop. -/
abbrev Res (α : Type) := Host.Outcome α Fault Refusal

/-- A channel after reset (`70_reset_and_hazards.md` R301). `lastEdge`, `sh` and `ocr` are unspecified there: DESIGN CHOICE 0 (log 4). -/
def Channel.reset : Channel where
  st := .idle
  lastEdge := 0#8
  byteIdx := 0
  bitIdx := 0
  sh := 0#8
  drive := .passive
  busIn := .passive
  rxEn := true
  ocr := 0#8
  matchEn := false
  matchPend := false
  rxq := { start := 0, stop := 0 }
  txq := { start := 0, stop := 0 }

/-- The block after reset (`70_reset_and_hazards.md` R301), nothing scheduled, the default configuration. `tcnt`, `sdr`, `switchCode`, `accRail` and
`hostPwrRail` are unspecified there: DESIGN CHOICE 0 (log 4). -/
def State.reset : State where
  tcnt := 0#8
  ch0 := Channel.reset
  ch1 := Channel.reset
  mem := { cells := [] }
  filtActive := []
  filtStage := []
  ringIn := { start := 0, stop := 0 }
  ringOut := { start := 0, stop := 0 }
  sdr := 0#8
  xferMode := .idleEcho
  linkActive := false
  sess := .idle
  switchCode := 0#8
  accRail := false
  hostPwrRail := false
  cfg := Config.default
  sched := []
  result := .none
  raised := []
  freeCount := 0

end Sys2Proof.Machine
end

