-- ==== Sys2Proof/Machine/Operands.lean ====
section
/-! DEFINITION. The operand forms of the operations: a channel, a queue, a ring, a storage cell, a level and a pulse width, each with the one
way to read and write what it names. -/

namespace Sys2Proof.Machine

/-- The registers of channel `c`. -/
def State.ch (s : State) : Chan → Channel
  | .ch0 => s.ch0
  | .ch1 => s.ch1

/-- `s` with the registers of channel `c` replaced; no operation on one channel touches the other (`00_scope.md` R2). -/
def State.setCh (s : State) (c : Chan) (k : Channel) : State :=
  { s with ch0 := if c = .ch0 then k else s.ch0, ch1 := if c = .ch1 then k else s.ch1 }

/-- The pointers of frame queue `q` (`10_state.md` R30). -/
def State.queue (s : State) : QueueId → Ptrs
  | .rxq c => (s.ch c).rxq
  | .txq c => (s.ch c).txq

/-- `s` with the pointers of frame queue `q` replaced. -/
def State.setQueue (s : State) (q : QueueId) (p : Ptrs) : State :=
  match q with
  | .rxq c => s.setCh c { s.ch c with rxq := p }
  | .txq c => s.setCh c { s.ch c with txq := p }

/-- The pointers of transport ring `r` (`10_state.md` R32). -/
def State.ring (s : State) : RingId → Ptrs
  | .ringIn => s.ringIn
  | .ringOut => s.ringOut

/-- `s` with the pointers of transport ring `r` replaced. -/
def State.setRing (s : State) (r : RingId) (p : Ptrs) : State :=
  { s with ringIn := if r = .ringIn then p else s.ringIn, ringOut := if r = .ringOut then p else s.ringOut }

/-- `s` with the storage replaced. -/
def State.setMem (s : State) (m : Memory) : State := { s with mem := m }

/-- `sess <- v` (`10_state.md` R36). -/
def State.setSess (s : State) (v : Session) : State := { s with sess := v }

/-- `s` with the value an operation returned (log 9). -/
def State.setResult (s : State) (v : Result) : State := { s with result := v }

/-- `N` of a frame queue: `RXQ_SLOTS` or `TXQ_SLOTS` (`00_scope.md` R9). -/
def queueSize (cfg : Config) : QueueId → Nat
  | .rxq _ => cfg.rxqSlots
  | .txq _ => cfg.txqSlots

/-- `M` of a ring: `RING_IN_SIZE` or `RING_OUT_SIZE` (`00_scope.md` R10). -/
def ringSize (cfg : Config) : RingId → Nat
  | .ringIn => cfg.ringInSize
  | .ringOut => cfg.ringOutSize

/-- Whether the storage cell exists: slot below `N`, byte index in 0..11, ring index below `M` (`20_memory.md` R60). -/
def cellExists (cfg : Config) : CellId → Bool
  | .data q k i => decide (k < queueSize cfg q) && decide (i < 12)
  | .len q k => decide (k < queueSize cfg q)
  | .ring r i => decide (i < ringSize cfg r)

/-- The number of a frame queue among the six storage arrays (log 6). -/
def queueCode : QueueId → Nat
  | .rxq .ch0 => 0
  | .rxq .ch1 => 1
  | .txq .ch0 => 2
  | .txq .ch1 => 3

/-- The number of a ring among the six storage arrays (log 6). -/
def ringCode : RingId → Nat
  | .ringIn => 4
  | .ringOut => 5

/-- The key under which a cell is stored. The spec gives no addresses (`20_memory.md` R72): DESIGN CHOICE (log 6), one key for each existing cell. -/
def cellKey : CellId → Nat
  | .data q k i => 6 * (13 * k + i) + queueCode q
  | .len q k => 6 * (13 * k + 12) + queueCode q
  | .ring r i => 6 * i + ringCode r

/-- `¬lvl`: the other level (`00_scope.md` section 6). -/
def otherLevel : Level → Level
  | .passive => .active
  | .active => .passive

/-- The elapsed ticks at an edge of channel `c`: `(tcnt − last_edge[c]) mod 256` (`43_vpw_receiver.md` R160). -/
def elapsed (s : State) (c : Chan) : Nat := (s.tcnt - (s.ch c).lastEdge).toNat

/-- The width class of a data pulse. -/
inductive PulseWidth
  | short
  | long
deriving DecidableEq, Repr

/-- Width classification of an elapsed count in `Receiving`: Short, else Long, else neither (`43_vpw_receiver.md` R163). -/
def classify (t : Timing) (e : Nat) : Option PulseWidth :=
  if t.isShort e then some .short
  else if t.isLong e then some .long
  else none

/-- The bit of a data pulse: 1 for a long Passive or a short Active pulse (`30_encoding.md` R91; `43_vpw_receiver.md` R164). -/
def dataBit : Level → PulseWidth → Bool
  | .passive, .short => false
  | .passive, .long => true
  | .active, .short => true
  | .active, .long => false

/-- The width class sent for a bit on the newly driven level (`30_encoding.md` R93; `44_vpw_transmitter.md` R196). -/
def sendWidth : Level → Bool → PulseWidth
  | .active, true => .short
  | .active, false => .long
  | .passive, true => .long
  | .passive, false => .short

/-- The armed width of a class: `TX_SHORT` or `TX_LONG` (`44_vpw_transmitter.md` R196). -/
def txTicks (t : Timing) : PulseWidth → Nat
  | .short => t.txShort
  | .long => t.txLong

/-- The register after a bit is shifted in at bit 0 (`43_vpw_receiver.md` R165). -/
def shiftIn (sh : Byte) (bit : Bool) : Byte := (sh <<< 1) ||| (if bit then 1#8 else 0#8)

end Sys2Proof.Machine
end

