-- ==== Sys2Proof/Machine/Flags.lean ====
section
/-! DEFINITION. The conditions the rules test: empty, full and count of a circular buffer, which operations are enabled, and the power byte.
The block has no condition-code register; its only status bits are those of `10_state.md` R27, R28 and R35. -/

namespace Sys2Proof.Machine

/-- `Q_EMPTY`, `RING_EMPTY`: `start = end` (`41_frame_queue.md` R130; `45_transport_ring.md` R220). -/
def Ptrs.isEmpty (p : Ptrs) : Bool := decide (p.start = p.stop)

/-- The index after `i` in a buffer of `n` cells. -/
def nextIndex (n i : Nat) : Nat := (i + 1) % n

/-- `Q_FULL`, `RING_FULL`: `(end + 1) mod N = start` (`41_frame_queue.md` R131; `45_transport_ring.md` R220). -/
def Ptrs.isFull (n : Nat) (p : Ptrs) : Bool := decide (nextIndex n p.stop = p.start)

/-- `Q_COUNT`, `RING_COUNT`: `(end − start) mod N` (`41_frame_queue.md` R132; `45_transport_ring.md` R220); the sum with `N` keeps the natural-number
difference exact for every `start` below `N`. -/
def Ptrs.count (n : Nat) (p : Ptrs) : Nat := (p.stop + n - p.start) % n

/-- The index that many places after `start`: the buffered cells are, oldest first, those of 0 to `count − 1` (R132, R220). -/
def Ptrs.nth (n : Nat) (p : Ptrs) (j : Nat) : Nat := (p.start + j) % n

/-- `Q_EMPTY q` (`41_frame_queue.md` R130). -/
def queueEmpty (q : QueueId) (s : State) : Bool := (s.queue q).isEmpty

/-- `Q_FULL q` (`41_frame_queue.md` R131). -/
def queueFull (q : QueueId) (s : State) : Bool := (s.queue q).isFull (queueSize s.cfg q)

/-- `Q_COUNT q` (`41_frame_queue.md` R132). -/
def queueCount (q : QueueId) (s : State) : Nat := (s.queue q).count (queueSize s.cfg q)

/-- `RING_EMPTY r` (`45_transport_ring.md` R220). -/
def ringEmpty (r : RingId) (s : State) : Bool := (s.ring r).isEmpty

/-- `RING_FULL r` (`45_transport_ring.md` R220). -/
def ringFull (r : RingId) (s : State) : Bool := (s.ring r).isFull (ringSize s.cfg r)

/-- `RING_COUNT r` (`45_transport_ring.md` R220). -/
def ringCount (r : RingId) (s : State) : Nat := (s.ring r).count (ringSize s.cfg r)

/-- `TICK` is enabled only when no `match_pend` bit is set (`60_exceptions.md` R289). -/
def tickEnabled (s : State) : Bool := !s.ch0.matchPend && !s.ch1.matchPend

/-- `EDGE c, lvl` is enabled when the level changes (`43_vpw_receiver.md` R160). -/
def edgeEnabled (c : Chan) (lvl : Level) (s : State) : Bool := decide (lvl ≠ (s.ch c).busIn)

/-- `MATCH c` is enabled when a match is pending (`60_exceptions.md` R288). -/
def matchEnabled (c : Chan) (s : State) : Bool := (s.ch c).matchPend

/-- The precondition of `SENDREQ c`: `st[c] = Idle` and `txq[c]` not empty (`44_vpw_transmitter.md` R191). -/
def sendreqEnabled (c : Chan) (s : State) : Bool := decide ((s.ch c).st = .idle) && !queueEmpty (.txq c) s

/-- `DISPATCH` is enabled in `SPopSend`, or when `ring_in` is not empty (`46_dispatcher.md` R240). -/
def dispatchEnabled (s : State) : Bool :=
  match s.sess with
  | .popSend _ _ _ => true
  | .idle => !ringEmpty .ringIn s
  | .filterLoad => !ringEmpty .ringIn s
  | .txLen _ => !ringEmpty .ringIn s
  | .txData _ _ _ => !ringEmpty .ringIn s

/-- The `GET_POWER` response: bit 0 the accessory rail, bit 1 the host-power rail, bits 7 to 2 zero (`30_encoding.md` R102; `46_dispatcher.md` R243). -/
def powerByte (acc hp : Bool) : Byte := boolBit acc ||| (boolBit hp <<< 1)

/-- `FILTER_MATCH b`: the active list is empty or holds `b` (`42_header_filter.md` R150). -/
def filterMatches (b : Byte) (s : State) : Bool := s.filtActive.isEmpty || s.filtActive.contains b

end Sys2Proof.Machine
end

