-- ==== Sys2Proof/Machine/Ops.lean ====
section
/-! DEFINITION. The named operations over storage, frame queues, rings, the filter and the compare units that the meanings share, and what takes
the place of an exception: `raise` with its recovery (`60_exceptions.md` R270). -/

namespace Sys2Proof.Machine

/-- One part of an operation after another: the first stop ends it. -/
def Res.andThen {α β : Type} (x : Res α) (f : α → Res β) : Res β :=
  match x with
  | .next a => f a
  | .fault r => .fault r
  | .refused r => .refused r

/-! ### Storage (`20_memory.md` R60, R61) -/

/-- The byte under a key, none where nothing was written. -/
def lookupCell : List Host.Cell → Nat → Option Byte
  | [], _ => none
  | x :: rest, a => if a = x.1 then some x.2 else lookupCell rest a

/-- The list with one byte written, in rising order of keys. -/
def insertCell : List Host.Cell → Nat → Byte → List Host.Cell
  | [], a, v => [(a, v)]
  | x :: rest, a, v =>
    if a < x.1 then (a, v) :: x :: rest
    else if a = x.1 then (a, v) :: rest
    else x :: insertCell rest a v

/-- The byte a key holds. A key not listed has no value (`20_memory.md` R61; log 6). -/
def Memory.read (m : Memory) (a : Nat) : Option Byte := lookupCell m.cells a

/-- The memory after a byte is written. -/
def Memory.write (m : Memory) (a : Nat) (v : Byte) : Memory := { cells := insertCell m.cells a v }

/-- The canonical form: keys strictly rising. An unlisted key has no value, so no entry equals it. -/
abbrev Memory.wf (m : Memory) : Prop := m.cells.Pairwise (fun x y => x.1 < y.1)

/-- What a cell holds, none where nothing was written since reset. -/
def cellValue (x : CellId) (s : State) : Option Byte := s.mem.read (cellKey x)

/-- `MemRead(space, i, 1)` (`20_memory.md` R61): the byte last written; a fault where there is none. -/
def memRead (x : CellId) (s : State) : Res Byte :=
  if cellExists s.cfg x then
    match cellValue x s with
    | some v => .next v
    | none => .fault .unwrittenCell
  else .fault .noSuchCell

/-- `MemWrite(space, i, 1, v)` (`20_memory.md` R61). -/
def memWrite (x : CellId) (v : Byte) (s : State) : Res State :=
  if cellExists s.cfg x then .next (s.setMem (s.mem.write (cellKey x) v))
  else .fault .noSuchCell

/-- The length cell of a slot (`10_state.md` R29). -/
def readLen (q : QueueId) (slot : Nat) (s : State) : Res Nat :=
  (memRead (.len q slot) s).andThen fun v => .next v.toNat

/-- The bytes `data[0 .. n − 1]` of a slot, first byte first. -/
def readData (q : QueueId) (slot : Nat) : Nat → State → Res (List Byte)
  | 0, _ => .next []
  | n + 1, s =>
    (readData q slot n s).andThen fun xs =>
    (memRead (.data q slot n) s).andThen fun b =>
    .next (xs ++ [b])

/-! ### Faults of the spec: `raise` records a ghost event and nothing else (`60_exceptions.md` R270, R282) -/

/-- `raise e`: nothing is saved, no control is transferred; only the ghost log grows (R270, R282; log 10). -/
def raiseFault (e : Raised) (s : State) : State := { s with raised := e :: s.raised }

/-! ### The compare unit (`60_exceptions.md` R286, R287) -/

/-- `ARM c, w` (R286). A width outside 1..255 is refused (R311, I16). -/
def armUnit (c : Chan) (w : Nat) (s : State) : Res State :=
  if 1 ≤ w ∧ w ≤ 255 then
    .next (s.setCh c { s.ch c with ocr := s.tcnt + BitVec.ofNat 8 w, matchEn := true, matchPend := false })
  else .refused .armWidth

/-- `DISARM c` (R287). -/
def disarmUnit (c : Chan) (s : State) : State :=
  s.setCh c { s.ch c with matchEn := false, matchPend := false }

/-! ### Frame queues (`41_frame_queue.md`) -/

/-- `Q_STAGE q, i, v` (R133): write byte `i` of the slot at `end`; no pointer moves. -/
def qStage (q : QueueId) (i : Nat) (v : Byte) (s : State) : Res State :=
  memWrite (.data q (s.queue q).stop i) v s

/-- `Q_COMMIT q, n` (R134): rejected on a full queue (`QueueOverflow`, nothing changes), else set `len` and advance `end`. -/
def qCommit (q : QueueId) (n : Nat) (s : State) : Res (Bool × State) :=
  if 1 ≤ n ∧ n ≤ 12 then
    if queueFull q s then .next (false, raiseFault (.queueOverflow q) s)
    else
      (memWrite (.len q (s.queue q).stop) (BitVec.ofNat 8 n) s).andThen fun s1 =>
      .next (true, s1.setQueue q { s1.queue q with stop := nextIndex (queueSize s1.cfg q) (s1.queue q).stop })
  else .refused .badLength

/-- `Q_HEAD q` (R135): length and bytes of the oldest frame; refused on an empty queue. -/
def qHead (q : QueueId) (s : State) : Res (Nat × List Byte) :=
  if queueEmpty q s then .refused .emptyQueue
  else
    (readLen q (s.queue q).start s).andThen fun n =>
    (readData q (s.queue q).start n s).andThen fun xs =>
    .next (n, xs)

/-- `Q_RELEASE q` (R136): advance `start`; refused on an empty queue. -/
def qRelease (q : QueueId) (s : State) : Res State :=
  if queueEmpty q s then .refused .emptyQueue
  else .next (s.setQueue q { s.queue q with start := nextIndex (queueSize s.cfg q) (s.queue q).start })

/-! ### Transport rings (`45_transport_ring.md`) -/

/-- Store `b` at `end` and advance `end` (the common last two lines of R221 to R223). -/
def ringStore (r : RingId) (b : Byte) (s : State) : Res State :=
  (memWrite (.ring r (s.ring r).stop) b s).andThen fun s1 =>
  .next (s1.setRing r { s1.ring r with stop := nextIndex (ringSize s1.cfg r) (s1.ring r).stop })

/-- `RING_PUSH_IN b`: on a full ring evict the oldest byte (R221) or drop the new one (R222), by `INBOUND_POLICY`. -/
def pushIn (b : Byte) (s : State) : Res State :=
  if ringFull .ringIn s then
    match s.cfg.inboundPolicy with
    | .dropOldest =>
      ringStore .ringIn b
        ((raiseFault (.transportOverflow .ringIn) s).setRing .ringIn
          { s.ringIn with start := nextIndex s.cfg.ringInSize s.ringIn.start })
    | .dropNewest => .next (raiseFault (.transportOverflow .ringIn) s)
  else ringStore .ringIn b s

/-- `RING_PUSH_OUT b` (R223): on a full ring the pushed byte is dropped. -/
def pushOut (b : Byte) (s : State) : Res State :=
  if ringFull .ringOut s then .next (raiseFault (.transportOverflow .ringOut) s)
  else ringStore .ringOut b s

/-- `RING_POP r` (R224): the oldest byte, and `start` advanced; refused on an empty ring. -/
def ringPop (r : RingId) (s : State) : Res (Byte × State) :=
  if ringEmpty r s then .refused .emptyRing
  else
    (memRead (.ring r (s.ring r).start) s).andThen fun b =>
    .next (b, s.setRing r { s.ring r with start := nextIndex (ringSize s.cfg r) (s.ring r).start })

/-! ### The header filter (`42_header_filter.md`) -/

/-- `FILTER_CLEAR` (R151). -/
def filterClear (s : State) : State := { s with filtActive := [], filtStage := [] }

/-- `FILTER_BEGIN` (R152). -/
def filterBegin (s : State) : State := { s with filtStage := [] }

/-- `FILTER_APPEND b` (R153): dropped when `FILTER_MAX` entries are staged. -/
def filterAppend (b : Byte) (s : State) : State :=
  if s.filtStage.length < s.cfg.filterMax then { s with filtStage := s.filtStage ++ [b] } else s

/-- `FILTER_COMMIT` (R154). -/
def filterCommit (s : State) : State := { s with filtActive := s.filtStage }

/-! ### The two recoveries (`60_exceptions.md` R271, R274) -/

/-- `RX_ABORT c` (`43_vpw_receiver.md` R170): the channel is idle and disarmed; the staged bytes and the cursor stay. -/
def rxAbort (c : Chan) (s : State) : State :=
  disarmUnit c (s.setCh c { s.ch c with st := .idle })

/-- `TX_ABORT c` (`44_vpw_transmitter.md` R200): the bus is released, the compare unit disarmed, the frame released, the receive decoder enabled, the
channel idle. -/
def txAbort (c : Chan) (s : State) : Res State :=
  (qRelease (.txq c) (disarmUnit c (s.setCh c { s.ch c with drive := .passive }))).andThen fun s1 =>
  .next (s1.setCh c { s1.ch c with rxEn := true, st := .idle })

/-- A timing fault: raised, and recovered by `RX_ABORT` (`60_exceptions.md` R271). -/
def timingFault (c : Chan) (s : State) : Res State := .next (rxAbort c (raiseFault (.timingFault c) s))

/-- A length fault: raised, and recovered by `RX_ABORT` (`60_exceptions.md` R272). -/
def lengthFault (c : Chan) (s : State) : Res State := .next (rxAbort c (raiseFault (.lengthFault c) s))

/-- Contention: raised, and recovered by `TX_ABORT` (`60_exceptions.md` R274). -/
def contention (c : Chan) (s : State) : Res State := txAbort c (raiseFault (.contention c) s)

end Sys2Proof.Machine
end

