-- ==== Sys2Proof/Machine/Crc.lean ====
section
/-! DEFINITION. The 8-bit CRC engine (`40_crc.md`): a pure function, no state (R39). The primitives take the register as an operand and return it in
`result` (log 15). -/

namespace Sys2Proof.Machine

/-- `CRC_INIT` (`40_crc.md` R120). -/
def crcStart : Byte := 0xFF#8

/-- `CRC_BIT crc, b` by the four cases of `40_crc.md` R121; `top` is taken before the shift. -/
def crcBitStep (crc : Byte) (b : Bool) : Byte :=
  if b then
    ((crc <<< 1) ||| 0x01#8) ^^^ (if crc.getLsbD 7 then 0x01#8 else 0x1C#8)
  else
    (crc <<< 1) ^^^ (if crc.getLsbD 7 then 0x1D#8 else 0x00#8)

/-- The low `n` bits of `x` into the register, bit `n − 1` first. -/
def crcBits (x : Byte) : Nat → Byte → Byte
  | 0, crc => crc
  | n + 1, crc => crcBits x n (crcBitStep crc (x.getLsbD n))

/-- `CRC_BYTE crc, x`: eight bits, bit 7 first (`40_crc.md` R122). -/
def crcByteStep (crc x : Byte) : Byte := crcBits x 8 crc

/-- `CRC_FINAL crc`: the complement (`40_crc.md` R123). -/
def crcFinish (crc : Byte) : Byte := ~~~crc

/-- The register after a byte sequence, from `CRC_INIT`. -/
def crcRegister (bytes : List Byte) : Byte := bytes.foldl crcByteStep crcStart

/-- `CRC8 bytes` (`40_crc.md` R124). -/
def crc8 (bytes : List Byte) : Byte := crcFinish (crcRegister bytes)

/-- `CRC_INIT` as an operation (`40_crc.md` R120). -/
def execCrcInit (s : State) : Res State := .next (s.setResult (.byte crcStart))

/-- `CRC_BIT` as an operation (`40_crc.md` R121). -/
def execCrcBit (crc : Byte) (b : Bool) (s : State) : Res State := .next (s.setResult (.byte (crcBitStep crc b)))

/-- `CRC_BYTE` as an operation (`40_crc.md` R122). -/
def execCrcByte (crc x : Byte) (s : State) : Res State := .next (s.setResult (.byte (crcByteStep crc x)))

/-- `CRC_FINAL` as an operation (`40_crc.md` R123). -/
def execCrcFinal (crc : Byte) (s : State) : Res State := .next (s.setResult (.byte (crcFinish crc)))

/-- `CRC8` as an operation (`40_crc.md` R124). -/
def execCrc8 (bytes : List Byte) (s : State) : Res State := .next (s.setResult (.byte (crc8 bytes)))

end Sys2Proof.Machine
end

