-- ==== Sys2Proof/Machine/Commands.lean ====
section
/-! DEFINITION. The command bytes (`46_dispatcher.md` R241 to R253), each as the step it is once `DISPATCH` has taken the byte from `ring_in`. -/

namespace Sys2Proof.Machine

/-- A command byte is recognised in `SIdle`, and in `SFilterLoad`, where it first commits the staged filter and closes the session (`30_encoding.md` R98,
R100; `46_dispatcher.md` R248). Inside the other sessions a byte is never a command (R251). -/
def asCommand (body : State → Res State) (s : State) : Res State :=
  match s.sess with
  | .idle => body s
  | .filterLoad => body ((filterCommit s).setSess .idle)
  | .popSend _ _ _ => .refused .sessionOpen
  | .txLen _ => .refused .sessionOpen
  | .txData _ _ _ => .refused .sessionOpen

/-- `POP_RX` of channel `c`: the status byte, and the session that sends the oldest frame if there is one (`46_dispatcher.md` R244). -/
def popRx (c : Chan) (s : State) : Res State :=
  if queueEmpty (.rxq c) s then pushOut 0x00#8 s
  else
    (pushOut 0x01#8 s).andThen fun s1 =>
    (readLen (.rxq c) (s1.queue (.rxq c)).start s1).andThen fun n =>
    .next (s1.setSess (.popSend c 0 n))

/-- `GET_SWITCH` (`46_dispatcher.md` R242). -/
def execGetSwitch (s : State) : Res State := asCommand (fun s => pushOut s.switchCode s) s

/-- `GET_POWER` (`46_dispatcher.md` R243). -/
def execGetPower (s : State) : Res State := asCommand (fun s => pushOut (powerByte s.accRail s.hostPwrRail) s) s

/-- `POP_RX0` (`46_dispatcher.md` R244). -/
def execPopRx0 (s : State) : Res State := asCommand (popRx .ch0) s

/-- `POP_RX1` (`46_dispatcher.md` R244). -/
def execPopRx1 (s : State) : Res State := asCommand (popRx .ch1) s

/-- `CLR_FILTER` (`46_dispatcher.md` R246). -/
def execClrFilter (s : State) : Res State := asCommand (fun s => .next (filterClear s)) s

/-- `SET_FILTER` (`46_dispatcher.md` R247). -/
def execSetFilter (s : State) : Res State := asCommand (fun s => .next ((filterBegin s).setSess .filterLoad)) s

/-- `TX0` (`46_dispatcher.md` R249). -/
def execTx0 (s : State) : Res State := asCommand (fun s => .next (s.setSess (.txLen .ch0))) s

/-- `TX1` (`46_dispatcher.md` R249). -/
def execTx1 (s : State) : Res State := asCommand (fun s => .next (s.setSess (.txLen .ch1))) s

/-- `CMD_IGNORED v`: consumed and ignored in `SIdle` (`46_dispatcher.md` R253). -/
def execCmdIgnored (v : Byte) (s : State) : Res State :=
  match s.sess with
  | .idle => if isCommandByte v then .refused .notAnIgnoredByte else .next s
  | .filterLoad => .refused .sessionOpen
  | .popSend _ _ _ => .refused .sessionOpen
  | .txLen _ => .refused .sessionOpen
  | .txData _ _ _ => .refused .sessionOpen

/-- The step of a byte read as a command, by the table of `46_dispatcher.md` R241. -/
def commandStep (b : Byte) (s : State) : Res State :=
  if b = 0x01#8 then execGetSwitch s
  else if b = 0x02#8 then execGetPower s
  else if b = 0x03#8 then execPopRx0 s
  else if b = 0x04#8 then execPopRx1 s
  else if b = 0x05#8 then execClrFilter s
  else if b = 0x06#8 then execSetFilter s
  else if b = 0x07#8 then execTx0 s
  else if b = 0x08#8 then execTx1 s
  else execCmdIgnored b s

end Sys2Proof.Machine
end

