-- ==== Sys2Proof/Machine/Dispatcher.lean ====
section
/-! DEFINITION. One step of the command dispatcher (`46_dispatcher.md` R240). -/

namespace Sys2Proof.Machine

/-- The step in `SPopSend(c, idx, rem)`: one frame byte, and the frame released after the last (`46_dispatcher.md` R245). -/
def popSendStep (c : Chan) (idx rem : Nat) (s : State) : Res State :=
  (memRead (.data (.rxq c) (s.queue (.rxq c)).start idx) s).andThen fun b =>
  (pushOut b s).andThen fun s1 =>
  if rem = 1 then
    (qRelease (.rxq c) s1).andThen fun s2 => .next (s2.setSess .idle)
  else .next (s1.setSess (.popSend c (idx + 1) (rem - 1)))

/-- The step of a byte in `SFilterLoad`: a command byte ends the load and is executed, any other is staged (`46_dispatcher.md` R248). -/
def filterLoadStep (b : Byte) (s : State) : Res State :=
  if isCommandByte b then commandStep b s else .next (filterAppend b s)

/-- Completion of a TX frame: the CRC byte staged as the last, the frame committed or silently dropped, the session closed (`46_dispatcher.md` R252). -/
def txComplete (c : Chan) (len : Nat) (s : State) : Res State :=
  (readData (.txq c) (s.queue (.txq c)).stop (len - 1) s).andThen fun xs =>
  (qStage (.txq c) (len - 1) (crc8 xs) s).andThen fun s1 =>
  (qCommit (.txq c) len s1).andThen fun r =>
  .next (r.2.setSess .idle)

/-- The step of the length byte in `STxLen(c)` (`46_dispatcher.md` R250). -/
def txLenStep (c : Chan) (b : Byte) (s : State) : Res State :=
  if b.toNat = 0 ∨ 12 < b.toNat then .next (s.setSess .idle)
  else if b.toNat = 1 then txComplete c 1 s
  else .next (s.setSess (.txData c 0 b.toNat))

/-- The step of a payload byte in `STxData(c, idx, L)` (`46_dispatcher.md` R251). -/
def txDataStep (c : Chan) (idx len : Nat) (b : Byte) (s : State) : Res State :=
  (qStage (.txq c) idx b s).andThen fun s1 =>
  if idx + 1 = len - 1 then txComplete c len s1
  else .next (s1.setSess (.txData c (idx + 1) len))

/-- The next inbound byte, taken and given to the session's step; not enabled on an empty ring (`46_dispatcher.md` R240). -/
def takeInbound (use : Byte → State → Res State) (s : State) : Res State :=
  if ringEmpty .ringIn s then .refused .dispatchNotEnabled
  else (ringPop .ringIn s).andThen fun p => use p.1 p.2

/-- `DISPATCH`: the step that `sess` selects (`46_dispatcher.md` R240). -/
def execDispatch (s : State) : Res State :=
  match s.sess with
  | .popSend c idx rem => popSendStep c idx rem s
  | .idle => takeInbound commandStep s
  | .filterLoad => takeInbound filterLoadStep s
  | .txLen c => takeInbound (txLenStep c) s
  | .txData c idx len => takeInbound (txDataStep c idx len) s

end Sys2Proof.Machine
end

