-- ==== Sys2Proof/Machine/Environment.lean ====
section
/-! DEFINITION. The environment operations: `LINKTIMEOUT`, `SETINPUTS` (`60_exceptions.md` section 4), `RESET` (`70_reset_and_hazards.md` section 1). -/

namespace Sys2Proof.Machine

/-- `LINKTIMEOUT` (`60_exceptions.md` R290). -/
def execLinktimeout (s : State) : Res State := .next { s with linkActive := false }

/-- `SETINPUTS s, a, h` (`60_exceptions.md` R291). -/
def execSetinputs (sw : Byte) (acc hp : Bool) (s : State) : Res State :=
  .next { s with switchCode := sw, accRail := acc, hostPwrRail := hp }

/-- A channel after `RESET`, its unspecified registers given (`70_reset_and_hazards.md` R301). -/
def resetChannel (lastEdge sh ocr : Byte) : Channel :=
  { Channel.reset with lastEdge := lastEdge, sh := sh, ocr := ocr }

/-- The free values one `RESET` takes: nine bytes and two bits. -/
def resetFreeValues : Nat := 11

/-- `RESET` (`70_reset_and_hazards.md` R300, R301): every element at its reset value, and every element R301 leaves unspecified at a free value, taken from
index `freeCount` on (log 5). The configuration is unchanged (R301); the schedule is the environment's. -/
def execReset (s : State) : Res State :=
  let n := s.freeCount
  .next { State.reset with
    tcnt := Config.freeByte n
    ch0 := resetChannel (Config.freeByte (n + 1)) (Config.freeByte (n + 2)) (Config.freeByte (n + 3))
    ch1 := resetChannel (Config.freeByte (n + 4)) (Config.freeByte (n + 5)) (Config.freeByte (n + 6))
    sdr := Config.freeByte (n + 7)
    switchCode := Config.freeByte (n + 8)
    accRail := Config.freeBit (n + 9)
    hostPwrRail := Config.freeBit (n + 10)
    cfg := s.cfg
    sched := s.sched
    freeCount := n + resetFreeValues }

end Sys2Proof.Machine
end

