-- ==== Sys2Proof/Machine/FrameQueue.lean ====
section
/-! DEFINITION. The frame-queue primitives as operations (`41_frame_queue.md`); what one returns is held in `result` (log 9). -/

namespace Sys2Proof.Machine

/-- `Q_EMPTY q` (`41_frame_queue.md` R130). -/
def execQEmpty (q : QueueId) (s : State) : Res State := .next (s.setResult (.flag (queueEmpty q s)))

/-- `Q_FULL q` (`41_frame_queue.md` R131). -/
def execQFull (q : QueueId) (s : State) : Res State := .next (s.setResult (.flag (queueFull q s)))

/-- `Q_STAGE q, i, v` (`41_frame_queue.md` R133). -/
def execQStage (q : QueueId) (i : Nat) (v : Byte) (s : State) : Res State := qStage q i v s

/-- `Q_COMMIT q, n` (`41_frame_queue.md` R134): it returns accepted or rejected. -/
def execQCommit (q : QueueId) (n : Nat) (s : State) : Res State :=
  (qCommit q n s).andThen fun r => .next (r.2.setResult (.commit r.1))

/-- `Q_HEAD q` (`41_frame_queue.md` R135): it returns the oldest frame. -/
def execQHead (q : QueueId) (s : State) : Res State :=
  (qHead q s).andThen fun r => .next (s.setResult (.frame r.1 r.2))

/-- `Q_RELEASE q` (`41_frame_queue.md` R136). -/
def execQRelease (q : QueueId) (s : State) : Res State := qRelease q s

end Sys2Proof.Machine
end

