-- ==== Sys2Proof/Machine/HeaderFilter.lean ====
section
/-! DEFINITION. The header-filter primitives as operations (`42_header_filter.md`). -/

namespace Sys2Proof.Machine

/-- `FILTER_MATCH b` (`42_header_filter.md` R150). -/
def execFilterMatch (b : Byte) (s : State) : Res State := .next (s.setResult (.flag (filterMatches b s)))

/-- `FILTER_CLEAR` (`42_header_filter.md` R151). -/
def execFilterClear (s : State) : Res State := .next (filterClear s)

/-- `FILTER_BEGIN` (`42_header_filter.md` R152). -/
def execFilterBegin (s : State) : Res State := .next (filterBegin s)

/-- `FILTER_APPEND b` (`42_header_filter.md` R153). -/
def execFilterAppend (b : Byte) (s : State) : Res State := .next (filterAppend b s)

/-- `FILTER_COMMIT` (`42_header_filter.md` R154). -/
def execFilterCommit (s : State) : Res State := .next (filterCommit s)

end Sys2Proof.Machine
end

