-- ==== Sys2Proof/Machine/Receiver.lean ====
section
/-! DEFINITION. The receive arms of `EDGE` and `MATCH` (`43_vpw_receiver.md`). -/

namespace Sys2Proof.Machine

/-- `EDGE` in `Idle`: an edge to Active starts the SOF wait (`43_vpw_receiver.md` R161). -/
def edgeIdle (c : Chan) (lvl : Level) (s : State) : Res State :=
  if lvl = .active ∧ (s.ch c).rxEn = true then .next (s.setCh c { s.ch c with st := .sofWait })
  else .next s

/-- `EDGE` in `SofWait`: a Passive edge after a pulse of SOF width starts the reception and arms the end-of-data match; any other edge is a timing
fault (`43_vpw_receiver.md` R162; `60_exceptions.md` R271). -/
def edgeSofWait (c : Chan) (lvl : Level) (e : Nat) (s : State) : Res State :=
  if lvl = .passive ∧ s.cfg.timing.isSof e = true then
    armUnit c s.cfg.timing.rxEodMin (s.setCh c { s.ch c with st := .receiving, byteIdx := 0, bitIdx := 0 })
  else timingFault c s

/-- An accepted bit: append it, store the byte when it is the eighth, move the end-of-data deadline (`43_vpw_receiver.md` R165 to R167). -/
def appendBit (c : Chan) (bit : Bool) (s : State) : Res State :=
  let k := s.ch c
  let sh := shiftIn k.sh bit
  if k.bitIdx + 1 = 8 then
    (qStage (.rxq c) k.byteIdx sh (s.setCh c { k with sh := sh })).andThen fun s1 =>
    armUnit c s1.cfg.timing.rxEodMin (s1.setCh c { s1.ch c with byteIdx := k.byteIdx + 1, bitIdx := 0 })
  else
    armUnit c s.cfg.timing.rxEodMin (s.setCh c { k with sh := sh, bitIdx := k.bitIdx + 1 })

/-- `EDGE` in `Receiving`: classify the width, check the length, append the bit (`43_vpw_receiver.md` R163 to R169). -/
def edgeReceiving (c : Chan) (lvl : Level) (e : Nat) (s : State) : Res State :=
  match classify s.cfg.timing e with
  | none => timingFault c s
  | some w =>
    if (s.ch c).byteIdx = 12 then lengthFault c s
    else appendBit c (dataBit (otherLevel lvl) w) s

/-- The CRC check of a received frame of `n` bytes in the slot at `end`, passed without a look when `RX_CRC_CHECK` is off (`43_vpw_receiver.md` R173). -/
def rxCrcPasses (c : Chan) (n : Nat) (s : State) : Res Bool :=
  if s.cfg.rxCrcCheck then
    (readData (.rxq c) (s.ch c).rxq.stop (n - 1) s).andThen fun xs =>
    (memRead (.data (.rxq c) (s.ch c).rxq.stop (n - 1)) s).andThen fun last =>
    .next (crc8 xs == last)
  else .next true

/-- `MATCH` in `Receiving`: end of data. The channel is idle; a frame of at least one complete byte that passes the CRC check and the filter is
committed (`43_vpw_receiver.md` R171 to R175). -/
def matchReceiving (c : Chan) (s : State) : Res State :=
  let n := (s.ch c).byteIdx
  let s1 := s.setCh c { s.ch c with st := .idle }
  if n = 0 then .next s1
  else
    (rxCrcPasses c n s1).andThen fun ok =>
    if ok then
      (memRead (.data (.rxq c) (s1.ch c).rxq.stop 0) s1).andThen fun b =>
      if filterMatches b s1 then (qCommit (.rxq c) n s1).andThen fun r => .next r.2
      else .next s1
    else .next s1

end Sys2Proof.Machine
end

