-- ==== Sys2Proof/Machine/Transmitter.lean ====
section
/-! DEFINITION. The transmitter (`44_vpw_transmitter.md`): `HOUSEKEEP`, `SENDREQ`, and the transmit arms of `MATCH` and `EDGE`. -/

namespace Sys2Proof.Machine

/-- The writes of a send request (`44_vpw_transmitter.md` R191). -/
def startSend (c : Chan) (s : State) : Res State :=
  (armUnit c s.cfg.timing.txIfs (s.setCh c { s.ch c with drive := .passive, byteIdx := 0, bitIdx := 0 })).andThen fun s1 =>
  .next (s1.setCh c { s1.ch c with st := .txArmed })

/-- `SENDREQ c`: test and writes in one step (`44_vpw_transmitter.md` R191). -/
def execSendreq (c : Chan) (s : State) : Res State :=
  if sendreqEnabled c s then startSend c s else .refused .sendreqNotEnabled

/-- One channel of housekeeping: a send request if its TX queue holds a frame and it is idle (`44_vpw_transmitter.md` R190). -/
def housekeepChannel (c : Chan) (s : State) : Res State :=
  if sendreqEnabled c s then startSend c s else .next s

/-- `HOUSEKEEP`: channel 0, then channel 1 (`44_vpw_transmitter.md` R190). -/
def execHousekeep (s : State) : Res State :=
  (housekeepChannel .ch0 s).andThen fun s1 => housekeepChannel .ch1 s1

/-- `MATCH` in `TxArmed` and `TxWaitIfs`: on a busy bus wait another window (`44_vpw_transmitter.md` R193), else drive the SOF (R194). -/
def matchWaiting (c : Chan) (s : State) : Res State :=
  if (s.ch c).busIn ≠ .passive then
    armUnit c s.cfg.timing.txIfs (s.setCh c { s.ch c with st := .txWaitIfs })
  else
    (armUnit c s.cfg.timing.txSof (s.setCh c { s.ch c with drive := .active, rxEn := false })).andThen fun s1 =>
    .next (s1.setCh c { s1.ch c with st := .txSending })

/-- The next bit of the frame as a pulse on the level just driven, and the cursor moved (`44_vpw_transmitter.md` R195 to R197). -/
def sendBit (c : Chan) (s : State) : Res State :=
  let k := s.ch c
  (memRead (.data (.txq c) k.txq.start k.byteIdx) s).andThen fun b =>
  (armUnit c (txTicks s.cfg.timing (sendWidth k.drive (b.getLsbD (7 - k.bitIdx)))) s).andThen fun s1 =>
  if k.bitIdx + 1 = 8 then .next (s1.setCh c { s1.ch c with bitIdx := 0, byteIdx := k.byteIdx + 1 })
  else .next (s1.setCh c { s1.ch c with bitIdx := k.bitIdx + 1 })

/-- The frame exhausted: the bus and the frame released, the receive decoder enabled, the channel idle (`44_vpw_transmitter.md` R198). -/
def endSend (c : Chan) (s : State) : Res State :=
  (qRelease (.txq c) (s.setCh c { s.ch c with drive := .passive })).andThen fun s1 =>
  .next (s1.setCh c { s1.ch c with rxEn := true, st := .idle })

/-- `MATCH` in `TxSending`: the optional level sample (`44_vpw_transmitter.md` R202), then toggle and send a bit (R195) or end the frame (R198). -/
def matchSending (c : Chan) (s : State) : Res State :=
  if s.cfg.contentionSampleAtMatch = true ∧ (s.ch c).busIn ≠ (s.ch c).drive then contention c s
  else
    let s1 := s.setCh c { s.ch c with drive := otherLevel (s.ch c).drive }
    (readLen (.txq c) (s1.ch c).txq.start s1).andThen fun n =>
    if (s1.ch c).byteIdx < n then sendBit c s1 else endSend c s1

/-- `EDGE` in `TxSending`: an edge to a level the channel does not drive is contention (`44_vpw_transmitter.md` R199). -/
def edgeSending (c : Chan) (lvl : Level) (s : State) : Res State :=
  if lvl ≠ (s.ch c).drive then contention c s else .next s

end Sys2Proof.Machine
end

