-- ==== Sys2Proof/Machine/Channel.lean ====
section
/-! DEFINITION. The two interrupt operations of a channel, `EDGE` and `MATCH`: the common part of each and the arm that `st[c]` selects. -/

namespace Sys2Proof.Machine

/-- The common part of `EDGE`: the sensed level and the time stamp (`43_vpw_receiver.md` R160). -/
def stampEdge (c : Chan) (lvl : Level) (s : State) : State :=
  s.setCh c { s.ch c with busIn := lvl, lastEdge := s.tcnt }

/-- `EDGE c, lvl`: the common part, then the arm of `st[c]`; in `TxArmed` and `TxWaitIfs` the common part only
(`43_vpw_receiver.md` R160; `44_vpw_transmitter.md` R201). -/
def edgeOp (c : Chan) (lvl : Level) (s : State) : Res State :=
  if edgeEnabled c lvl s then
    match (s.ch c).st with
    | .idle => edgeIdle c lvl (stampEdge c lvl s)
    | .sofWait => edgeSofWait c lvl (elapsed s c) (stampEdge c lvl s)
    | .receiving => edgeReceiving c lvl (elapsed s c) (stampEdge c lvl s)
    | .txArmed => .next (stampEdge c lvl s)
    | .txWaitIfs => .next (stampEdge c lvl s)
    | .txSending => edgeSending c lvl (stampEdge c lvl s)
  else .refused .edgeNotEnabled

/-- `MATCH c`: the common part clears the pending and the enable bit, then the arm of `st[c]`; in `Idle` and `SofWait` the common part only
(`60_exceptions.md` R288; `44_vpw_transmitter.md` R204). -/
def matchOp (c : Chan) (s : State) : Res State :=
  if matchEnabled c s then
    match (s.ch c).st with
    | .idle => .next (disarmUnit c s)
    | .sofWait => .next (disarmUnit c s)
    | .receiving => matchReceiving c (disarmUnit c s)
    | .txArmed => matchWaiting c (disarmUnit c s)
    | .txWaitIfs => matchWaiting c (disarmUnit c s)
    | .txSending => matchSending c (disarmUnit c s)
  else .refused .matchNotEnabled

/-- `EDGE c, lvl` (`43_vpw_receiver.md` R160). -/
def execEdge (c : Chan) (lvl : Level) (s : State) : Res State := edgeOp c lvl s

/-- `MATCH c` (`60_exceptions.md` R288). -/
def execMatch (c : Chan) (s : State) : Res State := matchOp c s

end Sys2Proof.Machine
end

