-- ==== Sys2Proof/Machine/LineCode.lean ====
section
/-! DEFINITION. The line-code symbols (`30_encoding.md` R90 to R92) as events on a channel's wire: a symbol that an edge ends is that `EDGE`, of the
level and the width class the symbol's row gives; a silence is the `MATCH` that finds it. DESIGN CHOICE (log 11). -/

namespace Sys2Proof.Machine

/-- A pulse of level `lvl` whose width satisfies `cls` ends now on channel `c`: the edge to the other level; refused where the wire does not carry
that pulse (`30_encoding.md` R90; `43_vpw_receiver.md` R160). -/
def pulseEnds (c : Chan) (lvl : Level) (cls : Nat → Bool) (s : State) : Res State :=
  if (s.ch c).busIn = lvl ∧ cls (elapsed s c) = true then edgeOp c (otherLevel lvl) s else .refused .symbolAbsent

/-- `P_SHORT`: a Passive pulse of Short width, data bit 0 in `Receiving` (`30_encoding.md` R90, R91). -/
def execPShort (c : Chan) (s : State) : Res State := pulseEnds c .passive s.cfg.timing.isShort s

/-- `P_LONG`: a Passive pulse of Long width, data bit 1 in `Receiving` (`30_encoding.md` R90, R91). -/
def execPLong (c : Chan) (s : State) : Res State := pulseEnds c .passive s.cfg.timing.isLong s

/-- `A_SHORT`: an Active pulse of Short width, data bit 1 in `Receiving` (`30_encoding.md` R90, R91). -/
def execAShort (c : Chan) (s : State) : Res State := pulseEnds c .active s.cfg.timing.isShort s

/-- `A_LONG`: an Active pulse of Long width, data bit 0 in `Receiving` (`30_encoding.md` R90, R91). -/
def execALong (c : Chan) (s : State) : Res State := pulseEnds c .active s.cfg.timing.isLong s

/-- `SOF`: an Active pulse of SOF width (`30_encoding.md` R90); the receiver's action is that of `43_vpw_receiver.md` R162. -/
def execSof (c : Chan) (s : State) : Res State := pulseEnds c .active s.cfg.timing.isSof s

/-- `EOD`: the bus Passive past the end-of-data deadline (`30_encoding.md` R90; the deadline is the compare unit's, `70_reset_and_hazards.md` R313).
In `Receiving` it is the match of `43_vpw_receiver.md` R171; a channel that is not receiving has no action for it (R177). The length of the silence is never tested: in
`Receiving` the pending match stands for it, elsewhere any Passive bus answers the state unchanged, even just after an edge. DESIGN CHOICE (log 11). -/
def execEod (c : Chan) (s : State) : Res State :=
  if (s.ch c).busIn = .passive then
    match (s.ch c).st with
    | .receiving => matchOp c s
    | .idle => .next s
    | .sofWait => .next s
    | .txArmed => .next s
    | .txWaitIfs => .next s
    | .txSending => .next s
  else .refused .symbolAbsent

/-- `IFS`: the bus Passive at the end of an inter-frame window (`30_encoding.md` R90; only the level at the match is tested, `70_reset_and_hazards.md`
R314). In `TxArmed` and `TxWaitIfs` it is the match of `44_vpw_transmitter.md` R192; the other states have no action for it. The length of the silence is never tested: in
`TxArmed` and `TxWaitIfs` the pending match stands for it, elsewhere any Passive bus answers the state unchanged, even just after an edge. DESIGN CHOICE (log 11). -/
def execIfs (c : Chan) (s : State) : Res State :=
  if (s.ch c).busIn = .passive then
    match (s.ch c).st with
    | .txArmed => matchOp c s
    | .txWaitIfs => matchOp c s
    | .idle => .next s
    | .sofWait => .next s
    | .receiving => .next s
    | .txSending => .next s
  else .refused .symbolAbsent

end Sys2Proof.Machine
end

