-- ==== Sys2Proof/Machine/Timer.lean ====
section
/-! DEFINITION. The tick counter and the compare units (`60_exceptions.md` section 3): `TICK`, `ARM`, `DISARM`. -/

namespace Sys2Proof.Machine

/-- A compare unit at the new counter value: armed and equal, it becomes pending (`60_exceptions.md` R285). -/
def compareUnit (t : Byte) (k : Channel) : Channel :=
  if k.matchEn = true ∧ t = k.ocr then { k with matchPend := true } else k

/-- `tcnt` advances modulo 256 and both compare units look at its new value (`60_exceptions.md` R285). -/
def advanceTick (s : State) : State :=
  { s with tcnt := s.tcnt + 1#8, ch0 := compareUnit (s.tcnt + 1#8) s.ch0, ch1 := compareUnit (s.tcnt + 1#8) s.ch1 }

/-- `TICK` (`60_exceptions.md` R285), enabled when no match is pending (R289). -/
def execTick (s : State) : Res State :=
  if tickEnabled s then .next (advanceTick s) else .refused .tickNotEnabled

/-- `ARM c, w` (`60_exceptions.md` R286). -/
def execArm (c : Chan) (w : Nat) (s : State) : Res State := armUnit c w s

/-- `DISARM c` (`60_exceptions.md` R287). -/
def execDisarm (c : Chan) (s : State) : Res State := .next (disarmUnit c s)

end Sys2Proof.Machine
end

