-- ==== Sys2Proof/Machine/Transport.lean ====
section
/-! DEFINITION. The ring primitives as operations and the byte exchange (`45_transport_ring.md`). -/

namespace Sys2Proof.Machine

/-- `RING_PUSH_IN b` (`45_transport_ring.md` R221, R222). -/
def execRingPushIn (b : Byte) (s : State) : Res State := pushIn b s

/-- `RING_PUSH_OUT b` (`45_transport_ring.md` R223). -/
def execRingPushOut (b : Byte) (s : State) : Res State := pushOut b s

/-- `RING_POP r` (`45_transport_ring.md` R224): it returns the popped byte. -/
def execRingPop (r : RingId) (s : State) : Res State :=
  (ringPop r s).andThen fun p => .next (p.2.setResult (.byte p.1))

/-- The reload of `sdr` at the end of an exchange: the next byte of `ring_out` (R225), or on underflow its old value (R226). -/
def reloadSdr (s : State) : Res State :=
  if ringEmpty .ringOut s then .next (raiseFault .transportUnderflow s)
  else (ringPop .ringOut s).andThen fun p => .next { p.2 with sdr := p.1 }

/-- `XFER rx` (`45_transport_ring.md` R225 to R227): the byte `tx` that the host received in this exchange is the old `sdr`, held in `result`. -/
def execXfer (rx : Byte) (s : State) : Res State :=
  (pushIn rx { s with linkActive := true }).andThen fun s1 =>
  (reloadSdr s1).andThen fun s2 =>
  .next (s2.setResult (.byte s.sdr))

end Sys2Proof.Machine
end

