-- ==== Sys2Proof/Machine/Dispatch.lean ====
section
/-! DEFINITION. `exec`: the meaning of every operation, one arm for each constructor of `Instr`. -/

namespace Sys2Proof.Machine

def exec (i : Instr) (s : State) : Host.Outcome State Fault Refusal :=
  match i with
  | .tick => Sys2Proof.Machine.execTick s
  | .edge c lvl => Sys2Proof.Machine.execEdge c lvl s
  | .timerMatch c => Sys2Proof.Machine.execMatch c s
  | .xfer rx => Sys2Proof.Machine.execXfer rx s
  | .housekeep => Sys2Proof.Machine.execHousekeep s
  | .sendreq c => Sys2Proof.Machine.execSendreq c s
  | .dispatch => Sys2Proof.Machine.execDispatch s
  | .linktimeout => Sys2Proof.Machine.execLinktimeout s
  | .setinputs sw acc hp => Sys2Proof.Machine.execSetinputs sw acc hp s
  | .reset => Sys2Proof.Machine.execReset s
  | .getSwitch => Sys2Proof.Machine.execGetSwitch s
  | .getPower => Sys2Proof.Machine.execGetPower s
  | .popRx0 => Sys2Proof.Machine.execPopRx0 s
  | .popRx1 => Sys2Proof.Machine.execPopRx1 s
  | .clrFilter => Sys2Proof.Machine.execClrFilter s
  | .setFilter => Sys2Proof.Machine.execSetFilter s
  | .tx0 => Sys2Proof.Machine.execTx0 s
  | .tx1 => Sys2Proof.Machine.execTx1 s
  | .cmdIgnored v => Sys2Proof.Machine.execCmdIgnored v s
  | .pShort c => Sys2Proof.Machine.execPShort c s
  | .pLong c => Sys2Proof.Machine.execPLong c s
  | .eod c => Sys2Proof.Machine.execEod c s
  | .ifs c => Sys2Proof.Machine.execIfs c s
  | .aShort c => Sys2Proof.Machine.execAShort c s
  | .aLong c => Sys2Proof.Machine.execALong c s
  | .sof c => Sys2Proof.Machine.execSof c s
  | .crcInit => Sys2Proof.Machine.execCrcInit s
  | .crcBit crc b => Sys2Proof.Machine.execCrcBit crc b s
  | .crcByte crc x => Sys2Proof.Machine.execCrcByte crc x s
  | .crcFinal crc => Sys2Proof.Machine.execCrcFinal crc s
  | .crc8 bytes => Sys2Proof.Machine.execCrc8 bytes s
  | .qEmpty q => Sys2Proof.Machine.execQEmpty q s
  | .qFull q => Sys2Proof.Machine.execQFull q s
  | .qStage q k v => Sys2Proof.Machine.execQStage q k v s
  | .qCommit q n => Sys2Proof.Machine.execQCommit q n s
  | .qHead q => Sys2Proof.Machine.execQHead q s
  | .qRelease q => Sys2Proof.Machine.execQRelease q s
  | .filterMatch b => Sys2Proof.Machine.execFilterMatch b s
  | .filterClear => Sys2Proof.Machine.execFilterClear s
  | .filterBegin => Sys2Proof.Machine.execFilterBegin s
  | .filterAppend b => Sys2Proof.Machine.execFilterAppend b s
  | .filterCommit => Sys2Proof.Machine.execFilterCommit s
  | .ringPushIn b => Sys2Proof.Machine.execRingPushIn b s
  | .ringPushOut b => Sys2Proof.Machine.execRingPushOut b s
  | .ringPop r => Sys2Proof.Machine.execRingPop r s
  | .arm c w => Sys2Proof.Machine.execArm c w s
  | .disarm c => Sys2Proof.Machine.execDisarm c s

end Sys2Proof.Machine
end

