-- ==== Sys2Proof/Machine/Fetch.lean ====
section
/-! DEFINITION. Where the next operation comes from: the schedule (`10_state.md` R39 as data, log 1). -/

namespace Sys2Proof.Machine

/-- The next operation of the schedule and the state with its tag taken; none when nothing is scheduled. With an ill-formed configuration nothing is fetched: it is
refused (`00_scope.md` R8; I3 of `93_implementation_defined.md`). -/
def fetch (s : State) : Res (Option (Instr × State)) :=
  match s.sched with
  | [] => .next none
  | t :: rest =>
    if s.cfg.wf then
      match decodeOp (t :: rest) with
      | .ok (i, rest') => .next (some (i, { s with sched := rest' }))
      | .error e => .refused (.undecodable e)
    else .refused .illFormedConfig

/-- `s` with what makes an operation enabled, since one that is not enabled is never scheduled: no match pending for `TICK` (`60_exceptions.md` R289), the other level
on the bus for `EDGE` (`43_vpw_receiver.md` R160), a match pending for `MATCH` (R288), an idle channel with a frame for `SENDREQ` (`44_vpw_transmitter.md` R191), an
inbound byte for `DISPATCH` (`46_dispatcher.md` R240). The other operations are always enabled (log 14). -/
def enableOp (i : Instr) (s : State) : State :=
  match i with
  | .tick => { s with ch0 := { s.ch0 with matchPend := false }, ch1 := { s.ch1 with matchPend := false } }
  | .edge c lvl => s.setCh c { s.ch c with busIn := otherLevel lvl }
  | .timerMatch c => s.setCh c { s.ch c with matchPend := true }
  | .sendreq c =>
    let p := (s.ch c).txq
    s.setCh c { s.ch c with st := .idle, txq := if p.isEmpty then { p with stop := nextIndex s.cfg.txqSlots p.start } else p }
  | .dispatch =>
    if dispatchEnabled s then s
    else
      { s with
        mem := s.mem.write (cellKey (.ring .ringIn s.ringIn.start)) 0#8
        ringIn := { s.ringIn with stop := nextIndex s.cfg.ringInSize s.ringIn.start } }
  | _ => s

/-- `s` with one operation enabled and its tag before what is scheduled. -/
def scheduleFirst (i : Instr) (bytes : List Byte) (s : State) : State :=
  { enableOp i s with sched := bytes ++ s.sched }

/-- `s` with a command byte as the next one `DISPATCH` reads, an idle session, and `DISPATCH` scheduled next. -/
def commandFirst (b : Byte) (s : State) : State :=
  let p := s.ringIn
  { s with
    mem := s.mem.write (cellKey (.ring .ringIn p.start)) b
    ringIn := if p.isEmpty then { p with stop := nextIndex s.cfg.ringInSize p.start } else p
    sess := .idle
    sched := 0x60#8 :: s.sched }

/-- `s` with a pulse of level `lvl` and width `w` ending now on channel 0 in protocol state `st`, and the `EDGE` that ends it scheduled next. -/
def pulseFirst (lvl : Level) (w : Nat) (st : Proto) (tag : Byte) (s : State) : State :=
  { s with ch0 := { s.ch0 with busIn := lvl, lastEdge := s.tcnt - BitVec.ofNat 8 w, st := st }, sched := tag :: s.sched }

/-- `s` with a silence on channel 0's wire whose match is pending in protocol state `st`, and `MATCH` scheduled next. -/
def silenceFirst (st : Proto) (s : State) : State :=
  { s with ch0 := { s.ch0 with busIn := .passive, matchPend := true, st := st }, sched := 0x20#8 :: s.sched }

/-- `s` with the symbol of a label on channel 0's wire, in the protocol state that gives it its action, and the operation that takes it scheduled next
(log 14). -/
def symbolFirst (l : BitVec 3) (s : State) : State :=
  if l = 0b000#3 then pulseFirst .passive s.cfg.timing.rxShortMin .receiving 0x11#8 s
  else if l = 0b001#3 then pulseFirst .passive s.cfg.timing.rxLongMin .receiving 0x11#8 s
  else if l = 0b010#3 then silenceFirst .receiving s
  else if l = 0b011#3 then silenceFirst .txArmed s
  else if l = 0b100#3 then pulseFirst .active s.cfg.timing.rxShortMin .receiving 0x10#8 s
  else if l = 0b101#3 then pulseFirst .active s.cfg.timing.rxLongMin .receiving 0x10#8 s
  else if l = 0b110#3 then pulseFirst .active s.cfg.timing.rxSofMin .sofWait 0x10#8 s
  else s

/-- The word of a table row stored where the next step finds it: a tag at the head of the schedule, a command byte in `ring_in` with `DISPATCH` scheduled, a
symbol on channel 0's wire (log 14). -/
def placeTableWord (nbits w : Nat) (s : State) : State :=
  if nbits < 8 then symbolFirst (BitVec.ofNat 3 w) s
  else
    match decode (.tag (tagBytesOfTableWord nbits w)) with
    | .ok i => scheduleFirst i (tagBytesOfTableWord nbits w) s
    | .error _ =>
      if nbits = 8 then commandFirst (BitVec.ofNat 8 w) s
      else { s with sched := tagBytesOfTableWord nbits w ++ s.sched }

end Sys2Proof.Machine
end

