-- ==== Sys2Proof/Machine/Step.lean ====
section
/-! DEFINITION. One step of the block: the next operation of the schedule, executed (`00_scope.md` R13; log 1). -/

namespace Sys2Proof.Machine

/-- One step: the next operation of the schedule (`fetch`), executed whole and atomically (`00_scope.md` R13). When nothing is scheduled nothing happens: the
block waits, its state unchanged (log 1). -/
def step (s : State) : Host.Outcome State Fault Refusal :=
  (fetch s).andThen fun o =>
    match o with
    | none => .next s
    | some p => exec p.1 p.2

/-- `s` with the instruction of a table word where `step` fetches its next one (log 14). -/
def State.withFetchWord (s : State) (nbits w : Nat) : State := placeTableWord nbits w s

end Sys2Proof.Machine
end

