-- ==== Sys2Proof/Safety.lean ====
section
/-! DEFINITION. What a safe run is, in the terms the statements use: the invariants of `10_state.md` R40 with what the rules rely on beside them, which
operations the block performs and when they are enabled, what each operation may store, and the frames and bytes that the queues and rings hold. -/

namespace Sys2Proof.Machine

/-- The ten operations of the block (`00_scope.md` section 5), those with a tag (`30_encoding.md` R106). -/
def isOperation : Instr → Bool
  | .tick => true
  | .edge _ _ => true
  | .timerMatch _ => true
  | .xfer _ => true
  | .housekeep => true
  | .sendreq _ => true
  | .dispatch => true
  | .linktimeout => true
  | .setinputs _ _ _ => true
  | .reset => true
  | _ => false

/-- When an operation of the block is enabled (`43_vpw_receiver.md` R160, `44_vpw_transmitter.md` R191, `46_dispatcher.md` R240, `60_exceptions.md` R288, R289); the
others are always enabled. -/
def opEnabled (i : Instr) (s : State) : Bool :=
  match i with
  | .tick => tickEnabled s
  | .edge c lvl => edgeEnabled c lvl s
  | .timerMatch c => matchEnabled c s
  | .sendreq c => sendreqEnabled c s
  | .dispatch => dispatchEnabled s
  | _ => true

/-- The storage cells an operation may store to, computed in the state it starts from; none for a push or a commit that a full buffer drops. -/
def storedCells (i : Instr) (s : State) : List CellId :=
  let rxByte (c : Chan) : List CellId := [.data (.rxq c) (s.queue (.rxq c)).stop (s.ch c).byteIdx]
  let len (q : QueueId) : List CellId := if queueFull q s then [] else [.len q (s.queue q).stop]
  let command : List CellId :=
    match s.cfg.inboundPolicy with
    | .dropOldest => [.ring .ringIn s.ringIn.stop]
    | .dropNewest => if ringFull .ringIn s then [] else [.ring .ringIn s.ringIn.stop]
  let response : List CellId := if ringFull .ringOut s then [] else [.ring .ringOut s.ringOut.stop]
  match i with
  | .edge c _ => rxByte c
  | .timerMatch c => len (.rxq c)
  | .xfer _ => command
  | .dispatch =>
    match s.sess with
    | .idle => response
    | .filterLoad => response
    | .popSend _ _ _ => response
    | .txLen c => .data (.txq c) (s.queue (.txq c)).stop 0 :: len (.txq c)
    | .txData c idx n =>
      .data (.txq c) (s.queue (.txq c)).stop idx :: .data (.txq c) (s.queue (.txq c)).stop (n - 1) :: len (.txq c)
  | .getSwitch => response
  | .getPower => response
  | .popRx0 => response
  | .popRx1 => response
  | .pShort c => rxByte c
  | .pLong c => rxByte c
  | .aShort c => rxByte c
  | .aLong c => rxByte c
  | .sof c => rxByte c
  | .eod c => len (.rxq c)
  | .qStage q i _ => [.data q (s.queue q).stop i]
  | .qCommit q _ => len q
  | .ringPushIn _ => command
  | .ringPushOut _ => response
  | _ => []

/-- The cell has been written since reset. -/
def written (x : CellId) (s : State) : Prop := (cellValue x s).isSome = true

/-- The slots or cells from `start` up to `end`, around the end of the buffer: the buffered ones (`41_frame_queue.md` R132; `45_transport_ring.md` R220). -/
def Ptrs.holds (p : Ptrs) (k : Nat) : Prop :=
  (p.start ≤ p.stop ∧ p.start ≤ k ∧ k < p.stop) ∨ (p.stop < p.start ∧ (p.start ≤ k ∨ k < p.stop))

/-- The slot holds a frame: a length in 1..12 and that many bytes written (`10_state.md` R29, R40(f)). -/
def frameOk (q : QueueId) (k : Nat) (s : State) : Prop :=
  ∃ v, cellValue (.len q k) s = some v ∧ 1 ≤ v.toNat ∧ v.toNat ≤ 12 ∧ ∀ i, i < v.toNat → written (.data q k i) s

/-- A frame queue: pointers below its size (`10_state.md` R40(g)), every buffered slot a frame (R40(f)). -/
structure QueueInv (q : QueueId) (s : State) : Prop where
  start_lt : (s.queue q).start < queueSize s.cfg q
  stop_lt : (s.queue q).stop < queueSize s.cfg q
  frames : ∀ k, k < queueSize s.cfg q → (s.queue q).holds k → frameOk q k s

/-- A transport ring: pointers below its size (`10_state.md` R40(g)), every buffered cell written (`20_memory.md` R61). -/
structure RingInv (r : RingId) (s : State) : Prop where
  start_lt : (s.ring r).start < ringSize s.cfg r
  stop_lt : (s.ring r).stop < ringSize s.cfg r
  cells : ∀ k, k < ringSize s.cfg r → (s.ring r).holds k → written (.ring r k) s

/-- A channel (`10_state.md` R40(a) to (f)), its cursor in range (R23), and the complete bytes of a reception staged (`43_vpw_receiver.md` R166). -/
structure ChannelInv (c : Chan) (s : State) : Prop where
  /-- R40(a). -/
  rxEn_iff : (s.ch c).rxEn = false ↔ (s.ch c).st = .txSending
  /-- R40(b). -/
  disarmed : (s.ch c).st = .idle ∨ (s.ch c).st = .sofWait → (s.ch c).matchEn = false ∧ (s.ch c).matchPend = false
  /-- R40(c). -/
  armed : (s.ch c).st = .receiving ∨ (s.ch c).st = .txArmed ∨ (s.ch c).st = .txWaitIfs ∨ (s.ch c).st = .txSending →
    (s.ch c).matchEn = true ∨ (s.ch c).matchPend = true
  /-- R40(d). -/
  released : (s.ch c).st ≠ .txSending → (s.ch c).drive = .passive
  /-- R40(e). -/
  frameHeld : (s.ch c).st = .txArmed ∨ (s.ch c).st = .txWaitIfs ∨ (s.ch c).st = .txSending → queueEmpty (.txq c) s = false
  /-- R40(f), R23. -/
  byteIdx_le : (s.ch c).byteIdx ≤ 12
  /-- R23. -/
  bitIdx_le : (s.ch c).bitIdx ≤ 7
  /-- R166. -/
  staged : (s.ch c).st = .receiving → ∀ i, i < (s.ch c).byteIdx → written (.data (.rxq c) (s.queue (.rxq c)).stop i) s

/-- The command session (`10_state.md` R36): a frame being popped is at the head and its remaining bytes are counted; a frame being taken in has a legal
length and its bytes so far are staged. -/
def SessionInv (s : State) : Prop :=
  match s.sess with
  | .idle => True
  | .filterLoad => True
  | .txLen _ => True
  | .popSend c idx rem =>
    1 ≤ rem ∧ queueEmpty (.rxq c) s = false ∧
    ∃ v, cellValue (.len (.rxq c) (s.queue (.rxq c)).start) s = some v ∧ v.toNat = idx + rem
  | .txData c idx len =>
    2 ≤ len ∧ len ≤ 12 ∧ idx + 1 < len ∧ ∀ i, i < idx → written (.data (.txq c) (s.queue (.txq c)).stop i) s

/-- The invariant of the block: `10_state.md` R40, and what the rules rely on beside it. -/
structure BlockInv (s : State) : Prop where
  cfg : s.cfg.wf = true
  mem : s.mem.wf
  channels : ∀ c, ChannelInv c s
  queues : ∀ q, QueueInv q s
  rings : ∀ r, RingInv r s
  active_le : s.filtActive.length ≤ s.cfg.filterMax
  stage_le : s.filtStage.length ≤ s.cfg.filterMax
  session : SessionInv s
  xferMode : s.xferMode = .idleEcho

/-- The bytes of a slot as far as its length says, none where the slot holds no frame. -/
def slotFrame (q : QueueId) (k : Nat) (s : State) : Option (List Byte) :=
  match cellValue (.len q k) s with
  | none => none
  | some v => (List.range v.toNat).mapM (fun i => cellValue (.data q k i) s)

/-- The buffered frames of a queue, oldest first (`41_frame_queue.md` R132). -/
def queueFrames (q : QueueId) (s : State) : List (Option (List Byte)) :=
  (List.range (queueCount q s)).map fun j => slotFrame q ((s.queue q).nth (queueSize s.cfg q) j) s

/-- The buffered bytes of a ring, oldest first (`45_transport_ring.md` R220). -/
def ringBytes (r : RingId) (s : State) : List (Option Byte) :=
  (List.range (ringCount r s)).map fun j => cellValue (.ring r ((s.ring r).nth (ringSize s.cfg r) j)) s

end Sys2Proof.Machine
end

