-- ==== Sys2Proof/Certificates/Slice0/Obligations.lean ====
section
/-! DEFINITION. The statements for the provers. The words they use beside the model's own: several operations in a row, the symbol of a level and a width, the
pulses of a frame on the wire, and the writes of a send request. -/

namespace Sys2Proof.Machine

/-- Several operations, one after another. -/
def runOps : List Instr → State → Res State
  | [], s => .next s
  | i :: rest, s => Res.andThen (exec i s) (runOps rest)

/-- The data symbol of a level and a width class (`30_encoding.md` R90). -/
def dataSymbol (c : Chan) : Level → PulseWidth → Instr
  | .passive, .short => .pShort c
  | .passive, .long => .pLong c
  | .active, .short => .aShort c
  | .active, .long => .aLong c

/-- `POP_RX` of a channel (`46_dispatcher.md` R244). -/
def popRxOf : Chan → Instr
  | .ch0 => .popRx0
  | .ch1 => .popRx1

/-- `TX` of a channel (`46_dispatcher.md` R249). -/
def txOf : Chan → Instr
  | .ch0 => .tx0
  | .ch1 => .tx1

/-- The eight commands of the command table (`30_encoding.md` R98). -/
def commands : List Instr := [.getSwitch, .getPower, .popRx0, .popRx1, .clrFilter, .setFilter, .tx0, .tx1]

/-- `s` with the oldest inbound byte taken (`45_transport_ring.md` R224). -/
def takenIn (s : State) : State := { s with ringIn := { s.ringIn with start := (s.ringIn.start + 1) % s.cfg.ringInSize } }

/-- The width of a pulse is of the class (`00_scope.md` R7). -/
def ofClass (t : Timing) (w : PulseWidth) (e : Nat) : Prop :=
  (w = .short ∧ t.rxShortMin ≤ e ∧ e < t.rxLongMin) ∨ (w = .long ∧ t.rxLongMin ≤ e ∧ e < t.rxLongMax)

/-- The slot holds these bytes from its first cell on. -/
def slotHolds (q : QueueId) (k : Nat) (xs : List Byte) (s : State) : Prop :=
  ∀ i, i < xs.length → cellValue (.data q k i) s = xs[i]?

/-- The inbound bytes after a push (`45_transport_ring.md` R221, R222). -/
def pushedIn (b : Byte) (s : State) : List (Option Byte) :=
  if (s.ringIn.stop + 1) % s.cfg.ringInSize = s.ringIn.start then
    match s.cfg.inboundPolicy with
    | .dropOldest => (ringBytes .ringIn s).tail ++ [some b]
    | .dropNewest => ringBytes .ringIn s
  else ringBytes .ringIn s ++ [some b]

/-- The outbound bytes after a push (`45_transport_ring.md` R223). -/
def pushedOut (b : Byte) (s : State) : List (Option Byte) :=
  if (s.ringOut.stop + 1) % s.cfg.ringOutSize = s.ringOut.start then ringBytes .ringOut s
  else ringBytes .ringOut s ++ [some b]

/-- The block after a byte was pushed into `ring_in` (`45_transport_ring.md` R221, R222): on a full ring the oldest byte is evicted, or nothing changes. -/
def afterPushIn (b : Byte) (s : State) : State :=
  if (s.ringIn.stop + 1) % s.cfg.ringInSize = s.ringIn.start then
    match s.cfg.inboundPolicy with
    | .dropOldest =>
      { s with
        mem := s.mem.write (cellKey (.ring .ringIn s.ringIn.stop)) b
        ringIn := { start := (s.ringIn.start + 1) % s.cfg.ringInSize, stop := (s.ringIn.stop + 1) % s.cfg.ringInSize }
        raised := .transportOverflow .ringIn :: s.raised }
    | .dropNewest => { s with raised := .transportOverflow .ringIn :: s.raised }
  else
    { s with
      mem := s.mem.write (cellKey (.ring .ringIn s.ringIn.stop)) b
      ringIn := { s.ringIn with stop := (s.ringIn.stop + 1) % s.cfg.ringInSize } }

/-- The block after a byte was pushed into `ring_out` (`45_transport_ring.md` R223): on a full ring nothing changes. -/
def afterPushOut (b : Byte) (s : State) : State :=
  if (s.ringOut.stop + 1) % s.cfg.ringOutSize = s.ringOut.start then { s with raised := .transportOverflow .ringOut :: s.raised }
  else
    { s with
      mem := s.mem.write (cellKey (.ring .ringOut s.ringOut.stop)) b
      ringOut := { s.ringOut with stop := (s.ringOut.stop + 1) % s.cfg.ringOutSize } }

/-- A frame queue that takes a frame: unchanged when full, else the frame behind the others (`41_frame_queue.md` R134, R137). -/
def withFrame (q : QueueId) (xs : List Byte) (s : State) : List (Option (List Byte)) :=
  if ((s.queue q).stop + 1) % queueSize s.cfg q = (s.queue q).start then queueFrames q s
  else queueFrames q s ++ [some xs]

/-- A channel after housekeeping looked at it: an idle one with a frame to send has the writes of a send request (`44_vpw_transmitter.md` R190, R191). -/
def afterHousekeeping (s : State) (k : Channel) : Channel :=
  if k.st = .idle ∧ k.txq.start ≠ k.txq.stop then
    { k with
      drive := .passive, byteIdx := 0, bitIdx := 0, st := .txArmed
      ocr := BitVec.ofNat 8 (s.tcnt.toNat + s.cfg.timing.txIfs), matchEn := true, matchPend := false }
  else k

/-- A channel after a contention abort (`44_vpw_transmitter.md` R200). -/
def afterContention (s : State) (k : Channel) : Channel :=
  { k with
    drive := .passive, matchEn := false, matchPend := false, rxEn := true, st := .idle
    txq := { k.txq with start := (k.txq.start + 1) % s.cfg.txqSlots } }

/-- The bits of a frame in wire order: byte 0 first, bit 7 first (`20_memory.md` R63). -/
def wireBits (xs : List Byte) : List Bool := xs.flatMap fun b => (List.range 8).map fun k => b.getLsbD (7 - k)

/-- The register after bit `b`, by the four cases of `40_crc.md` R121: the bit and the top bit of the register before the shift. -/
def crcCase (crc : Byte) : Bool → Bool → Byte
  | true, true => ((crc <<< 1) ||| 0x01#8) ^^^ 0x01#8
  | true, false => ((crc <<< 1) ||| 0x01#8) ^^^ 0x1C#8
  | false, true => (crc <<< 1) ^^^ 0x1D#8
  | false, false => (crc <<< 1) ^^^ 0x00#8

/-- One step of the byte-wise form of the CRC: shift, and take the polynomial out if the top bit was set (`40_crc.md` R126). -/
def crcShift (crc : Byte) : Byte := if crc.getLsbD 7 then (crc <<< 1) ^^^ 0x1D#8 else crc <<< 1

/-- Bits as pulses of alternating levels, each with its transmit width in ticks (`30_encoding.md` R92, R93). -/
def linePulses (t : Timing) : Level → List Bool → List (Level × Nat)
  | _, [] => []
  | lvl, b :: bs => (lvl, txTicks t (sendWidth lvl b)) :: linePulses t (otherLevel lvl) bs

/-- The pulses as channel `c` receives them: each lasts its width in ticks and ends with the edge to the other level. -/
def receivePulses (c : Chan) : List (Level × Nat) → State → Res State
  | [], s => .next s
  | p :: ps, s =>
    Res.andThen (exec (.edge c (otherLevel p.1)) { s with tcnt := s.tcnt + BitVec.ofNat 8 p.2 }) (receivePulses c ps)

/-- The operations of pulses on channel `c`'s wire: for each its ticks, then the edge that ends it. -/
def pulseOps (c : Chan) (ps : List (Level × Nat)) : List Instr :=
  ps.flatMap fun p => List.replicate p.2 .tick ++ [.edge c (otherLevel p.1)]

/-- The operations of a frame on channel `c`'s wire up to its last edge: the edge to Active, the SOF, the pulses of its bits (`44_vpw_transmitter.md` R203). -/
def frameOps (c : Chan) (t : Timing) (xs : List Byte) : List Instr :=
  .edge c .active :: pulseOps c ((.active, t.txSof) :: linePulses t .passive (wireBits xs))

/-- The operations of the silence that ends a frame: the ticks of the end-of-data deadline, then its match (`43_vpw_receiver.md` R167, R171). -/
def silenceOps (c : Chan) (t : Timing) : List Instr := List.replicate t.rxEodMin .tick ++ [.timerMatch c]

/-- The receiver drops a frame of these bytes: it is empty, fails the enabled CRC check, or is rejected by the filter (`43_vpw_receiver.md` R172 to R174). -/
def frameDropped (s : State) (xs : List Byte) : Prop :=
  xs = [] ∨ (s.cfg.rxCrcCheck = true ∧ xs.getLast? ≠ some (crc8 xs.dropLast)) ∨
    (s.filtActive ≠ [] ∧ ∀ b ∈ s.filtActive, xs.head? ≠ some b)

/-- The counter has reached channel `c`'s deadline: the match is pending. With `echo` the bus has followed the driven level (`44_vpw_transmitter.md` R202). -/
def atDeadline (c : Chan) (echo : Bool) (s : State) : State :=
  ({ s with tcnt := (s.ch c).ocr } : State).setCh c
    { s.ch c with matchPend := true, busIn := if echo then (s.ch c).drive else (s.ch c).busIn }

/-- The pulses that the next `n` matches of channel `c` drive, each taken at its deadline: the level driven and the ticks to the next deadline; and the state
after them. -/
def sentPulses (c : Chan) (echo : Bool) : Nat → State → Res (List (Level × Nat) × State)
  | 0, s => .next ([], s)
  | n + 1, s =>
    Res.andThen (exec (.timerMatch c) (atDeadline c echo s)) fun t =>
    Res.andThen (sentPulses c echo n t) fun r =>
    .next ((((t.ch c).drive, ((t.ch c).ocr - t.tcnt).toNat)) :: r.1, r.2)

end Sys2Proof.Machine

open Sys2Proof Sys2Proof.Machine

/-! ### Encoding and step -/

/-- Words written from the tag patterns, the command table and the symbol labels of `30_encoding.md` R98 and R106, and what they decode to. -/
def Obligations.DecodesTheSpecsWords : Prop :=
  decode (.tag [0x00#8]) = .ok .tick ∧
  decode (.tag [0x13#8]) = .ok (.edge .ch1 .active) ∧
  decode (.tag [0x20#8]) = .ok (.timerMatch .ch0) ∧
  decode (.tag [0x30#8, 0x8D#8]) = .ok (.xfer 0x8D#8) ∧
  decode (.tag [0x60#8]) = .ok .dispatch ∧
  decode (.tag [0x81#8, 0x5A#8]) = .ok (.setinputs 0x5A#8 true false) ∧
  decode (.command 0x06#8) = .ok .setFilter ∧
  decode (.command 0x09#8) = .ok (.cmdIgnored 0x09#8) ∧
  decode (.label .ch1 0b101#3) = .ok (.aLong .ch1) ∧
  decode (.tag [0x14#8]) = .error (.unknownTag 0x14#8) ∧
  decode (.label .ch0 0b111#3) = .error (.noSuchLabel 0b111#3)

/-- Decoding the code of a well-formed instruction gives the instruction back, for every instruction that has a code and every operand
(`30_encoding.md` R98, R103, R106). -/
def Obligations.DecodeOfEncodeIsTheInstruction : Prop :=
  ∀ (i : Instr) (code : Code), i.wf = true → encode i = some code → decode code = .ok i

/-- A code that decodes is the code of what it decodes to, which is well formed: every operation has one code (`30_encoding.md` R98, R103, R106). -/
def Obligations.EncodeOfDecodeIsTheCode : Prop :=
  ∀ (i : Instr) (code : Code), decode code = .ok i → encode i = some code ∧ i.wf = true

/-- A step runs the operation at the head of the schedule, on the state with its tag taken; with nothing scheduled nothing happens; bytes that are no tag are
refused (log 1; `00_scope.md` R13). -/
def Obligations.StepRunsTheNextOperation : Prop :=
  ∀ s : State, s.cfg.wf = true →
    (∀ i rest, decodeOp s.sched = .ok (i, rest) → step s = exec i { s with sched := rest }) ∧
    (s.sched = [] → step s = .next s) ∧
    (∀ e, s.sched ≠ [] → decodeOp s.sched = .error e → step s = .refused (.undecodable e))

/-! ### Invariants, safety and frames of the whole machine -/

/-- The invariant of the block holds after reset (`10_state.md` R40, `70_reset_and_hazards.md` R301). -/
def Obligations.ResetMeetsTheInvariant : Prop := BlockInv State.reset

/-- Every step keeps the invariant of the block (`10_state.md` R40). -/
def Obligations.StepKeepsTheInvariant : Prop :=
  ∀ s t : State, BlockInv s → step s = .next t → BlockInv t

/-- No step faults: no operation reads a cell never written or an index out of its array (`20_memory.md` R61, R72). -/
def Obligations.StepNeverFaults : Prop :=
  ∀ (s : State) (f : Fault), BlockInv s → step s ≠ .fault f

/-- Every enabled operation of the block completes (`70_reset_and_hazards.md` R326: every operation is total on every reachable state). -/
def Obligations.EnabledOperationsComplete : Prop :=
  ∀ (s : State) (i : Instr), BlockInv s → isOperation i = true → opEnabled i s = true → ∃ t, exec i s = .next t

/-- Every operation, primitives included, keeps the storage in its canonical form (log 6). -/
def Obligations.StorageStaysCanonical : Prop :=
  ∀ (i : Instr) (s t : State), s.mem.wf → exec i s = .next t → t.mem.wf

/-- An operation changes no storage cell but those it stores to (`20_memory.md` R61, R67); `RESET`, which leaves every cell unwritten, apart. -/
def Obligations.StoresOnlyItsOwnCells : Prop :=
  ∀ (i : Instr) (s t : State) (x : CellId), i ≠ .reset → cellExists s.cfg x = true → x ∉ storedCells i s →
    exec i s = .next t → cellValue x t = cellValue x s

/-- There is one copy of every cell: a cell reads as last written, and a write leaves every other cell as it was (`20_memory.md` R61). -/
def Obligations.CellsReadAsLastWritten : Prop :=
  ∀ (x y : CellId) (v : Byte) (s : State), cellExists s.cfg x = true → cellExists s.cfg y = true →
    ∃ t, memWrite x v s = .next t ∧ memRead x t = .next v ∧ (y ≠ x → cellValue y t = cellValue y s)

/-- No operation but `TICK` writes the tick counter; after `RESET` it is unspecified (`10_state.md` R20). -/
def Obligations.OnlyTickMovesTheCounter : Prop :=
  ∀ (i : Instr) (s t : State), i ≠ .tick → i ≠ .reset → exec i s = .next t → t.tcnt = s.tcnt

/-- `EDGE`, `MATCH` and `SENDREQ` of one channel neither read nor write the other channel's registers and pointers, and write nothing of the rest of the state but
storage and the ghost log (`00_scope.md` R2, `60_exceptions.md` R292). -/
def Obligations.ChannelsAreIndependent : Prop :=
  ∀ (c d : Chan) (lvl : Level) (i : Instr) (s : State) (k : Channel), d ≠ c →
    (i = .edge c lvl ∨ i = .timerMatch c ∨ i = .sendreq c) →
    exec i (s.setCh d k) = Res.andThen (exec i s) (fun t => .next (t.setCh d k)) ∧
    ∀ t, exec i s = .next t → t = ({ s with mem := t.mem, raised := t.raised } : State).setCh c (t.ch c)

/-- Each pointer has the one writer of the ownership table (`20_memory.md` R67), the eviction of `ring_in` apart: the interrupt operations of a channel leave
`rxq.start` and `txq.end`, the dispatcher leaves `rxq.end`, `txq.start`, `ring_in.end` and `ring_out.start`, the exchange leaves `ring_out.end` and every queue
pointer, and, but for an eviction, `ring_in.start`. -/
def Obligations.PointersHaveOneWriter : Prop :=
  ∀ (c : Chan) (s t : State),
    ((∃ lvl, exec (.edge c lvl) s = .next t) ∨ exec (.timerMatch c) s = .next t →
      (t.ch c).rxq.start = (s.ch c).rxq.start ∧ (t.ch c).txq.stop = (s.ch c).txq.stop ∧ t.ringIn = s.ringIn ∧ t.ringOut = s.ringOut ∧
      t.filtActive = s.filtActive ∧ t.filtStage = s.filtStage) ∧
    (exec .dispatch s = .next t →
      (t.ch c).rxq.stop = (s.ch c).rxq.stop ∧ (t.ch c).txq.start = (s.ch c).txq.start ∧
      t.ringIn.stop = s.ringIn.stop ∧ t.ringOut.start = s.ringOut.start) ∧
    (∀ rx, exec (.xfer rx) s = .next t →
      (t.ch c).rxq = (s.ch c).rxq ∧ (t.ch c).txq = (s.ch c).txq ∧ t.ringOut.stop = s.ringOut.stop ∧
      t.filtActive = s.filtActive ∧ t.filtStage = s.filtStage ∧
      (ringFull .ringIn s = false ∨ s.cfg.inboundPolicy = .dropNewest → t.ringIn.start = s.ringIn.start))

/-- The complete transition relation of `st[c]` (`44_vpw_transmitter.md` R206): an operation of the block that changes it makes one of the listed moves. -/
def Obligations.ProtocolMovesAreTheListedOnes : Prop :=
  ∀ (c : Chan) (i : Instr) (s t : State), isOperation i = true → exec i s = .next t → (t.ch c).st ≠ (s.ch c).st →
    (i = .reset ∧ (t.ch c).st = .idle) ∨
    ((i = .housekeep ∨ i = .sendreq c) ∧ (s.ch c).st = .idle ∧ queueEmpty (.txq c) s = false ∧ (t.ch c).st = .txArmed) ∨
    (∃ lvl, i = .edge c lvl ∧
      (((s.ch c).st = .idle ∧ lvl = .active ∧ (s.ch c).rxEn = true ∧ (t.ch c).st = .sofWait) ∨
       ((s.ch c).st = .sofWait ∧ lvl = .passive ∧ s.cfg.timing.isSof (elapsed s c) = true ∧ (t.ch c).st = .receiving) ∨
       ((s.ch c).st = .sofWait ∧ ¬ (lvl = .passive ∧ s.cfg.timing.isSof (elapsed s c) = true) ∧ (t.ch c).st = .idle) ∨
       ((s.ch c).st = .receiving ∧ (classify s.cfg.timing (elapsed s c) = none ∨ (s.ch c).byteIdx = 12) ∧ (t.ch c).st = .idle) ∨
       ((s.ch c).st = .txSending ∧ lvl ≠ (s.ch c).drive ∧ (t.ch c).st = .idle))) ∨
    (i = .timerMatch c ∧
      (((s.ch c).st = .receiving ∧ (t.ch c).st = .idle) ∨
       ((s.ch c).st = .txArmed ∧ (s.ch c).busIn = .active ∧ (t.ch c).st = .txWaitIfs) ∨
       (((s.ch c).st = .txArmed ∨ (s.ch c).st = .txWaitIfs) ∧ (s.ch c).busIn = .passive ∧ (t.ch c).st = .txSending) ∨
       ((s.ch c).st = .txSending ∧ (t.ch c).st = .idle ∧
        ((s.cfg.contentionSampleAtMatch = true ∧ (s.ch c).busIn ≠ (s.ch c).drive) ∨
         ∃ v, cellValue (.len (.txq c) (s.ch c).txq.start) s = some v ∧ v.toNat ≤ (s.ch c).byteIdx))))

/-- An operation that is not enabled is refused by name, and so is a command byte in a session that takes payload: nothing happens
(`43_vpw_receiver.md` R160, `44_vpw_transmitter.md` R191, `46_dispatcher.md` R240, `60_exceptions.md` R288, R289, `30_encoding.md` R98). -/
def Obligations.DisabledOperationsAreRefused : Prop :=
  ∀ (c : Chan) (s : State),
    (s.ch0.matchPend = true ∨ s.ch1.matchPend = true → exec .tick s = .refused .tickNotEnabled) ∧
    exec (.edge c (s.ch c).busIn) s = .refused .edgeNotEnabled ∧
    ((s.ch c).matchPend = false → exec (.timerMatch c) s = .refused .matchNotEnabled) ∧
    ((s.ch c).st ≠ .idle ∨ (s.ch c).txq.start = (s.ch c).txq.stop → exec (.sendreq c) s = .refused .sendreqNotEnabled) ∧
    ((∀ d idx rem, s.sess ≠ .popSend d idx rem) → s.ringIn.start = s.ringIn.stop → exec .dispatch s = .refused .dispatchNotEnabled) ∧
    (∀ i ∈ commands, s.sess ≠ .idle → s.sess ≠ .filterLoad → exec i s = .refused .sessionOpen)

/-! ### The timer -/

/-- `TICK` (`60_exceptions.md` R285): the counter advances modulo 256 and each armed unit whose value it reaches becomes pending. -/
def Obligations.TickAdvancesAndCompares : Prop :=
  ∀ s : State, s.ch0.matchPend = false → s.ch1.matchPend = false →
    exec .tick s = .next { s with
      tcnt := BitVec.ofNat 8 (s.tcnt.toNat + 1)
      ch0 := { s.ch0 with matchPend := s.ch0.matchEn && decide (BitVec.ofNat 8 (s.tcnt.toNat + 1) = s.ch0.ocr) }
      ch1 := { s.ch1 with matchPend := s.ch1.matchEn && decide (BitVec.ofNat 8 (s.tcnt.toNat + 1) = s.ch1.ocr) } }

/-- `ARM c, w` and `DISARM c` (`60_exceptions.md` R286, R287); a width outside 1..255 is refused. -/
def Obligations.ArmAndDisarmSetTheUnit : Prop :=
  ∀ (c : Chan) (w : Nat) (s : State),
    (1 ≤ w → w ≤ 255 → exec (.arm c w) s =
      .next (s.setCh c { s.ch c with ocr := BitVec.ofNat 8 (s.tcnt.toNat + w), matchEn := true, matchPend := false })) ∧
    (w = 0 ∨ 255 < w → exec (.arm c w) s = .refused .armWidth) ∧
    exec (.disarm c) s = .next (s.setCh c { s.ch c with matchEn := false, matchPend := false })

/-- The match falls due at the `w`-th `TICK` after `ARM c, w`, not before (`60_exceptions.md` R286), the other unit being disarmed. -/
def Obligations.MatchFallsDueAtTheArmedTick : Prop :=
  ∀ (c d : Chan) (w : Nat) (s : State), d ≠ c → (s.ch d).matchEn = false → (s.ch d).matchPend = false → 1 ≤ w → w ≤ 255 →
    (∀ n, n < w → ∃ u, runOps (.arm c w :: List.replicate n .tick) s = .next u ∧ (u.ch c).matchPend = false) ∧
    ∃ u, runOps (.arm c w :: List.replicate w .tick) s = .next u ∧ (u.ch c).matchPend = true

/-! ### The receiver -/

/-- `EDGE` in `Idle` (`43_vpw_receiver.md` R160, R161): level and time stamp, and the SOF wait on an edge to Active. -/
def Obligations.EdgeInIdleStartsTheSofWait : Prop :=
  ∀ (c : Chan) (lvl : Level) (s : State), (s.ch c).busIn ≠ lvl → (s.ch c).st = .idle →
    exec (.edge c lvl) s = .next (s.setCh c { s.ch c with
      busIn := lvl, lastEdge := s.tcnt
      st := if lvl = .active ∧ (s.ch c).rxEn = true then .sofWait else .idle })

/-- `EDGE` in `SofWait` (`43_vpw_receiver.md` R162): a Passive edge after a pulse of SOF width starts the reception with a fresh cursor and arms the end-of-data match;
any other edge is a timing fault and returns to `Idle`. -/
def Obligations.EdgeInSofWaitQualifiesTheSof : Prop :=
  ∀ (c : Chan) (lvl : Level) (s : State), s.cfg.wf = true → (s.ch c).busIn ≠ lvl → (s.ch c).st = .sofWait →
    (lvl = .passive ∧ s.cfg.timing.rxSofMin ≤ elapsed s c ∧ elapsed s c < s.cfg.timing.rxSofMax →
      exec (.edge c lvl) s = .next (s.setCh c { s.ch c with
        busIn := lvl, lastEdge := s.tcnt, st := .receiving, byteIdx := 0, bitIdx := 0
        ocr := BitVec.ofNat 8 (s.tcnt.toNat + s.cfg.timing.rxEodMin), matchEn := true, matchPend := false })) ∧
    (¬ (lvl = .passive ∧ s.cfg.timing.rxSofMin ≤ elapsed s c ∧ elapsed s c < s.cfg.timing.rxSofMax) →
      exec (.edge c lvl) s = .next ({ s with raised := .timingFault c :: s.raised }.setCh c { s.ch c with
        busIn := lvl, lastEdge := s.tcnt, st := .idle, matchEn := false, matchPend := false }))

/-- A data pulse in `Receiving` that is not the eighth of its byte, as the `EDGE` that ends it (`43_vpw_receiver.md` R163 to R167) or as its symbol (the model's choice,
log 11): its bit is shifted in, the bit cursor advances, the end-of-data match is armed. -/
def Obligations.EdgeInReceivingAppendsABit : Prop :=
  ∀ (c : Chan) (lvl : Level) (w : PulseWidth) (i : Instr) (s : State), s.cfg.wf = true →
    (s.ch c).busIn ≠ lvl → (s.ch c).st = .receiving → ofClass s.cfg.timing w (elapsed s c) →
    (s.ch c).byteIdx ≠ 12 → (s.ch c).bitIdx < 7 → (i = .edge c lvl ∨ i = dataSymbol c (s.ch c).busIn w) →
    exec i s = .next (s.setCh c { s.ch c with
      busIn := lvl, lastEdge := s.tcnt
      sh := ((s.ch c).sh <<< 1) ||| (if ((s.ch c).busIn = .passive ↔ w = .long) then 1#8 else 0#8)
      bitIdx := (s.ch c).bitIdx + 1
      ocr := BitVec.ofNat 8 (s.tcnt.toNat + s.cfg.timing.rxEodMin), matchEn := true, matchPend := false })

/-- The eighth data pulse of a byte, as the `EDGE` that ends it (`43_vpw_receiver.md` R163 to R167) or as its symbol (the model's choice, log 11): the byte is staged in the
slot at `end`, the byte cursor advances. -/
def Obligations.EighthBitStoresTheByte : Prop :=
  ∀ (c : Chan) (lvl : Level) (w : PulseWidth) (i : Instr) (s : State), s.cfg.wf = true →
    (s.ch c).busIn ≠ lvl → (s.ch c).st = .receiving → ofClass s.cfg.timing w (elapsed s c) →
    (s.ch c).byteIdx < 12 → (s.ch c).bitIdx = 7 → (s.ch c).rxq.stop < s.cfg.rxqSlots →
    (i = .edge c lvl ∨ i = dataSymbol c (s.ch c).busIn w) →
    ∃ sh, sh = ((s.ch c).sh <<< 1) ||| (if ((s.ch c).busIn = .passive ↔ w = .long) then 1#8 else 0#8) ∧
      exec i s = .next ((s.setMem (s.mem.write (cellKey (.data (.rxq c) (s.ch c).rxq.stop (s.ch c).byteIdx)) sh)).setCh c { s.ch c with
        busIn := lvl, lastEdge := s.tcnt, sh := sh
        byteIdx := (s.ch c).byteIdx + 1, bitIdx := 0
        ocr := BitVec.ofNat 8 (s.tcnt.toNat + s.cfg.timing.rxEodMin), matchEn := true, matchPend := false })

/-- The two aborts of a reception (`43_vpw_receiver.md` R163, R169, R170): a width of neither class is a timing fault, a bit of a 13th byte a length fault; the
channel is idle and disarmed, the cursor and the storage stay. -/
def Obligations.EdgeInReceivingAborts : Prop :=
  ∀ (c : Chan) (lvl : Level) (s : State), (s.ch c).busIn ≠ lvl → (s.ch c).st = .receiving →
    ((∀ w, ¬ ofClass s.cfg.timing w (elapsed s c)) →
      exec (.edge c lvl) s = .next ({ s with raised := .timingFault c :: s.raised }.setCh c { s.ch c with
          busIn := lvl, lastEdge := s.tcnt, st := .idle, matchEn := false, matchPend := false })) ∧
    (∀ w, ofClass s.cfg.timing w (elapsed s c) → (s.ch c).byteIdx = 12 →
      exec (.edge c lvl) s = .next ({ s with raised := .lengthFault c :: s.raised }.setCh c { s.ch c with
          busIn := lvl, lastEdge := s.tcnt, st := .idle, matchEn := false, matchPend := false }))

/-- `MATCH` in `Receiving` (`43_vpw_receiver.md` R171 to R175), and the symbol `EOD` (the model's choice, log 11): the channel is idle and disarmed; the frame of the complete bytes is
committed, unless it is empty, fails the enabled CRC check, is rejected by the filter, or finds the queue full. -/
def Obligations.EndOfDataFinalisesTheFrame : Prop :=
  ∀ (c : Chan) (i : Instr) (s : State) (xs : List Byte),
    (i = .timerMatch c ∨ (i = .eod c ∧ (s.ch c).busIn = .passive)) →
    (s.ch c).matchPend = true → (s.ch c).st = .receiving → xs.length = (s.ch c).byteIdx → xs.length ≤ 12 →
    (s.ch c).rxq.stop < s.cfg.rxqSlots → slotHolds (.rxq c) (s.ch c).rxq.stop xs s →
    ∃ k d, k = { s.ch c with st := .idle, matchEn := false, matchPend := false } ∧ d = s.setCh c k ∧
      exec i s = .next
        (if xs = [] ∨ (s.cfg.rxCrcCheck = true ∧ xs.getLast? ≠ some (crc8 xs.dropLast)) ∨
            (s.filtActive ≠ [] ∧ ∀ b ∈ s.filtActive, xs.head? ≠ some b) then d
        else if ((s.ch c).rxq.stop + 1) % s.cfg.rxqSlots = (s.ch c).rxq.start then
          { d with raised := .queueOverflow (.rxq c) :: s.raised }
        else
          (d.setMem (s.mem.write (cellKey (.len (.rxq c) (s.ch c).rxq.stop)) (BitVec.ofNat 8 xs.length))).setCh c
            { k with rxq := { k.rxq with stop := (k.rxq.stop + 1) % s.cfg.rxqSlots } })

/-- The round trip of the line code (E2; `00_scope.md` R8): a frame of up to 12 bytes sent at the transmit widths of `44_vpw_transmitter.md` R203 is received. From an
idle channel, the other unit disarmed, the edges of the frame with the ticks between them stage its bytes, no deadline falling due among them; the ticks of the
end-of-data deadline and its match leave the channel idle and the frame behind those buffered, unless the receiver drops it. And from any channel that has accepted
the SOF, the counter moved by each width, the pulses of the bits stage the bytes. -/
def Obligations.ReceiverDecodesThePulseTrain : Prop :=
  ∀ (c : Chan) (xs : List Byte) (s : State), s.cfg.wf = true → xs.length ≤ 12 →
    (∀ d, d ≠ c → (∀ q, QueueInv q s) → (s.ch d).matchEn = false → (s.ch d).matchPend = false →
      (s.ch c).st = .idle → (s.ch c).busIn = .passive → (s.ch c).rxEn = true → (s.ch c).matchEn = false → (s.ch c).matchPend = false →
      ∃ u t, runOps (frameOps c s.cfg.timing xs) s = .next u ∧
        (u.ch c).st = .receiving ∧ (u.ch c).byteIdx = xs.length ∧ (u.ch c).bitIdx = 0 ∧ (u.ch c).rxq = (s.ch c).rxq ∧
        slotHolds (.rxq c) (s.ch c).rxq.stop xs u ∧
        runOps (silenceOps c s.cfg.timing) u = .next t ∧ (t.ch c).st = .idle ∧
        (frameDropped s xs → queueFrames (.rxq c) t = queueFrames (.rxq c) s) ∧
        (¬ frameDropped s xs → queueFrames (.rxq c) t = withFrame (.rxq c) xs s)) ∧
    ((s.ch c).rxq.stop < s.cfg.rxqSlots → (s.ch c).st = .receiving → (s.ch c).byteIdx = 0 → (s.ch c).bitIdx = 0 →
      (s.ch c).busIn = .passive → (s.ch c).lastEdge = s.tcnt →
      ∃ t, receivePulses c (linePulses s.cfg.timing .passive (wireBits xs)) s = .next t ∧
        (t.ch c).st = .receiving ∧ (t.ch c).byteIdx = xs.length ∧ (t.ch c).bitIdx = 0 ∧ (t.ch c).rxq = (s.ch c).rxq ∧
        slotHolds (.rxq c) (s.ch c).rxq.stop xs t)

/-! ### The transmitter -/

/-- `EDGE` in `TxArmed` and `TxWaitIfs`: level and time stamp only (`44_vpw_transmitter.md` R201). -/
def Obligations.EdgeWhileWaitingIsStampedOnly : Prop :=
  ∀ (c : Chan) (lvl : Level) (s : State), (s.ch c).busIn ≠ lvl → ((s.ch c).st = .txArmed ∨ (s.ch c).st = .txWaitIfs) →
    exec (.edge c lvl) s = .next (s.setCh c { s.ch c with busIn := lvl, lastEdge := s.tcnt })

/-- Contention (`44_vpw_transmitter.md` R199, R200, R202): in `TxSending` an edge to the driven level is stamped and ignored; an edge to the other level, or with the level
sample enabled a match that finds the bus at another level, releases the bus and the frame and returns to `Idle`. -/
def Obligations.ContentionAbortsTheTransmission : Prop :=
  ∀ (c : Chan) (lvl : Level) (s : State), (s.ch c).st = .txSending → (s.ch c).txq.start ≠ (s.ch c).txq.stop →
    ((s.ch c).busIn ≠ lvl → lvl = (s.ch c).drive →
      exec (.edge c lvl) s = .next (s.setCh c { s.ch c with busIn := lvl, lastEdge := s.tcnt })) ∧
    ((s.ch c).busIn ≠ lvl → lvl ≠ (s.ch c).drive →
      exec (.edge c lvl) s = .next ({ s with raised := .contention c :: s.raised }.setCh c
        (afterContention s { s.ch c with busIn := lvl, lastEdge := s.tcnt }))) ∧
    ((s.ch c).matchPend = true → s.cfg.contentionSampleAtMatch = true → (s.ch c).busIn ≠ (s.ch c).drive →
      exec (.timerMatch c) s = .next ({ s with raised := .contention c :: s.raised }.setCh c (afterContention s (s.ch c))))

/-- `SENDREQ c` (`44_vpw_transmitter.md` R191). -/
def Obligations.SendRequestArmsTheIfsWait : Prop :=
  ∀ (c : Chan) (s : State), s.cfg.wf = true → (s.ch c).st = .idle → (s.ch c).txq.start ≠ (s.ch c).txq.stop →
    exec (.sendreq c) s = .next (s.setCh c { s.ch c with
      drive := .passive, byteIdx := 0, bitIdx := 0, st := .txArmed
      ocr := BitVec.ofNat 8 (s.tcnt.toNat + s.cfg.timing.txIfs), matchEn := true, matchPend := false })

/-- `HOUSEKEEP` (`44_vpw_transmitter.md` R190): a send request on each channel that is idle and has a frame to send, nothing else. -/
def Obligations.HousekeepingRequestsOnIdleChannels : Prop :=
  ∀ s : State, s.cfg.wf = true →
    exec .housekeep s = .next { s with ch0 := afterHousekeeping s s.ch0, ch1 := afterHousekeeping s s.ch1 }

/-- `MATCH` in `TxArmed` and `TxWaitIfs` (`44_vpw_transmitter.md` R192 to R194): on an Active bus another window, on a Passive one the SOF. -/
def Obligations.MatchWhileWaitingTestsTheBus : Prop :=
  ∀ (c : Chan) (s : State), s.cfg.wf = true → (s.ch c).matchPend = true → ((s.ch c).st = .txArmed ∨ (s.ch c).st = .txWaitIfs) →
    exec (.timerMatch c) s = .next (s.setCh c
      (if (s.ch c).busIn = .active then
        { s.ch c with
          st := .txWaitIfs
          ocr := BitVec.ofNat 8 (s.tcnt.toNat + s.cfg.timing.txIfs), matchEn := true, matchPend := false }
      else
        { s.ch c with
          st := .txSending, drive := .active, rxEn := false
          ocr := BitVec.ofNat 8 (s.tcnt.toNat + s.cfg.timing.txSof), matchEn := true, matchPend := false }))

/-- `MATCH` in `TxSending` with bits left (`44_vpw_transmitter.md` R195 to R197): the level toggles, the next match is armed at the width of the next bit on the new
level, the cursor advances. -/
def Obligations.MatchInSendingDrivesTheNextBit : Prop :=
  ∀ (c : Chan) (s : State) (n b : Byte) (lvl : Level), s.cfg.wf = true →
    (s.ch c).matchPend = true → (s.ch c).st = .txSending →
    ¬ (s.cfg.contentionSampleAtMatch = true ∧ (s.ch c).busIn ≠ (s.ch c).drive) →
    (s.ch c).txq.start < s.cfg.txqSlots → cellValue (.len (.txq c) (s.ch c).txq.start) s = some n →
    (s.ch c).byteIdx < n.toNat → (s.ch c).byteIdx < 12 → (s.ch c).bitIdx ≤ 7 →
    cellValue (.data (.txq c) (s.ch c).txq.start (s.ch c).byteIdx) s = some b → lvl ≠ (s.ch c).drive →
    exec (.timerMatch c) s = .next (s.setCh c { s.ch c with
      drive := lvl
      ocr := BitVec.ofNat 8 (s.tcnt.toNat +
        (if (lvl = .active ↔ b.getLsbD (7 - (s.ch c).bitIdx) = true) then s.cfg.timing.txShort else s.cfg.timing.txLong))
      matchEn := true, matchPend := false
      bitIdx := if (s.ch c).bitIdx = 7 then 0 else (s.ch c).bitIdx + 1
      byteIdx := if (s.ch c).bitIdx = 7 then (s.ch c).byteIdx + 1 else (s.ch c).byteIdx })

/-- `MATCH` in `TxSending` with the frame exhausted (`44_vpw_transmitter.md` R198): the bus and the frame are released, the channel is idle and disarmed. -/
def Obligations.MatchInSendingEndsTheFrame : Prop :=
  ∀ (c : Chan) (s : State) (n : Byte), (s.ch c).matchPend = true → (s.ch c).st = .txSending →
    ¬ (s.cfg.contentionSampleAtMatch = true ∧ (s.ch c).busIn ≠ (s.ch c).drive) →
    (s.ch c).txq.start < s.cfg.txqSlots → (s.ch c).txq.start ≠ (s.ch c).txq.stop →
    cellValue (.len (.txq c) (s.ch c).txq.start) s = some n → n.toNat ≤ (s.ch c).byteIdx →
    exec (.timerMatch c) s = .next (s.setCh c { s.ch c with
      drive := .passive, matchEn := false, matchPend := false, rxEn := true, st := .idle
      txq := { (s.ch c).txq with start := ((s.ch c).txq.start + 1) % s.cfg.txqSlots } })

/-- `MATCH` in `Idle` and `SofWait` clears the compare bits and does nothing else (`44_vpw_transmitter.md` R204). -/
def Obligations.StrayMatchOnlyClearsTheUnit : Prop :=
  ∀ (c : Chan) (s : State), (s.ch c).matchPend = true → ((s.ch c).st = .idle ∨ (s.ch c).st = .sofWait) →
    exec (.timerMatch c) s = .next (s.setCh c { s.ch c with matchEn := false, matchPend := false })

/-- The pulse train of a frame (`44_vpw_transmitter.md` R198, R203): after the SOF, `8·len` matches drive the bits of the frame in wire order at the transmit widths,
from a Passive pulse on, and the match after them releases the frame and leaves the channel idle. With the level sample (R202) the bus follows the driven level
before each match; without it the bus may be at any level. -/
def Obligations.TransmitterSendsThePulseTrain : Prop :=
  ∀ (c : Chan) (echo : Bool) (xs : List Byte) (s : State), s.cfg.wf = true → (echo = true ∨ s.cfg.contentionSampleAtMatch = false) →
    (s.ch c).st = .txSending → (s.ch c).drive = .active → (s.ch c).byteIdx = 0 → (s.ch c).bitIdx = 0 →
    1 ≤ xs.length → xs.length ≤ 12 → (s.ch c).txq.start < s.cfg.txqSlots → (s.ch c).txq.start ≠ (s.ch c).txq.stop →
    cellValue (.len (.txq c) (s.ch c).txq.start) s = some (BitVec.ofNat 8 xs.length) → slotHolds (.txq c) (s.ch c).txq.start xs s →
    ∃ t u, sentPulses c echo (8 * xs.length) s = .next (linePulses s.cfg.timing .passive (wireBits xs), t) ∧
      exec (.timerMatch c) (atDeadline c echo t) = .next u ∧
      (u.ch c).st = .idle ∧ (u.ch c).drive = .passive ∧ (u.ch c).txq.start = ((s.ch c).txq.start + 1) % s.cfg.txqSlots

/-! ### The line-code symbols -/

/-- A data symbol is the `EDGE` that ends its pulse, and it is refused on a wire that does not carry it. The meaning of a symbol is the model's choice (log 11). -/
def Obligations.DataSymbolsAreTheEdgesThatEndThem : Prop :=
  ∀ (c : Chan) (lvl : Level) (w : PulseWidth) (s : State),
    ((s.ch c).busIn = lvl → ofClass s.cfg.timing w (elapsed s c) → exec (dataSymbol c lvl w) s = exec (.edge c (otherLevel lvl)) s) ∧
    ((s.ch c).busIn ≠ lvl ∨ ¬ ofClass s.cfg.timing w (elapsed s c) → exec (dataSymbol c lvl w) s = .refused .symbolAbsent)

/-- The symbols of the frame's boundaries. `SOF` is the `EDGE` to Passive that ends it, whatever the protocol state, and starts the reception in `SofWait`; it is refused on
a Passive bus and at a width that is not the SOF's. A Passive `IFS` whose match is pending starts the transmission; `EOD` and `IFS` with an action but no pending match
are refused as the `MATCH` they are; of a channel that has no action for them they leave the state as it is, however short the silence; on an Active bus both are refused. (`EOD` in `Receiving` is
in `EndOfDataFinalisesTheFrame`.) The meaning of a symbol is the model's choice (log 11). -/
def Obligations.BoundarySymbolsAreTheEventsOfTheWire : Prop :=
  ∀ (c : Chan) (s : State), s.cfg.wf = true →
    ((s.ch c).busIn = .active → s.cfg.timing.rxSofMin ≤ elapsed s c → elapsed s c < s.cfg.timing.rxSofMax →
      exec (.sof c) s = exec (.edge c .passive) s) ∧
    ((s.ch c).busIn = .active → (s.ch c).st = .sofWait → s.cfg.timing.rxSofMin ≤ elapsed s c → elapsed s c < s.cfg.timing.rxSofMax →
      exec (.sof c) s = .next (s.setCh c { s.ch c with
        busIn := .passive, lastEdge := s.tcnt, st := .receiving, byteIdx := 0, bitIdx := 0
        ocr := BitVec.ofNat 8 (s.tcnt.toNat + s.cfg.timing.rxEodMin), matchEn := true, matchPend := false })) ∧
    ((s.ch c).busIn = .passive ∨ elapsed s c < s.cfg.timing.rxSofMin ∨ s.cfg.timing.rxSofMax ≤ elapsed s c →
      exec (.sof c) s = .refused .symbolAbsent) ∧
    ((s.ch c).busIn = .passive → (s.ch c).matchPend = true → ((s.ch c).st = .txArmed ∨ (s.ch c).st = .txWaitIfs) →
      exec (.ifs c) s = .next (s.setCh c { s.ch c with
        st := .txSending, drive := .active, rxEn := false
        ocr := BitVec.ofNat 8 (s.tcnt.toNat + s.cfg.timing.txSof), matchEn := true, matchPend := false })) ∧
    ((s.ch c).busIn = .passive → (s.ch c).matchPend = false → (s.ch c).st = .receiving → exec (.eod c) s = .refused .matchNotEnabled) ∧
    ((s.ch c).busIn = .passive → (s.ch c).matchPend = false → ((s.ch c).st = .txArmed ∨ (s.ch c).st = .txWaitIfs) →
      exec (.ifs c) s = .refused .matchNotEnabled) ∧
    ((s.ch c).busIn = .passive → (s.ch c).st ≠ .receiving → exec (.eod c) s = .next s) ∧
    ((s.ch c).busIn = .passive → (s.ch c).st ≠ .txArmed → (s.ch c).st ≠ .txWaitIfs → exec (.ifs c) s = .next s) ∧
    ((s.ch c).busIn = .active → exec (.eod c) s = .refused .symbolAbsent ∧ exec (.ifs c) s = .refused .symbolAbsent)

/-! ### The CRC engine -/

/-- The CRC primitives (`40_crc.md` R120 to R124): the register at the start, the four cases of a bit, eight bits of a byte with bit 7 first, the complement, and `CRC8`
of any byte sequence as their composition. They change nothing but the returned value. -/
def Obligations.CrcPrimitivesReturnTheRegister : Prop :=
  ∀ (crc x : Byte) (b : Bool) (bytes : List Byte) (s : State),
    exec .crcInit s = .next { s with result := .byte 0xFF#8 } ∧
    exec (.crcBit crc b) s = .next { s with result := .byte (crcCase crc b (crc.getLsbD 7)) } ∧
    exec (.crcByte crc x) s = .next { s with result := .byte ((wireBits [x]).foldl (fun r b => crcCase r b (r.getLsbD 7)) crc) } ∧
    exec (.crcFinal crc) s = .next { s with result := .byte (~~~crc) } ∧
    exec (.crc8 bytes) s = .next { s with result := .byte (~~~ ((wireBits bytes).foldl (fun r b => crcCase r b (r.getLsbD 7)) 0xFF#8)) }

/-- The bit-serial CRC is the byte-wise form `crc ← crc ^ x` and eight shifts, and a frame with its correct CRC byte has the constant residue
(`40_crc.md` R126). -/
def Obligations.CrcIsByteWiseAndHasAResidue : Prop :=
  (∀ crc x : Byte, crcByteStep crc x = crcShift^[8] (crc ^^^ x)) ∧
  ∀ data : List Byte, crcRegister (data ++ [crc8 data]) = 0xC4#8 ∧ crc8 (data ++ [crc8 data]) = 0x3B#8

/-! ### The frame queues -/

/-- `Q_EMPTY` and `Q_FULL` (`41_frame_queue.md` R130, R131) are pure reads of the pointers. -/
def Obligations.QueuePredicatesReadThePointers : Prop :=
  ∀ (q : QueueId) (s : State),
    exec (.qEmpty q) s = .next { s with result := .flag (decide ((s.queue q).start = (s.queue q).stop)) } ∧
    exec (.qFull q) s = .next { s with result := .flag (decide (((s.queue q).stop + 1) % queueSize s.cfg q = (s.queue q).start)) }

/-- `Q_STAGE q, i, v` (`41_frame_queue.md` R133): it writes byte `i` of the slot at `end` and nothing else, and no buffered frame of any queue changes. -/
def Obligations.StagingIsInvisible : Prop :=
  ∀ (q : QueueId) (i : Nat) (v : Byte) (s : State), (∀ r, QueueInv r s) → i ≤ 11 →
    ∃ t, exec (.qStage q i v) s = .next t ∧
      t = s.setMem (s.mem.write (cellKey (.data q (s.queue q).stop i)) v) ∧
      cellValue (.data q (s.queue q).stop i) t = some v ∧
      ∀ r, queueFrames r t = queueFrames r s

/-- `Q_COMMIT q, n` (`41_frame_queue.md` R134, R137): the staged frame goes behind the buffered ones and the length and `end` are all that changes; on a full queue the
commit is rejected, nothing changes but the ghost log. No other queue changes. -/
def Obligations.CommitAppendsTheFrameOrDropsIt : Prop :=
  ∀ (q : QueueId) (s : State) (xs : List Byte), (∀ r, QueueInv r s) → 1 ≤ xs.length → xs.length ≤ 12 → 2 ≤ queueSize s.cfg q →
    slotHolds q (s.queue q).stop xs s →
    ∃ t, exec (.qCommit q xs.length) s = .next t ∧ queueFrames q t = withFrame q xs s ∧
      (∀ r, r ≠ q → queueFrames r t = queueFrames r s) ∧
      (if ((s.queue q).stop + 1) % queueSize s.cfg q = (s.queue q).start then
        t = { s with raised := .queueOverflow q :: s.raised, result := .commit false }
      else
        t = ({ s with mem := s.mem.write (cellKey (.len q (s.queue q).stop)) (BitVec.ofNat 8 xs.length), result := .commit true } : State).setQueue q
          { s.queue q with stop := ((s.queue q).stop + 1) % queueSize s.cfg q })

/-- `Q_HEAD q` and `Q_RELEASE q` (`41_frame_queue.md` R135 to R137): the head is the oldest frame, returned and left; the release takes it and no other. On an empty
queue both are refused. -/
def Obligations.HeadAndReleaseServeTheOldestFrame : Prop :=
  ∀ (q : QueueId) (s : State), (∀ r, QueueInv r s) →
    (queueEmpty q s = true → exec (.qHead q) s = .refused .emptyQueue ∧ exec (.qRelease q) s = .refused .emptyQueue) ∧
    (queueEmpty q s = false →
      (∃ xs, (queueFrames q s).head? = some (some xs) ∧ exec (.qHead q) s = .next { s with result := .frame xs.length xs }) ∧
      ∃ t, exec (.qRelease q) s = .next t ∧ queueFrames q t = (queueFrames q s).tail ∧ (∀ r, r ≠ q → queueFrames r t = queueFrames r s) ∧
        t = s.setQueue q { s.queue q with start := ((s.queue q).start + 1) % queueSize s.cfg q })

/-- A queue of `N` slots holds at most `N − 1` frames, a ring of `M` cells at most `M − 1` bytes (`41_frame_queue.md` R138, `45_transport_ring.md` R220); it is empty
exactly when it holds none, full exactly when it holds that many. -/
def Obligations.CapacityIsOneLessThanTheSize : Prop :=
  ∀ (n : Nat) (p : Ptrs), 2 ≤ n → p.start < n → p.stop < n →
    p.count n ≤ n - 1 ∧ (p.isEmpty = true ↔ p.count n = 0) ∧ (p.isFull n = true ↔ p.count n = n - 1)

/-! ### The header filter -/

/-- The filter primitives (`42_header_filter.md` R150 to R154). -/
def Obligations.FilterPrimitivesDoAsStated : Prop :=
  ∀ (b : Byte) (s : State),
    exec (.filterMatch b) s = .next { s with result := .flag (decide (s.filtActive.length = 0 ∨ ∃ k, ∃ h : k < s.filtActive.length, s.filtActive[k] = b)) } ∧
    exec .filterClear s = .next { s with filtActive := [], filtStage := [] } ∧
    exec .filterBegin s = .next { s with filtStage := [] } ∧
    exec (.filterAppend b) s = .next { s with filtStage := if s.filtStage.length < s.cfg.filterMax then s.filtStage ++ [b] else s.filtStage } ∧
    exec .filterCommit s = .next { s with filtActive := s.filtStage }

/-! ### The transport rings and the exchange -/

/-- `RING_PUSH_IN b` under both policies (`45_transport_ring.md` R221, R222): the byte goes behind the buffered ones and `end` advances; on a full ring the oldest byte is
evicted by advancing `start`, or the new one is dropped and nothing changes but the ghost log. Nothing else changes. -/
def Obligations.InboundPushFollowsThePolicy : Prop :=
  ∀ (b : Byte) (s : State), s.cfg.wf = true → RingInv .ringIn s →
    ∃ t, exec (.ringPushIn b) s = .next t ∧ t = afterPushIn b s ∧ ringBytes .ringIn t = pushedIn b s ∧
      ∀ x, cellExists s.cfg x = true → x ≠ .ring .ringIn s.ringIn.stop → cellValue x t = cellValue x s

/-- `RING_PUSH_OUT b` (`45_transport_ring.md` R223): the byte goes behind the buffered ones and `end` advances; on a full ring it is dropped and nothing changes but the
ghost log. Nothing else changes. -/
def Obligations.OutboundPushDropsTheNewestWhenFull : Prop :=
  ∀ (b : Byte) (s : State), s.cfg.wf = true → RingInv .ringOut s →
    ∃ t, exec (.ringPushOut b) s = .next t ∧ t = afterPushOut b s ∧ ringBytes .ringOut t = pushedOut b s ∧
      ∀ x, cellExists s.cfg x = true → x ≠ .ring .ringOut s.ringOut.stop → cellValue x t = cellValue x s

/-- `RING_POP r` (`45_transport_ring.md` R224): the oldest byte is returned and leaves the ring, nothing else changes; on an empty ring it is refused. -/
def Obligations.PopServesTheOldestByte : Prop :=
  ∀ (r : RingId) (s : State), RingInv r s →
    (ringEmpty r s = true → exec (.ringPop r) s = .refused .emptyRing) ∧
    (ringEmpty r s = false →
      ∃ b t, (ringBytes r s).head? = some (some b) ∧ exec (.ringPop r) s = .next t ∧ ringBytes r t = (ringBytes r s).tail ∧
        t = ({ s with result := .byte b } : State).setRing r { s.ring r with start := ((s.ring r).start + 1) % ringSize s.cfg r })

/-- `XFER rx` (`45_transport_ring.md` R225 to R227): the host receives the old `sdr`; the link is active; the byte goes into `ring_in` by its policy; `sdr` is
reloaded from `ring_out`, or on underflow keeps its value. The ghost log records the overflow and the underflow (log 10); nothing else changes. -/
def Obligations.ExchangeMovesOneByteEachWay : Prop :=
  ∀ (rx : Byte) (s : State), s.cfg.wf = true → RingInv .ringIn s → RingInv .ringOut s →
    ∃ t, exec (.xfer rx) s = .next t ∧ t.result = .byte s.sdr ∧ ringBytes .ringIn t = pushedIn rx s ∧
      ringBytes .ringOut t = (ringBytes .ringOut s).tail ∧
      (ringEmpty .ringOut s = true → t.sdr = s.sdr) ∧
      (ringEmpty .ringOut s = false → (ringBytes .ringOut s).head? = some (some t.sdr)) ∧
      t = { afterPushIn rx s with
        ringOut := if ringEmpty .ringOut s then s.ringOut else { s.ringOut with start := (s.ringOut.start + 1) % s.cfg.ringOutSize }
        sdr := t.sdr, linkActive := true, result := .byte s.sdr
        raised := (if ringEmpty .ringOut s then [.transportUnderflow] else []) ++ (afterPushIn rx s).raised } ∧
      ∀ x, cellExists s.cfg x = true → x ≠ .ring .ringIn s.ringIn.stop → cellValue x t = cellValue x s

/-! ### The dispatcher -/

/-- `DISPATCH` in `SIdle` (`46_dispatcher.md` R240, R241): the byte is taken from `ring_in` and its command is executed. -/
def Obligations.DispatchRunsTheCommandRead : Prop :=
  ∀ (b : Byte) (s : State), s.ringIn.start ≠ s.ringIn.stop → s.ringIn.start < s.cfg.ringInSize →
    cellValue (.ring .ringIn s.ringIn.start) s = some b →
    s.sess = .idle → exec .dispatch s = exec (decodeCommand b) (takenIn s)

/-- `GET_SWITCH` and `GET_POWER` in `SIdle` (`46_dispatcher.md` R242, R243): one response byte is pushed, the session stays. -/
def Obligations.TelemetryPushesOneByte : Prop :=
  ∀ s : State, s.cfg.wf = true → RingInv .ringOut s → s.sess = .idle →
    ∀ i b, (i = .getSwitch ∧ b = s.switchCode) ∨
        (i = .getPower ∧ b = BitVec.ofNat 8 ((if s.accRail then 1 else 0) + (if s.hostPwrRail then 2 else 0))) →
      ∃ t, exec i s = .next t ∧ exec (.ringPushOut b) s = .next t ∧ ringBytes .ringOut t = pushedOut b s ∧ t.sess = .idle

/-- `POP_RX0` and `POP_RX1` in `SIdle` (`46_dispatcher.md` R244): status 0x00 on an empty queue; else status 0x01 and the session that sends the oldest frame, which
is not released. -/
def Obligations.PopRxOpensTheSendSession : Prop :=
  ∀ (c : Chan) (s : State), s.cfg.wf = true → RingInv .ringOut s → QueueInv (.rxq c) s → s.sess = .idle →
    (queueEmpty (.rxq c) s = true →
      ∃ t, exec (popRxOf c) s = .next t ∧ exec (.ringPushOut 0x00#8) s = .next t) ∧
    (queueEmpty (.rxq c) s = false →
      ∃ t n, cellValue (.len (.rxq c) (s.ch c).rxq.start) s = some n ∧ exec (.ringPushOut 0x01#8) s = .next t ∧
        exec (popRxOf c) s = .next { t with sess := .popSend c 0 n.toNat })

/-- `DISPATCH` in `SPopSend(c, idx, rem)` (`46_dispatcher.md` R245): the next frame byte is pushed, no inbound byte is taken; after the last the frame is released and
the session is idle. -/
def Obligations.PopSendPushesTheNextFrameByte : Prop :=
  ∀ (c : Chan) (idx rem : Nat) (b : Byte) (s : State), s.cfg.wf = true → RingInv .ringOut s → s.sess = .popSend c idx rem →
    (s.ch c).rxq.start < s.cfg.rxqSlots → (s.ch c).rxq.start ≠ (s.ch c).rxq.stop → idx < 12 →
    cellValue (.data (.rxq c) (s.ch c).rxq.start idx) s = some b →
    ∃ t, exec (.ringPushOut b) s = .next t ∧
      exec .dispatch s = .next
        (if rem = 1 then
          ({ t with sess := .idle } : State).setCh c
            { s.ch c with rxq := { (s.ch c).rxq with start := ((s.ch c).rxq.start + 1) % s.cfg.rxqSlots } }
        else { t with sess := .popSend c (idx + 1) (rem - 1) })

/-- The commands without a response in `SIdle` (`46_dispatcher.md` R246, R247, R249, R253): `CLR_FILTER` empties both lists, `SET_FILTER` opens the load on an empty
staging list, `TX` opens the length session of its channel, an ignored byte changes nothing. -/
def Obligations.SilentCommandsDoAsStated : Prop :=
  ∀ (c : Chan) (v : Byte) (s : State), s.sess = .idle →
    exec .clrFilter s = .next { s with filtActive := [], filtStage := [] } ∧
    exec .setFilter s = .next { s with filtStage := [], sess := .filterLoad } ∧
    exec (txOf c) s = .next { s with sess := .txLen c } ∧
    (v.toNat = 0 ∨ 9 ≤ v.toNat → exec (.cmdIgnored v) s = .next s)

/-- A byte in `SFilterLoad` (`46_dispatcher.md` R248). A command, executed as an operation or read by `DISPATCH`, makes the staged filter the active one, closes the load
and is executed; any other byte that `DISPATCH` reads is staged, dropped beyond `FILTER_MAX`, and the active filter stays. -/
def Obligations.FilterLoadEndsAtACommand : Prop :=
  ∀ (i : Instr) (b : Byte) (s : State), s.sess = .filterLoad →
    (i ∈ commands → exec i s = exec i { s with filtActive := s.filtStage, sess := .idle }) ∧
    (s.ringIn.start ≠ s.ringIn.stop → s.ringIn.start < s.cfg.ringInSize → cellValue (.ring .ringIn s.ringIn.start) s = some b →
      (1 ≤ b.toNat → b.toNat ≤ 8 →
        exec .dispatch s = exec (decodeCommand b) { takenIn s with filtActive := s.filtStage, sess := .idle }) ∧
      (b.toNat = 0 ∨ 9 ≤ b.toNat →
        exec .dispatch s = .next { takenIn s with
          filtStage := if s.filtStage.length < s.cfg.filterMax then s.filtStage ++ [b] else s.filtStage }))

/-- `DISPATCH` in `STxLen(c)` of a length other than 1 (`46_dispatcher.md` R250): 0 and more than 12 abandon the command, 2 to 12 open the data session. -/
def Obligations.LengthByteOpensTheDataSession : Prop :=
  ∀ (c : Chan) (b : Byte) (s : State), s.sess = .txLen c → s.ringIn.start ≠ s.ringIn.stop → s.ringIn.start < s.cfg.ringInSize →
    cellValue (.ring .ringIn s.ringIn.start) s = some b → b.toNat ≠ 1 →
    exec .dispatch s = .next { takenIn s with
      sess := if b.toNat = 0 ∨ 12 < b.toNat then .idle else .txData c 0 b.toNat }

/-- `DISPATCH` of a payload byte that is not the last (`46_dispatcher.md` R251): staged at its index, whatever its value. -/
def Obligations.PayloadBytesAreStaged : Prop :=
  ∀ (c : Chan) (idx len : Nat) (b : Byte) (s : State), s.sess = .txData c idx len → s.ringIn.start ≠ s.ringIn.stop →
    s.ringIn.start < s.cfg.ringInSize → cellValue (.ring .ringIn s.ringIn.start) s = some b →
    (s.ch c).txq.stop < s.cfg.txqSlots → idx + 2 < len → len ≤ 12 →
    exec .dispatch s = .next { takenIn s with
      mem := s.mem.write (cellKey (.data (.txq c) (s.ch c).txq.stop idx)) b
      sess := .txData c (idx + 1) len }

/-- `DISPATCH` of the last byte of a TX command, the last payload byte or the length byte 1 (`46_dispatcher.md` R250 to R252): the frame of the payload and its CRC is
queued behind the others, or dropped when the queue is full, and the session is idle. Of the rest of the state only storage, the inbound `start`, the queue's `end`
and, for a dropped frame, the ghost log change. -/
def Obligations.LastPayloadByteQueuesTheFrame : Prop :=
  ∀ (c : Chan) (b : Byte) (xs : List Byte) (s : State), s.cfg.wf = true → (∀ q, QueueInv q s) →
    s.ringIn.start ≠ s.ringIn.stop → s.ringIn.start < s.cfg.ringInSize → cellValue (.ring .ringIn s.ringIn.start) s = some b →
    ((s.sess = .txLen c ∧ b.toNat = 1 ∧ xs = []) ∨
     (∃ ys, xs = ys ++ [b] ∧ ys.length ≤ 10 ∧ s.sess = .txData c ys.length (ys.length + 2) ∧ slotHolds (.txq c) (s.ch c).txq.stop ys s)) →
    ∃ t, exec .dispatch s = .next t ∧ queueFrames (.txq c) t = withFrame (.txq c) (xs ++ [crc8 xs]) s ∧
      (∀ q, q ≠ .txq c → queueFrames q t = queueFrames q s) ∧
      t = ({ takenIn s with
          mem := t.mem, sess := .idle
          raised := if ((s.ch c).txq.stop + 1) % s.cfg.txqSlots = (s.ch c).txq.start then .queueOverflow (.txq c) :: s.raised else s.raised } : State).setCh c
        { s.ch c with txq := { (s.ch c).txq with
            stop := if ((s.ch c).txq.stop + 1) % s.cfg.txqSlots = (s.ch c).txq.start then (s.ch c).txq.stop
              else ((s.ch c).txq.stop + 1) % s.cfg.txqSlots } }

/-! ### The environment -/

/-- `LINKTIMEOUT` and `SETINPUTS` (`60_exceptions.md` R290, R291). -/
def Obligations.EnvironmentSetsItsInputs : Prop :=
  ∀ (sw : Byte) (acc hp : Bool) (s : State),
    exec .linktimeout s = .next { s with linkActive := false } ∧
    exec (.setinputs sw acc hp) s = .next { s with switchCode := sw, accRail := acc, hostPwrRail := hp }

/-- `RESET` at any time, and the reset state (`70_reset_and_hazards.md` R300, R301): every element R301 gives a value has it, no storage cell is written, the
configuration is unchanged. The unspecified elements are left open. -/
def Obligations.ResetGivesTheStatedValues : Prop :=
  ∀ s : State, ∃ t, exec .reset s = .next t ∧ t.cfg = s.cfg ∧
    ∀ u, u = t ∨ u = State.reset →
      (∀ c, (u.ch c).st = .idle ∧ (u.ch c).byteIdx = 0 ∧ (u.ch c).bitIdx = 0 ∧ (u.ch c).drive = .passive ∧ (u.ch c).busIn = .passive ∧
        (u.ch c).rxEn = true ∧ (u.ch c).matchEn = false ∧ (u.ch c).matchPend = false ∧
        (u.ch c).rxq = { start := 0, stop := 0 } ∧ (u.ch c).txq = { start := 0, stop := 0 }) ∧
      u.filtActive = [] ∧ u.filtStage = [] ∧ u.ringIn = { start := 0, stop := 0 } ∧ u.ringOut = { start := 0, stop := 0 } ∧
      u.xferMode = .idleEcho ∧ u.linkActive = false ∧ u.sess = .idle ∧ ∀ x, cellValue x u = none
end

