-- ==== Sys2Proof/Laws/State.lean ====
section
/-! SUPPORT. One lemma for each field and each update of the state, so that no later proof unfolds a record update. -/

namespace Sys2Proof.Machine

/-! ### Registers of a channel -/

@[simp] theorem setCh_ch_same (s : State) (c : Chan) (k : Channel) : (s.setCh c k).ch c = k := by cases c <;> rfl

theorem setCh_ch (s : State) (c d : Chan) (k : Channel) : (s.setCh c k).ch d = if d = c then k else s.ch d := by
  cases c <;> cases d <;> rfl

@[simp] theorem setCh_ch_other (s : State) {c d : Chan} (k : Channel) (h : d ≠ c) : (s.setCh c k).ch d = s.ch d := by
  rw [setCh_ch, if_neg h]

@[simp] theorem setCh_setCh (s : State) (c : Chan) (k l : Channel) : (s.setCh c k).setCh c l = s.setCh c l := by
  cases c <;> rfl

@[simp] theorem setCh_self (s : State) (c : Chan) : s.setCh c (s.ch c) = s := by cases c <;> rfl

@[simp] theorem setCh_setMem_setCh (s : State) (c : Chan) (k l : Channel) (m : Memory) :
    ((s.setCh c k).setMem m).setCh c l = (s.setMem m).setCh c l := by cases c <;> rfl

theorem setCh_comm (s : State) {c d : Chan} (k l : Channel) (h : d ≠ c) :
    (s.setCh c k).setCh d l = (s.setCh d l).setCh c k := by
  cases c <;> cases d <;> first | exact absurd rfl h | rfl

@[simp] theorem setCh_tcnt (s : State) (c : Chan) (k : Channel) : (s.setCh c k).tcnt = s.tcnt := rfl
@[simp] theorem setCh_mem (s : State) (c : Chan) (k : Channel) : (s.setCh c k).mem = s.mem := rfl
@[simp] theorem setCh_filtActive (s : State) (c : Chan) (k : Channel) : (s.setCh c k).filtActive = s.filtActive := rfl
@[simp] theorem setCh_filtStage (s : State) (c : Chan) (k : Channel) : (s.setCh c k).filtStage = s.filtStage := rfl
@[simp] theorem setCh_ringIn (s : State) (c : Chan) (k : Channel) : (s.setCh c k).ringIn = s.ringIn := rfl
@[simp] theorem setCh_ringOut (s : State) (c : Chan) (k : Channel) : (s.setCh c k).ringOut = s.ringOut := rfl
@[simp] theorem setCh_sdr (s : State) (c : Chan) (k : Channel) : (s.setCh c k).sdr = s.sdr := rfl
@[simp] theorem setCh_xferMode (s : State) (c : Chan) (k : Channel) : (s.setCh c k).xferMode = s.xferMode := rfl
@[simp] theorem setCh_linkActive (s : State) (c : Chan) (k : Channel) : (s.setCh c k).linkActive = s.linkActive := rfl
@[simp] theorem setCh_sess (s : State) (c : Chan) (k : Channel) : (s.setCh c k).sess = s.sess := rfl
@[simp] theorem setCh_switchCode (s : State) (c : Chan) (k : Channel) : (s.setCh c k).switchCode = s.switchCode := rfl
@[simp] theorem setCh_accRail (s : State) (c : Chan) (k : Channel) : (s.setCh c k).accRail = s.accRail := rfl
@[simp] theorem setCh_hostPwrRail (s : State) (c : Chan) (k : Channel) : (s.setCh c k).hostPwrRail = s.hostPwrRail := rfl
@[simp] theorem setCh_cfg (s : State) (c : Chan) (k : Channel) : (s.setCh c k).cfg = s.cfg := rfl
@[simp] theorem setCh_sched (s : State) (c : Chan) (k : Channel) : (s.setCh c k).sched = s.sched := rfl
@[simp] theorem setCh_result (s : State) (c : Chan) (k : Channel) : (s.setCh c k).result = s.result := rfl
@[simp] theorem setCh_raised (s : State) (c : Chan) (k : Channel) : (s.setCh c k).raised = s.raised := rfl
@[simp] theorem setCh_freeCount (s : State) (c : Chan) (k : Channel) : (s.setCh c k).freeCount = s.freeCount := rfl

/-! ### Pointers of a frame queue -/

@[simp] theorem queue_rxq (s : State) (c : Chan) : s.queue (.rxq c) = (s.ch c).rxq := rfl
@[simp] theorem queue_txq (s : State) (c : Chan) : s.queue (.txq c) = (s.ch c).txq := rfl
@[simp] theorem setQueue_rxq (s : State) (c : Chan) (p : Ptrs) : s.setQueue (.rxq c) p = s.setCh c { s.ch c with rxq := p } := rfl
@[simp] theorem setQueue_txq (s : State) (c : Chan) (p : Ptrs) : s.setQueue (.txq c) p = s.setCh c { s.ch c with txq := p } := rfl

theorem setQueue_queue (s : State) (q r : QueueId) (p : Ptrs) : (s.setQueue q p).queue r = if r = q then p else s.queue r := by
  cases q with
  | rxq c => cases r with
    | rxq d => cases c <;> cases d <;> rfl
    | txq d => cases c <;> cases d <;> rfl
  | txq c => cases r with
    | rxq d => cases c <;> cases d <;> rfl
    | txq d => cases c <;> cases d <;> rfl

theorem setQueue_queue_same (s : State) (q : QueueId) (p : Ptrs) : (s.setQueue q p).queue q = p := by
  rw [setQueue_queue, if_pos rfl]

theorem setQueue_tcnt (s : State) (q : QueueId) (p : Ptrs) : (s.setQueue q p).tcnt = s.tcnt := by cases q <;> rfl
theorem setQueue_mem (s : State) (q : QueueId) (p : Ptrs) : (s.setQueue q p).mem = s.mem := by cases q <;> rfl
theorem setQueue_filtActive (s : State) (q : QueueId) (p : Ptrs) : (s.setQueue q p).filtActive = s.filtActive := by cases q <;> rfl
theorem setQueue_filtStage (s : State) (q : QueueId) (p : Ptrs) : (s.setQueue q p).filtStage = s.filtStage := by cases q <;> rfl
theorem setQueue_ringIn (s : State) (q : QueueId) (p : Ptrs) : (s.setQueue q p).ringIn = s.ringIn := by cases q <;> rfl
theorem setQueue_ringOut (s : State) (q : QueueId) (p : Ptrs) : (s.setQueue q p).ringOut = s.ringOut := by cases q <;> rfl
theorem setQueue_sdr (s : State) (q : QueueId) (p : Ptrs) : (s.setQueue q p).sdr = s.sdr := by cases q <;> rfl
theorem setQueue_xferMode (s : State) (q : QueueId) (p : Ptrs) : (s.setQueue q p).xferMode = s.xferMode := by cases q <;> rfl
theorem setQueue_linkActive (s : State) (q : QueueId) (p : Ptrs) : (s.setQueue q p).linkActive = s.linkActive := by cases q <;> rfl
theorem setQueue_sess (s : State) (q : QueueId) (p : Ptrs) : (s.setQueue q p).sess = s.sess := by cases q <;> rfl
theorem setQueue_switchCode (s : State) (q : QueueId) (p : Ptrs) : (s.setQueue q p).switchCode = s.switchCode := by cases q <;> rfl
theorem setQueue_accRail (s : State) (q : QueueId) (p : Ptrs) : (s.setQueue q p).accRail = s.accRail := by cases q <;> rfl
theorem setQueue_hostPwrRail (s : State) (q : QueueId) (p : Ptrs) : (s.setQueue q p).hostPwrRail = s.hostPwrRail := by cases q <;> rfl
theorem setQueue_cfg (s : State) (q : QueueId) (p : Ptrs) : (s.setQueue q p).cfg = s.cfg := by cases q <;> rfl
theorem setQueue_sched (s : State) (q : QueueId) (p : Ptrs) : (s.setQueue q p).sched = s.sched := by cases q <;> rfl
theorem setQueue_result (s : State) (q : QueueId) (p : Ptrs) : (s.setQueue q p).result = s.result := by cases q <;> rfl
theorem setQueue_raised (s : State) (q : QueueId) (p : Ptrs) : (s.setQueue q p).raised = s.raised := by cases q <;> rfl
theorem setQueue_freeCount (s : State) (q : QueueId) (p : Ptrs) : (s.setQueue q p).freeCount = s.freeCount := by cases q <;> rfl

/-! ### Pointers of a ring -/

@[simp] theorem ring_in (s : State) : s.ring .ringIn = s.ringIn := rfl
@[simp] theorem ring_out (s : State) : s.ring .ringOut = s.ringOut := rfl

theorem setRing_ring (s : State) (r t : RingId) (p : Ptrs) : (s.setRing r p).ring t = if t = r then p else s.ring t := by
  cases r <;> cases t <;> rfl

@[simp] theorem setRing_ring_same (s : State) (r : RingId) (p : Ptrs) : (s.setRing r p).ring r = p := by
  rw [setRing_ring, if_pos rfl]

@[simp] theorem setRing_ch (s : State) (r : RingId) (p : Ptrs) (c : Chan) : (s.setRing r p).ch c = s.ch c := by cases c <;> rfl
@[simp] theorem setRing_queue (s : State) (r : RingId) (p : Ptrs) (q : QueueId) : (s.setRing r p).queue q = s.queue q := by
  rcases q with c | c <;> cases c <;> rfl
@[simp] theorem setRing_in (s : State) (p : Ptrs) : s.setRing .ringIn p = { s with ringIn := p } := rfl
@[simp] theorem setRing_out (s : State) (p : Ptrs) : s.setRing .ringOut p = { s with ringOut := p } := rfl
@[simp] theorem setCh_ring (s : State) (c : Chan) (k : Channel) (r : RingId) : (s.setCh c k).ring r = s.ring r := by cases r <;> rfl
@[simp] theorem setRing_tcnt (s : State) (r : RingId) (p : Ptrs) : (s.setRing r p).tcnt = s.tcnt := rfl
@[simp] theorem setRing_mem (s : State) (r : RingId) (p : Ptrs) : (s.setRing r p).mem = s.mem := rfl
@[simp] theorem setRing_filtActive (s : State) (r : RingId) (p : Ptrs) : (s.setRing r p).filtActive = s.filtActive := rfl
@[simp] theorem setRing_filtStage (s : State) (r : RingId) (p : Ptrs) : (s.setRing r p).filtStage = s.filtStage := rfl
@[simp] theorem setRing_sdr (s : State) (r : RingId) (p : Ptrs) : (s.setRing r p).sdr = s.sdr := rfl
@[simp] theorem setRing_xferMode (s : State) (r : RingId) (p : Ptrs) : (s.setRing r p).xferMode = s.xferMode := rfl
@[simp] theorem setRing_linkActive (s : State) (r : RingId) (p : Ptrs) : (s.setRing r p).linkActive = s.linkActive := rfl
@[simp] theorem setRing_sess (s : State) (r : RingId) (p : Ptrs) : (s.setRing r p).sess = s.sess := rfl
@[simp] theorem setRing_switchCode (s : State) (r : RingId) (p : Ptrs) : (s.setRing r p).switchCode = s.switchCode := rfl
@[simp] theorem setRing_accRail (s : State) (r : RingId) (p : Ptrs) : (s.setRing r p).accRail = s.accRail := rfl
@[simp] theorem setRing_hostPwrRail (s : State) (r : RingId) (p : Ptrs) : (s.setRing r p).hostPwrRail = s.hostPwrRail := rfl
@[simp] theorem setRing_cfg (s : State) (r : RingId) (p : Ptrs) : (s.setRing r p).cfg = s.cfg := rfl
@[simp] theorem setRing_sched (s : State) (r : RingId) (p : Ptrs) : (s.setRing r p).sched = s.sched := rfl
@[simp] theorem setRing_result (s : State) (r : RingId) (p : Ptrs) : (s.setRing r p).result = s.result := rfl
@[simp] theorem setRing_raised (s : State) (r : RingId) (p : Ptrs) : (s.setRing r p).raised = s.raised := rfl
@[simp] theorem setRing_freeCount (s : State) (r : RingId) (p : Ptrs) : (s.setRing r p).freeCount = s.freeCount := rfl
@[simp] theorem setRing_ch0 (s : State) (r : RingId) (p : Ptrs) : (s.setRing r p).ch0 = s.ch0 := rfl
@[simp] theorem setRing_ch1 (s : State) (r : RingId) (p : Ptrs) : (s.setRing r p).ch1 = s.ch1 := rfl

/-! ### Storage -/

@[simp] theorem setMem_mem (s : State) (v : Memory) : (s.setMem v).mem = v := rfl
@[simp] theorem setMem_ch (s : State) (v : Memory) (c : Chan) : (s.setMem v).ch c = s.ch c := by cases c <;> rfl
@[simp] theorem setMem_queue (s : State) (v : Memory) (q : QueueId) : (s.setMem v).queue q = s.queue q := by
  rcases q with c | c <;> cases c <;> rfl
@[simp] theorem setMem_ring (s : State) (v : Memory) (r : RingId) : (s.setMem v).ring r = s.ring r := by cases r <;> rfl
@[simp] theorem setMem_setCh (s : State) (v : Memory) (c : Chan) (k : Channel) : (s.setCh c k).setMem v = (s.setMem v).setCh c k := rfl
@[simp] theorem setMem_setMem (s : State) (v w : Memory) : (s.setMem v).setMem w = s.setMem w := rfl
@[simp] theorem setMem_tcnt (s : State) (v : Memory) : (s.setMem v).tcnt = s.tcnt := rfl
@[simp] theorem setMem_ch0 (s : State) (v : Memory) : (s.setMem v).ch0 = s.ch0 := rfl
@[simp] theorem setMem_ch1 (s : State) (v : Memory) : (s.setMem v).ch1 = s.ch1 := rfl
@[simp] theorem setMem_filtActive (s : State) (v : Memory) : (s.setMem v).filtActive = s.filtActive := rfl
@[simp] theorem setMem_filtStage (s : State) (v : Memory) : (s.setMem v).filtStage = s.filtStage := rfl
@[simp] theorem setMem_ringIn (s : State) (v : Memory) : (s.setMem v).ringIn = s.ringIn := rfl
@[simp] theorem setMem_ringOut (s : State) (v : Memory) : (s.setMem v).ringOut = s.ringOut := rfl
@[simp] theorem setMem_sdr (s : State) (v : Memory) : (s.setMem v).sdr = s.sdr := rfl
@[simp] theorem setMem_xferMode (s : State) (v : Memory) : (s.setMem v).xferMode = s.xferMode := rfl
@[simp] theorem setMem_linkActive (s : State) (v : Memory) : (s.setMem v).linkActive = s.linkActive := rfl
@[simp] theorem setMem_sess (s : State) (v : Memory) : (s.setMem v).sess = s.sess := rfl
@[simp] theorem setMem_switchCode (s : State) (v : Memory) : (s.setMem v).switchCode = s.switchCode := rfl
@[simp] theorem setMem_accRail (s : State) (v : Memory) : (s.setMem v).accRail = s.accRail := rfl
@[simp] theorem setMem_hostPwrRail (s : State) (v : Memory) : (s.setMem v).hostPwrRail = s.hostPwrRail := rfl
@[simp] theorem setMem_cfg (s : State) (v : Memory) : (s.setMem v).cfg = s.cfg := rfl
@[simp] theorem setMem_sched (s : State) (v : Memory) : (s.setMem v).sched = s.sched := rfl
@[simp] theorem setMem_result (s : State) (v : Memory) : (s.setMem v).result = s.result := rfl
@[simp] theorem setMem_raised (s : State) (v : Memory) : (s.setMem v).raised = s.raised := rfl
@[simp] theorem setMem_freeCount (s : State) (v : Memory) : (s.setMem v).freeCount = s.freeCount := rfl

/-! ### The session -/

@[simp] theorem setSess_sess (s : State) (v : Session) : (s.setSess v).sess = v := rfl
@[simp] theorem setSess_ch (s : State) (v : Session) (c : Chan) : (s.setSess v).ch c = s.ch c := by cases c <;> rfl
@[simp] theorem setSess_queue (s : State) (v : Session) (q : QueueId) : (s.setSess v).queue q = s.queue q := by
  rcases q with c | c <;> cases c <;> rfl
@[simp] theorem setSess_ring (s : State) (v : Session) (r : RingId) : (s.setSess v).ring r = s.ring r := by cases r <;> rfl
@[simp] theorem setSess_setCh (s : State) (v : Session) (c : Chan) (k : Channel) : (s.setCh c k).setSess v = (s.setSess v).setCh c k := rfl
@[simp] theorem setSess_setSess (s : State) (v w : Session) : (s.setSess v).setSess w = s.setSess w := rfl
@[simp] theorem setSess_tcnt (s : State) (v : Session) : (s.setSess v).tcnt = s.tcnt := rfl
@[simp] theorem setSess_ch0 (s : State) (v : Session) : (s.setSess v).ch0 = s.ch0 := rfl
@[simp] theorem setSess_ch1 (s : State) (v : Session) : (s.setSess v).ch1 = s.ch1 := rfl
@[simp] theorem setSess_mem (s : State) (v : Session) : (s.setSess v).mem = s.mem := rfl
@[simp] theorem setSess_filtActive (s : State) (v : Session) : (s.setSess v).filtActive = s.filtActive := rfl
@[simp] theorem setSess_filtStage (s : State) (v : Session) : (s.setSess v).filtStage = s.filtStage := rfl
@[simp] theorem setSess_ringIn (s : State) (v : Session) : (s.setSess v).ringIn = s.ringIn := rfl
@[simp] theorem setSess_ringOut (s : State) (v : Session) : (s.setSess v).ringOut = s.ringOut := rfl
@[simp] theorem setSess_sdr (s : State) (v : Session) : (s.setSess v).sdr = s.sdr := rfl
@[simp] theorem setSess_xferMode (s : State) (v : Session) : (s.setSess v).xferMode = s.xferMode := rfl
@[simp] theorem setSess_linkActive (s : State) (v : Session) : (s.setSess v).linkActive = s.linkActive := rfl
@[simp] theorem setSess_switchCode (s : State) (v : Session) : (s.setSess v).switchCode = s.switchCode := rfl
@[simp] theorem setSess_accRail (s : State) (v : Session) : (s.setSess v).accRail = s.accRail := rfl
@[simp] theorem setSess_hostPwrRail (s : State) (v : Session) : (s.setSess v).hostPwrRail = s.hostPwrRail := rfl
@[simp] theorem setSess_cfg (s : State) (v : Session) : (s.setSess v).cfg = s.cfg := rfl
@[simp] theorem setSess_sched (s : State) (v : Session) : (s.setSess v).sched = s.sched := rfl
@[simp] theorem setSess_result (s : State) (v : Session) : (s.setSess v).result = s.result := rfl
@[simp] theorem setSess_raised (s : State) (v : Session) : (s.setSess v).raised = s.raised := rfl
@[simp] theorem setSess_freeCount (s : State) (v : Session) : (s.setSess v).freeCount = s.freeCount := rfl

/-! ### The returned value -/

@[simp] theorem setResult_result (s : State) (v : Result) : (s.setResult v).result = v := rfl
@[simp] theorem setResult_ch (s : State) (v : Result) (c : Chan) : (s.setResult v).ch c = s.ch c := by cases c <;> rfl
@[simp] theorem setResult_queue (s : State) (v : Result) (q : QueueId) : (s.setResult v).queue q = s.queue q := by
  rcases q with c | c <;> cases c <;> rfl
@[simp] theorem setResult_ring (s : State) (v : Result) (r : RingId) : (s.setResult v).ring r = s.ring r := by cases r <;> rfl
@[simp] theorem setResult_setCh (s : State) (v : Result) (c : Chan) (k : Channel) : (s.setCh c k).setResult v = (s.setResult v).setCh c k := rfl
@[simp] theorem setResult_setResult (s : State) (v w : Result) : (s.setResult v).setResult w = s.setResult w := rfl
@[simp] theorem setResult_tcnt (s : State) (v : Result) : (s.setResult v).tcnt = s.tcnt := rfl
@[simp] theorem setResult_ch0 (s : State) (v : Result) : (s.setResult v).ch0 = s.ch0 := rfl
@[simp] theorem setResult_ch1 (s : State) (v : Result) : (s.setResult v).ch1 = s.ch1 := rfl
@[simp] theorem setResult_mem (s : State) (v : Result) : (s.setResult v).mem = s.mem := rfl
@[simp] theorem setResult_filtActive (s : State) (v : Result) : (s.setResult v).filtActive = s.filtActive := rfl
@[simp] theorem setResult_filtStage (s : State) (v : Result) : (s.setResult v).filtStage = s.filtStage := rfl
@[simp] theorem setResult_ringIn (s : State) (v : Result) : (s.setResult v).ringIn = s.ringIn := rfl
@[simp] theorem setResult_ringOut (s : State) (v : Result) : (s.setResult v).ringOut = s.ringOut := rfl
@[simp] theorem setResult_sdr (s : State) (v : Result) : (s.setResult v).sdr = s.sdr := rfl
@[simp] theorem setResult_xferMode (s : State) (v : Result) : (s.setResult v).xferMode = s.xferMode := rfl
@[simp] theorem setResult_linkActive (s : State) (v : Result) : (s.setResult v).linkActive = s.linkActive := rfl
@[simp] theorem setResult_sess (s : State) (v : Result) : (s.setResult v).sess = s.sess := rfl
@[simp] theorem setResult_switchCode (s : State) (v : Result) : (s.setResult v).switchCode = s.switchCode := rfl
@[simp] theorem setResult_accRail (s : State) (v : Result) : (s.setResult v).accRail = s.accRail := rfl
@[simp] theorem setResult_hostPwrRail (s : State) (v : Result) : (s.setResult v).hostPwrRail = s.hostPwrRail := rfl
@[simp] theorem setResult_cfg (s : State) (v : Result) : (s.setResult v).cfg = s.cfg := rfl
@[simp] theorem setResult_sched (s : State) (v : Result) : (s.setResult v).sched = s.sched := rfl
@[simp] theorem setResult_raised (s : State) (v : Result) : (s.setResult v).raised = s.raised := rfl
@[simp] theorem setResult_freeCount (s : State) (v : Result) : (s.setResult v).freeCount = s.freeCount := rfl

/-! ### The ghost log -/

@[simp] theorem raiseFault_raised (s : State) (e : Raised) : (raiseFault e s).raised = e :: s.raised := rfl
@[simp] theorem raiseFault_ch (s : State) (e : Raised) (c : Chan) : (raiseFault e s).ch c = s.ch c := by cases c <;> rfl
@[simp] theorem raiseFault_queue (s : State) (e : Raised) (q : QueueId) : (raiseFault e s).queue q = s.queue q := by
  rcases q with c | c <;> cases c <;> rfl
@[simp] theorem raiseFault_ring (s : State) (e : Raised) (r : RingId) : (raiseFault e s).ring r = s.ring r := by cases r <;> rfl
@[simp] theorem raiseFault_tcnt (s : State) (e : Raised) : (raiseFault e s).tcnt = s.tcnt := rfl
@[simp] theorem raiseFault_mem (s : State) (e : Raised) : (raiseFault e s).mem = s.mem := rfl
@[simp] theorem raiseFault_filtActive (s : State) (e : Raised) : (raiseFault e s).filtActive = s.filtActive := rfl
@[simp] theorem raiseFault_filtStage (s : State) (e : Raised) : (raiseFault e s).filtStage = s.filtStage := rfl
@[simp] theorem raiseFault_ringIn (s : State) (e : Raised) : (raiseFault e s).ringIn = s.ringIn := rfl
@[simp] theorem raiseFault_ringOut (s : State) (e : Raised) : (raiseFault e s).ringOut = s.ringOut := rfl
@[simp] theorem raiseFault_sdr (s : State) (e : Raised) : (raiseFault e s).sdr = s.sdr := rfl
@[simp] theorem raiseFault_xferMode (s : State) (e : Raised) : (raiseFault e s).xferMode = s.xferMode := rfl
@[simp] theorem raiseFault_linkActive (s : State) (e : Raised) : (raiseFault e s).linkActive = s.linkActive := rfl
@[simp] theorem raiseFault_sess (s : State) (e : Raised) : (raiseFault e s).sess = s.sess := rfl
@[simp] theorem raiseFault_switchCode (s : State) (e : Raised) : (raiseFault e s).switchCode = s.switchCode := rfl
@[simp] theorem raiseFault_accRail (s : State) (e : Raised) : (raiseFault e s).accRail = s.accRail := rfl
@[simp] theorem raiseFault_hostPwrRail (s : State) (e : Raised) : (raiseFault e s).hostPwrRail = s.hostPwrRail := rfl
@[simp] theorem raiseFault_cfg (s : State) (e : Raised) : (raiseFault e s).cfg = s.cfg := rfl
@[simp] theorem raiseFault_sched (s : State) (e : Raised) : (raiseFault e s).sched = s.sched := rfl
@[simp] theorem raiseFault_result (s : State) (e : Raised) : (raiseFault e s).result = s.result := rfl
@[simp] theorem raiseFault_freeCount (s : State) (e : Raised) : (raiseFault e s).freeCount = s.freeCount := rfl
@[simp] theorem raiseFault_ch0 (s : State) (e : Raised) : (raiseFault e s).ch0 = s.ch0 := rfl
@[simp] theorem raiseFault_ch1 (s : State) (e : Raised) : (raiseFault e s).ch1 = s.ch1 := rfl

/-! ### Disarming and aborting a reception -/

@[simp] theorem disarmUnit_eq (s : State) (c : Chan) :
    disarmUnit c s = s.setCh c { s.ch c with matchEn := false, matchPend := false } := rfl
@[simp] theorem rxAbort_eq (s : State) (c : Chan) :
    rxAbort c s = s.setCh c { s.ch c with st := .idle, matchEn := false, matchPend := false } := by
  simp [rxAbort]

end Sys2Proof.Machine
end

