-- ==== Sys2Proof/Laws/Flags.lean ====
section
/-! SUPPORT. The index arithmetic of the circular buffers, said once, and the conditions as propositions. -/

namespace Sys2Proof.Machine

/-- The next index of a valid one, without the modulus. -/
theorem nextIndex_of_lt {n i : Nat} (h : i < n) : nextIndex n i = if i + 1 = n then 0 else i + 1 := by
  unfold nextIndex
  split
  · rename_i he
    simp [he]
  · exact Nat.mod_eq_of_lt (by omega)

/-- The next index of a valid one is valid. -/
theorem nextIndex_lt {n i : Nat} (h : i < n) : nextIndex n i < n := by
  rw [nextIndex_of_lt h]
  split <;> omega

theorem isEmpty_eq_true {p : Ptrs} : p.isEmpty = true ↔ p.start = p.stop := by simp [Ptrs.isEmpty]
theorem isEmpty_eq_false {p : Ptrs} : p.isEmpty = false ↔ p.start ≠ p.stop := by simp [Ptrs.isEmpty]
theorem isFull_eq_true {n : Nat} {p : Ptrs} : p.isFull n = true ↔ nextIndex n p.stop = p.start := by simp [Ptrs.isFull]
theorem isFull_eq_false {n : Nat} {p : Ptrs} : p.isFull n = false ↔ nextIndex n p.stop ≠ p.start := by simp [Ptrs.isFull]

/-- The cell at `start` of a buffer that is not empty is buffered. -/
theorem holds_start {p : Ptrs} (h : p.isEmpty = false) : p.holds p.start := by
  rw [isEmpty_eq_false] at h
  unfold Ptrs.holds
  omega

/-- The cell at `end` is never buffered (`41_frame_queue.md` R131). -/
theorem not_holds_stop (p : Ptrs) : ¬ p.holds p.stop := by
  unfold Ptrs.holds
  omega

/-- After `end` advances on a buffer that is not full, the buffered cells are those of before and the one at the old `end`. -/
theorem holds_push {p : Ptrs} {n k : Nat} (hs : p.start < n) (he : p.stop < n) (hf : p.isFull n = false) (hk : k < n) :
    ({ p with stop := nextIndex n p.stop } : Ptrs).holds k ↔ p.holds k ∨ k = p.stop := by
  rw [isFull_eq_false, nextIndex_of_lt he] at hf
  rw [nextIndex_of_lt he]
  unfold Ptrs.holds
  split at hf <;> simp_all <;> omega

/-- After `start` advances on a buffer that is not empty, the buffered cells are those of before less the oldest. -/
theorem holds_pop {p : Ptrs} {n k : Nat} (hs : p.start < n) (he : p.stop < n) (hne : p.isEmpty = false) (hk : k < n) :
    ({ p with start := nextIndex n p.start } : Ptrs).holds k ↔ p.holds k ∧ k ≠ p.start := by
  rw [isEmpty_eq_false] at hne
  rw [nextIndex_of_lt hs]
  unfold Ptrs.holds
  split <;> simp_all <;> omega

/-- The number of buffered cells, without the modulus. -/
theorem count_of_lt {p : Ptrs} {n : Nat} (hs : p.start < n) (he : p.stop < n) :
    p.count n = if p.start ≤ p.stop then p.stop - p.start else p.stop + n - p.start := by
  unfold Ptrs.count
  split
  · rw [show p.stop + n - p.start = p.stop - p.start + n by omega, Nat.add_mod_right]
    exact Nat.mod_eq_of_lt (by omega)
  · exact Nat.mod_eq_of_lt (by omega)

/-- The `j`-th index from `start`, without the modulus, for `j` below the size. -/
theorem nth_of_lt {p : Ptrs} {n j : Nat} (hs : p.start < n) (hj : j < n) :
    p.nth n j = if p.start + j < n then p.start + j else p.start + j - n := by
  unfold Ptrs.nth
  split
  · exact Nat.mod_eq_of_lt ‹_›
  · rw [Nat.mod_eq_sub_mod (by omega)]
    exact Nat.mod_eq_of_lt (by omega)

end Sys2Proof.Machine
end

