-- ==== Sys2Proof/Laws/Res.lean ====
section
/-! SUPPORT. What a sequence of parts can answer. -/

namespace Sys2Proof.Machine

variable {α β : Type}

@[simp] theorem andThen_next (a : α) (f : α → Res β) : Res.andThen (.next a) f = f a := rfl
@[simp] theorem andThen_fault (r : Fault) (f : α → Res β) : Res.andThen (.fault r) f = .fault r := rfl
@[simp] theorem andThen_refused (r : Refusal) (f : α → Res β) : Res.andThen (.refused r) f = .refused r := rfl

/-- A sequence answers a value when both its parts do. -/
theorem andThen_eq_next {x : Res α} {f : α → Res β} {b : β} :
    x.andThen f = .next b ↔ ∃ a, x = .next a ∧ f a = .next b := by
  cases x <;> simp [Res.andThen]

/-- A sequence faults when its first part does, or the second after it. -/
theorem andThen_eq_fault {x : Res α} {f : α → Res β} {r : Fault} :
    x.andThen f = .fault r ↔ x = .fault r ∨ ∃ a, x = .next a ∧ f a = .fault r := by
  cases x <;> simp [Res.andThen]

/-- A sequence refuses when its first part does, or the second after it. -/
theorem andThen_eq_refused {x : Res α} {f : α → Res β} {r : Refusal} :
    x.andThen f = .refused r ↔ x = .refused r ∨ ∃ a, x = .next a ∧ f a = .refused r := by
  cases x <;> simp [Res.andThen]

/-- Sequencing is associative. -/
theorem andThen_assoc {γ : Type} (x : Res α) (f : α → Res β) (g : β → Res γ) :
    (x.andThen f).andThen g = x.andThen fun a => (f a).andThen g := by
  cases x <;> rfl

end Sys2Proof.Machine
end

