-- ==== Sys2Proof/Laws/Memory.lean ====
section
/-! SUPPORT. The laws of storage: reading after writing, the canonical form, and the cells an access touches. -/

namespace Sys2Proof.Machine

/-! ### The list -/

/-- A written key reads as written, every other key as before. -/
theorem lookup_insert (l : List Host.Cell) (a b : Nat) (v : Byte) :
    lookupCell (insertCell l a v) b = if b = a then some v else lookupCell l b := by
  induction l with
  | nil => simp [insertCell, lookupCell]
  | cons x rest ih =>
    simp only [insertCell]
    split
    · simp [lookupCell]
    · split
      · rename_i _ h
        subst h
        by_cases hb : b = x.1 <;> simp [lookupCell, hb]
      · rename_i _ h
        by_cases hb : b = x.1
        · subst hb
          simp [lookupCell, Ne.symm h]
        · simp [lookupCell, hb, ih]

/-- Every key of the written list is the written key or a key of the list. -/
theorem mem_insert_key {l : List Host.Cell} {a : Nat} {v : Byte} {y : Host.Cell} (h : y ∈ insertCell l a v) :
    y.1 = a ∨ y ∈ l := by
  induction l with
  | nil => simp_all [insertCell]
  | cons x rest ih =>
    simp only [insertCell] at h
    split at h
    · simp only [List.mem_cons] at h ⊢
      rcases h with rfl | h
      · exact .inl rfl
      · exact .inr h
    · split at h
      · simp only [List.mem_cons] at h ⊢
        rcases h with rfl | h
        · exact .inl rfl
        · exact .inr (.inr h)
      · simp only [List.mem_cons] at h ⊢
        rcases h with rfl | h
        · exact .inr (.inl rfl)
        · exact (ih h).imp id .inr

/-- Writing keeps the keys rising. -/
theorem insert_pairwise (l : List Host.Cell) (a : Nat) (v : Byte) (h : l.Pairwise (fun x y => x.1 < y.1)) :
    (insertCell l a v).Pairwise (fun x y => x.1 < y.1) := by
  induction l with
  | nil => simp [insertCell]
  | cons x rest ih =>
    obtain ⟨hx, hr⟩ := List.pairwise_cons.mp h
    simp only [insertCell]
    split
    · rename_i ha
      refine List.pairwise_cons.mpr ⟨fun y hy => ?_, h⟩
      rcases List.mem_cons.mp hy with rfl | hy
      · exact ha
      · exact lt_trans ha (hx y hy)
    · split
      · rename_i _ he
        exact List.pairwise_cons.mpr ⟨fun y hy => by simpa [he] using hx y hy, hr⟩
      · rename_i hlt hne
        refine List.pairwise_cons.mpr ⟨fun y hy => ?_, ih hr⟩
        rcases mem_insert_key hy with h' | h'
        · omega
        · exact hx y h'

/-! ### The memory -/

/-- Reading after a write. -/
theorem Memory.read_write (m : Memory) (a b : Nat) (v : Byte) :
    (m.write a v).read b = if b = a then some v else m.read b := lookup_insert m.cells a b v

/-- A write keeps the canonical form. -/
theorem Memory.write_wf (m : Memory) (a : Nat) (v : Byte) (h : m.wf) : (m.write a v).wf := insert_pairwise m.cells a v h

/-- The memory after reset is in the canonical form. -/
theorem reset_mem_wf : State.reset.mem.wf := List.Pairwise.nil

/-! ### Cells -/

/-- A cell of an existing array has its own key. -/
theorem cellKey_injective {cfg : Config} {x y : CellId} (hx : cellExists cfg x = true) (hy : cellExists cfg y = true)
    (h : cellKey x = cellKey y) : x = y := by
  rcases x with ⟨q, k, i⟩ | ⟨q, k⟩ | ⟨r, i⟩ <;> rcases y with ⟨q', k', i'⟩ | ⟨q', k'⟩ | ⟨r', i'⟩ <;>
    simp only [cellExists, Bool.and_eq_true, decide_eq_true_eq, cellKey] at hx hy h
  · rcases q with c | c <;> rcases q' with d | d <;> cases c <;> cases d <;> simp only [queueCode] at h <;>
      first | omega | (obtain ⟨rfl, rfl⟩ : k = k' ∧ i = i' := (by omega); rfl)
  · rcases q with c | c <;> rcases q' with d | d <;> cases c <;> cases d <;> simp only [queueCode] at h <;> omega
  · rcases q with c | c <;> cases c <;> cases r' <;> simp only [queueCode, ringCode] at h <;> omega
  · rcases q with c | c <;> rcases q' with d | d <;> cases c <;> cases d <;> simp only [queueCode] at h <;> omega
  · rcases q with c | c <;> rcases q' with d | d <;> cases c <;> cases d <;> simp only [queueCode] at h <;>
      first | omega | (obtain rfl : k = k' := (by omega); rfl)
  · rcases q with c | c <;> cases c <;> cases r' <;> simp only [queueCode, ringCode] at h <;> omega
  · rcases q' with c | c <;> cases c <;> cases r <;> simp only [queueCode, ringCode] at h <;> omega
  · rcases q' with c | c <;> cases c <;> cases r <;> simp only [queueCode, ringCode] at h <;> omega
  · cases r <;> cases r' <;> simp only [ringCode] at h <;>
      first | omega | (obtain rfl : i = i' := (by omega); rfl)

/-- A store answers the state with that one cell written, and only for a cell that exists. -/
theorem memWrite_eq_next {x : CellId} {v : Byte} {s t : State} :
    memWrite x v s = .next t ↔ cellExists s.cfg x = true ∧ t = s.setMem (s.mem.write (cellKey x) v) := by
  simp only [memWrite]
  split
  · simp_all [eq_comm (a := t)]
  · simp_all

/-- A load answers the byte of a cell that exists and has been written. -/
theorem memRead_eq_next {x : CellId} {v : Byte} {s : State} :
    memRead x s = .next v ↔ cellExists s.cfg x = true ∧ cellValue x s = some v := by
  simp only [memRead]
  split
  · split <;> simp_all
  · simp_all

/-- A load faults on a cell that does not exist or has not been written. -/
theorem memRead_eq_fault {x : CellId} {s : State} {r : Fault} (h : memRead x s = .fault r) :
    cellExists s.cfg x = false ∨ cellValue x s = none := by
  simp only [memRead] at h
  split at h
  · split at h
    · cases h
    · exact .inr ‹_›
  · exact .inl (Bool.eq_false_iff.mpr ‹_›)

/-- A load is never refused. -/
theorem memRead_ne_refused (x : CellId) (s : State) (r : Refusal) : memRead x s ≠ .refused r := by
  simp only [memRead]
  split
  · split <;> simp
  · simp

/-- After a store, the stored cell reads as stored and every other existing cell as before. -/
theorem cellValue_store {x y : CellId} {v : Byte} {s : State} (hx : cellExists s.cfg x = true) (hy : cellExists s.cfg y = true) :
    cellValue y (s.setMem (s.mem.write (cellKey x) v)) = if y = x then some v else cellValue y s := by
  simp only [cellValue, setMem_mem, Memory.read_write]
  by_cases h : y = x
  · simp [h]
  · rw [if_neg h, if_neg fun hk => h (cellKey_injective hy hx hk)]

@[simp] theorem cellValue_setCh (x : CellId) (s : State) (c : Chan) (k : Channel) : cellValue x (s.setCh c k) = cellValue x s := rfl
@[simp] theorem cellValue_setSess (x : CellId) (s : State) (v : Session) : cellValue x (s.setSess v) = cellValue x s := rfl
@[simp] theorem cellValue_setResult (x : CellId) (s : State) (v : Result) : cellValue x (s.setResult v) = cellValue x s := rfl
@[simp] theorem cellValue_setRing (x : CellId) (s : State) (r : RingId) (p : Ptrs) : cellValue x (s.setRing r p) = cellValue x s := rfl
@[simp] theorem cellValue_setQueue (x : CellId) (s : State) (q : QueueId) (p : Ptrs) : cellValue x (s.setQueue q p) = cellValue x s := by
  cases q <;> rfl
@[simp] theorem cellValue_raiseFault (x : CellId) (s : State) (e : Raised) : cellValue x (raiseFault e s) = cellValue x s := rfl

/-- What a cell holds depends on the memory alone. -/
theorem cellValue_of_mem {x : CellId} {s t : State} (h : s.mem = t.mem) : cellValue x s = cellValue x t := by
  simp [cellValue, h]

end Sys2Proof.Machine
end

