-- ==== Sys2Proof/Laws/Buffers.lean ====
section
/-! SUPPORT. What a queue's frames and a ring's bytes become when a pointer moves or a cell is written, said once for every operation. -/

namespace Sys2Proof.Machine

variable {s t : State} {q : QueueId} {r : RingId}

/-- One more buffered cell, and it is the one at `end`. -/
theorem count_push {p : Ptrs} {n : Nat} (hs : p.start < n) (he : p.stop < n) (hf : p.isFull n = false) :
    ({ p with stop := nextIndex n p.stop } : Ptrs).count n = p.count n + 1 ∧ p.nth n (p.count n) = p.stop := by
  rw [isFull_eq_false] at hf
  rw [count_of_lt (p := { p with stop := nextIndex n p.stop }) hs (nextIndex_lt he), count_of_lt hs he]
  rw [nextIndex_of_lt he] at *
  refine ⟨?_, ?_⟩
  · simp only
    split <;> split <;> split <;> simp_all <;> omega
  · rw [nth_of_lt hs (by split <;> omega)]
    split <;> split <;> omega

/-- One buffered cell less, the one at `start`, and the others one place further on. -/
theorem count_pop {p : Ptrs} {n : Nat} (hs : p.start < n) (he : p.stop < n) (hne : p.isEmpty = false) :
    p.count n = ({ p with start := nextIndex n p.start } : Ptrs).count n + 1 ∧ p.nth n 0 = p.start ∧
      ∀ j, ({ p with start := nextIndex n p.start } : Ptrs).nth n j = p.nth n (j + 1) := by
  rw [isEmpty_eq_false] at hne
  rw [count_of_lt (p := { p with start := nextIndex n p.start }) (nextIndex_lt hs) he, count_of_lt hs he]
  refine ⟨?_, by simp [Ptrs.nth, Nat.mod_eq_of_lt hs], fun j => ?_⟩
  · rw [nextIndex_of_lt hs]
    simp only
    split <;> split <;> split <;> simp_all <;> omega
  · simp only [Ptrs.nth, nextIndex, Nat.mod_add_mod]
    congr 1
    omega

/-- The cells counted are the buffered ones. -/
theorem nth_holds {p : Ptrs} {n j : Nat} (hs : p.start < n) (he : p.stop < n) (hj : j < p.count n) : p.nth n j < n ∧ p.holds (p.nth n j) := by
  rw [count_of_lt hs he] at hj
  rw [nth_of_lt hs (by split at hj <;> omega)]
  unfold Ptrs.holds
  split at hj <;> split <;> omega

/-! ### Frames -/

/-- Two reads that agree on the indices read give the same bytes. -/
theorem mapM_range_congr {α : Type} {n : Nat} {f g : Nat → Option α} (h : ∀ i, i < n → f i = g i) :
    (List.range n).mapM f = (List.range n).mapM g := by
  have key : ∀ l : List Nat, (∀ i ∈ l, f i = g i) → l.mapM f = l.mapM g := by
    intro l
    induction l with
    | nil => intro _; rfl
    | cons a l ih =>
      intro h
      simp only [List.mapM_cons]
      rw [h a (by simp), ih fun i hi => h i (by simp [hi])]
  exact key _ fun i hi => h i (List.mem_range.mp hi)

/-- A slot holds the same frame when its length and the bytes up to it are the same. -/
theorem slotFrame_congr {k : Nat} (hl : cellValue (.len q k) t = cellValue (.len q k) s)
    (hd : ∀ v, cellValue (.len q k) s = some v → ∀ i, i < v.toNat → cellValue (.data q k i) t = cellValue (.data q k i) s) :
    slotFrame q k t = slotFrame q k s := by
  unfold slotFrame
  rw [hl]
  split
  · rfl
  · exact mapM_range_congr (hd _ ‹_›)

/-- A slot whose length cell and data cells are those of `xs` holds the frame `xs`. -/
theorem slotFrame_of_cells {k : Nat} {xs : List Byte} (hl : cellValue (.len q k) s = some (BitVec.ofNat 8 xs.length)) (hx : xs.length ≤ 12)
    (h : ∀ i, i < xs.length → cellValue (.data q k i) s = xs[i]?) : slotFrame q k s = some xs := by
  unfold slotFrame
  rw [hl]
  simp only [BitVec.toNat_ofNat]
  rw [Nat.mod_eq_of_lt (by omega), mapM_range_congr h]
  clear hl h hx
  induction xs using List.reverseRecOn with
  | nil => rfl
  | append_singleton xs x ih =>
    simp only [List.length_append, List.length_cons, List.length_nil, List.range_succ, List.mapM_append]
    rw [mapM_range_congr (g := fun i => xs[i]?) fun i hi => by simp [List.getElem?_append_left hi]]
    simp [ih]

/-- A queue's frames are the same when its pointers are, and every buffered slot holds the same frame. -/
theorem queueFrames_congr (hs : (s.queue q).start < queueSize s.cfg q) (he : (s.queue q).stop < queueSize s.cfg q)
    (hp : t.queue q = s.queue q) (hc : t.cfg = s.cfg)
    (h : ∀ k, k < queueSize s.cfg q → (s.queue q).holds k → slotFrame q k t = slotFrame q k s) : queueFrames q t = queueFrames q s := by
  unfold queueFrames queueCount
  rw [hp, hc]
  refine List.map_congr_left fun j hj => ?_
  obtain ⟨h1, h2⟩ := nth_holds hs he (List.mem_range.mp hj)
  exact h _ h1 h2

/-- `end` advanced over a slot that holds `xs`: the frame goes behind the others. -/
theorem queueFrames_push {xs : List Byte} (hs : (s.queue q).start < queueSize s.cfg q) (he : (s.queue q).stop < queueSize s.cfg q)
    (hf : queueFull q s = false) (hc : t.cfg = s.cfg)
    (hp : t.queue q = { s.queue q with stop := nextIndex (queueSize s.cfg q) (s.queue q).stop }) (hn : slotFrame q (s.queue q).stop t = some xs)
    (h : ∀ k, k < queueSize s.cfg q → (s.queue q).holds k → slotFrame q k t = slotFrame q k s) :
    queueFrames q t = queueFrames q s ++ [some xs] := by
  obtain ⟨h1, h2⟩ := count_push hs he hf
  unfold queueFrames queueCount
  rw [hp, hc, h1, List.range_succ, List.map_append]
  congr 1
  · refine List.map_congr_left fun j hj => ?_
    obtain ⟨h3, h4⟩ := nth_holds hs he (List.mem_range.mp hj)
    exact h _ h3 h4
  · show [slotFrame q ((s.queue q).nth _ _) t] = _
    rw [h2, hn]

/-- `start` advanced: the oldest frame is gone. -/
theorem queueFrames_pop (hs : (s.queue q).start < queueSize s.cfg q) (he : (s.queue q).stop < queueSize s.cfg q) (hne : queueEmpty q s = false)
    (hc : t.cfg = s.cfg) (hm : t.mem = s.mem)
    (hp : t.queue q = { s.queue q with start := nextIndex (queueSize s.cfg q) (s.queue q).start }) :
    queueFrames q t = (queueFrames q s).tail ∧ (queueFrames q s).head? = some (slotFrame q (s.queue q).start s) := by
  obtain ⟨h1, h2, h3⟩ := count_pop hs he hne
  unfold queueFrames queueCount
  rw [hp, hc, h1, List.range_succ_eq_map]
  simp only [List.map_cons, List.tail_cons, List.map_map, List.head?_cons, h2, and_true]
  refine List.map_congr_left fun j _ => ?_
  show slotFrame q (({ s.queue q with start := nextIndex _ _ } : Ptrs).nth _ j) t = _
  rw [h3]
  exact slotFrame_congr (cellValue_of_mem hm) fun _ _ _ _ => cellValue_of_mem hm

/-! ### Ring bytes -/

/-- A ring's bytes are the same when its pointers are, and every buffered cell is. -/
theorem ringBytes_congr (hs : (s.ring r).start < ringSize s.cfg r) (he : (s.ring r).stop < ringSize s.cfg r) (hp : t.ring r = s.ring r)
    (hc : t.cfg = s.cfg)
    (h : ∀ k, k < ringSize s.cfg r → (s.ring r).holds k → cellValue (.ring r k) t = cellValue (.ring r k) s) : ringBytes r t = ringBytes r s := by
  unfold ringBytes ringCount
  rw [hp, hc]
  refine List.map_congr_left fun j hj => ?_
  obtain ⟨h1, h2⟩ := nth_holds hs he (List.mem_range.mp hj)
  exact h _ h1 h2

/-- `end` advanced over a cell that holds `b`: the byte goes behind the others. -/
theorem ringBytes_push {b : Byte} (hs : (s.ring r).start < ringSize s.cfg r) (he : (s.ring r).stop < ringSize s.cfg r)
    (hf : ringFull r s = false) (hc : t.cfg = s.cfg)
    (hp : t.ring r = { s.ring r with stop := nextIndex (ringSize s.cfg r) (s.ring r).stop }) (hn : cellValue (.ring r (s.ring r).stop) t = some b)
    (h : ∀ k, k < ringSize s.cfg r → (s.ring r).holds k → cellValue (.ring r k) t = cellValue (.ring r k) s) :
    ringBytes r t = ringBytes r s ++ [some b] := by
  obtain ⟨h1, h2⟩ := count_push hs he hf
  unfold ringBytes ringCount
  rw [hp, hc, h1, List.range_succ, List.map_append]
  congr 1
  · refine List.map_congr_left fun j hj => ?_
    obtain ⟨h3, h4⟩ := nth_holds hs he (List.mem_range.mp hj)
    exact h _ h3 h4
  · show [cellValue (.ring r ((s.ring r).nth _ _)) t] = _
    rw [h2, hn]

/-- `start` advanced: the oldest byte is gone. -/
theorem ringBytes_pop (hs : (s.ring r).start < ringSize s.cfg r) (he : (s.ring r).stop < ringSize s.cfg r) (hne : ringEmpty r s = false)
    (hc : t.cfg = s.cfg) (hm : t.mem = s.mem)
    (hp : t.ring r = { s.ring r with start := nextIndex (ringSize s.cfg r) (s.ring r).start }) :
    ringBytes r t = (ringBytes r s).tail ∧ (ringBytes r s).head? = some (cellValue (.ring r (s.ring r).start) s) := by
  obtain ⟨h1, h2, h3⟩ := count_pop hs he hne
  unfold ringBytes ringCount
  rw [hp, hc, h1, List.range_succ_eq_map]
  simp only [List.map_cons, List.tail_cons, List.map_map, List.head?_cons, h2, and_true]
  refine List.map_congr_left fun j _ => ?_
  show cellValue (.ring r (({ s.ring r with start := nextIndex _ _ } : Ptrs).nth _ j)) t = _
  rw [h3]
  exact cellValue_of_mem hm

end Sys2Proof.Machine
end

