-- ==== Sys2Proof/Laws/Invariant.lean ====
section
/-! SUPPORT. The parts of the invariant carried from one state to another, so that an operation's proof says only what it changes. -/

namespace Sys2Proof.Machine

variable {s t : State} {c : Chan} {q : QueueId} {r : RingId}

/-- Every written cell stays written. -/
def KeepsWritten (s t : State) : Prop := ∀ x, written x s → written x t

/-- With the storage unchanged. -/
theorem keepsWritten_of_mem (h : t.mem = s.mem) : KeepsWritten s t := fun x hx => by
  unfold written at *
  rwa [cellValue_of_mem h]

/-- With one cell stored. -/
theorem keepsWritten_of_write {a : Nat} {v : Byte} (h : t.mem = s.mem.write a v) : KeepsWritten s t := by
  intro x hx
  unfold written cellValue at *
  rw [h, Memory.read_write]
  split
  · rfl
  · exact hx

/-- A queue with the same pointers and the same lengths of its buffered slots. -/
theorem queueInv_congr (h : QueueInv q s) (hp : t.queue q = s.queue q) (hc : t.cfg = s.cfg) (hm : KeepsWritten s t)
    (hl : ∀ k, k < queueSize s.cfg q → (s.queue q).holds k → cellValue (.len q k) t = cellValue (.len q k) s) : QueueInv q t := by
  refine ⟨by rw [hp, hc]; exact h.1, by rw [hp, hc]; exact h.2, fun k hk hh => ?_⟩
  rw [hc] at hk
  rw [hp] at hh
  obtain ⟨v, h1, h2, h3, h4⟩ := h.3 k hk hh
  exact ⟨v, by rw [hl k hk hh, h1], h2, h3, fun i hi => hm _ (h4 i hi)⟩

/-- A queue whose oldest frame is released. -/
theorem queueInv_release (h : QueueInv q s) (hne : queueEmpty q s = false)
    (hp : t.queue q = { s.queue q with start := nextIndex (queueSize s.cfg q) (s.queue q).start }) (hc : t.cfg = s.cfg) (hm : t.mem = s.mem) :
    QueueInv q t := by
  refine ⟨by rw [hp, hc]; exact nextIndex_lt h.1, by rw [hp, hc]; exact h.2, fun k hk hh => ?_⟩
  rw [hc] at hk
  rw [hp, holds_pop h.1 h.2 hne hk] at hh
  obtain ⟨v, h1, h2, h3, h4⟩ := h.3 k hk hh.1
  exact ⟨v, by rw [cellValue_of_mem hm, h1], h2, h3, fun i hi => keepsWritten_of_mem hm _ (h4 i hi)⟩

/-- A queue that a staged frame of `n` bytes is committed to. -/
theorem queueInv_commit {n : Nat} (h : QueueInv q s) (hf : queueFull q s = false) (hn : 1 ≤ n ∧ n ≤ 12)
    (hw : ∀ i, i < n → written (.data q (s.queue q).stop i) s)
    (hp : t.queue q = { s.queue q with stop := nextIndex (queueSize s.cfg q) (s.queue q).stop }) (hc : t.cfg = s.cfg)
    (hm : t.mem = s.mem.write (cellKey (.len q (s.queue q).stop)) (BitVec.ofNat 8 n)) : QueueInv q t := by
  refine ⟨by rw [hp, hc]; exact h.1, by rw [hp, hc]; exact nextIndex_lt h.2, fun k hk hh => ?_⟩
  rw [hc] at hk
  rw [hp, holds_push h.1 h.2 hf hk] at hh
  have he : cellExists s.cfg (.len q (s.queue q).stop) = true := decide_eq_true h.2
  have hv : ∀ x, cellValue x t = cellValue x (s.setMem (s.mem.write (cellKey (.len q (s.queue q).stop)) (BitVec.ofNat 8 n))) :=
    fun x => cellValue_of_mem hm
  rcases hh with hh | rfl
  · obtain ⟨v, h1, h2, h3, h4⟩ := h.3 k hk hh
    refine ⟨v, ?_, h2, h3, fun i hi => keepsWritten_of_write hm _ (h4 i hi)⟩
    rw [hv, cellValue_store (y := .len q k) he (decide_eq_true hk), if_neg, h1]
    rintro ⟨⟩
    exact not_holds_stop _ hh
  · refine ⟨BitVec.ofNat 8 n, ?_, ?_, ?_, ?_⟩
    · rw [hv, cellValue_store he he]
      simp
    · simp
      omega
    · simp
      omega
    · intro i hi
      exact keepsWritten_of_write hm _ (hw i (by simp at hi; omega))

/-- A ring with the same pointers. -/
theorem ringInv_congr (h : RingInv r s) (hp : t.ring r = s.ring r) (hc : t.cfg = s.cfg) (hm : KeepsWritten s t) : RingInv r t :=
  ⟨by rw [hp, hc]; exact h.1, by rw [hp, hc]; exact h.2,
    fun k hk hh => hm _ (h.3 k (by rw [hc] at hk; exact hk) (by rw [hp] at hh; exact hh))⟩

/-- A ring that a byte is stored in. -/
theorem ringInv_push {b : Byte} (h : RingInv r s) (hf : ringFull r s = false)
    (hp : t.ring r = { s.ring r with stop := nextIndex (ringSize s.cfg r) (s.ring r).stop }) (hc : t.cfg = s.cfg)
    (hm : t.mem = s.mem.write (cellKey (.ring r (s.ring r).stop)) b) : RingInv r t := by
  refine ⟨by rw [hp, hc]; exact h.1, by rw [hp, hc]; exact nextIndex_lt h.2, fun k hk hh => ?_⟩
  rw [hc] at hk
  rw [hp, holds_push h.1 h.2 hf hk] at hh
  rcases hh with hh | rfl
  · exact keepsWritten_of_write hm _ (h.3 k hk hh)
  · have he : cellExists s.cfg (.ring r (s.ring r).stop) = true := decide_eq_true h.2
    unfold written
    rw [cellValue_of_mem (t := s.setMem (s.mem.write (cellKey (.ring r (s.ring r).stop)) b)) hm, cellValue_store he he]
    simp

/-- A ring whose oldest byte is taken. -/
theorem ringInv_pop (h : RingInv r s) (hne : ringEmpty r s = false)
    (hp : t.ring r = { s.ring r with start := nextIndex (ringSize s.cfg r) (s.ring r).start }) (hc : t.cfg = s.cfg) (hm : t.mem = s.mem) :
    RingInv r t := by
  refine ⟨by rw [hp, hc]; exact nextIndex_lt h.1, by rw [hp, hc]; exact h.2, fun k hk hh => ?_⟩
  rw [hc] at hk
  rw [hp, holds_pop h.1 h.2 hne hk] at hh
  exact keepsWritten_of_mem hm _ (h.3 k hk hh.1)

/-- A channel with the same registers. -/
theorem channelInv_congr (h : ChannelInv c s) (hp : t.ch c = s.ch c) (hm : KeepsWritten s t) : ChannelInv c t := by
  constructor
  all_goals try rw [hp]
  · exact h.rxEn_iff
  · exact h.disarmed
  · exact h.armed
  · exact h.released
  · rw [queueEmpty, queue_txq, hp]
    exact h.frameHeld
  · exact h.byteIdx_le
  · exact h.bitIdx_le
  · rw [queue_rxq, hp]
    exact fun hr i hi => hm _ (h.staged hr i hi)

/-- The session's invariant where neither pointer it names moves and the popped slot keeps its length. -/
theorem sessionInv_congr (h : SessionInv s) (Q : ∀ q, QueueInv q s) (hse : t.sess = s.sess) (hm : KeepsWritten s t)
    (hr : ∀ d, (t.queue (.rxq d)).start = (s.queue (.rxq d)).start)
    (hre : ∀ d, queueEmpty (.rxq d) s = false → queueEmpty (.rxq d) t = false)
    (ht : ∀ d, (t.queue (.txq d)).stop = (s.queue (.txq d)).stop)
    (hl : ∀ q k, k < queueSize s.cfg q → (s.queue q).holds k → cellValue (.len q k) t = cellValue (.len q k) s) : SessionInv t := by
  unfold SessionInv at *
  rw [hse]
  cases hss : s.sess with
  | idle => trivial
  | filterLoad => trivial
  | txLen _ => trivial
  | popSend d idx rem =>
    simp only [hss] at h ⊢
    obtain ⟨h1, h2, v, h3, h4⟩ := h
    exact ⟨h1, hre d h2, v, by rw [hr]; exact (hl (.rxq d) _ (Q _).start_lt (holds_start h2)).trans h3, h4⟩
  | txData d idx len =>
    simp only [hss] at h ⊢
    exact ⟨h.1, h.2.1, h.2.2.1, by rw [ht]; exact fun i hi => hm _ (h.2.2.2 i hi)⟩

end Sys2Proof.Machine
end

