-- ==== Sys2Proof/Laws/Ops.lean ====
section
/-! SUPPORT. One lemma for each shared operation: all it can do when it answers, and when it answers. -/

namespace Sys2Proof.Machine

variable {s t : State} {c : Chan} {q : QueueId} {r : RingId}

/-! ### Reading slots -/

/-- The length read is the length cell's value. -/
theorem readLen_eq_next {k n : Nat} :
    readLen q k s = .next n ↔ cellExists s.cfg (.len q k) = true ∧ ∃ v, cellValue (.len q k) s = some v ∧ n = v.toNat := by
  simp only [readLen, andThen_eq_next, memRead_eq_next]
  constructor
  · rintro ⟨v, ⟨h, hv⟩, hn⟩
    exact ⟨h, v, hv, by simpa using hn.symm⟩
  · rintro ⟨h, v, hv, rfl⟩
    exact ⟨v, ⟨h, hv⟩, rfl⟩

/-- The bytes read are those of the cells, in order. -/
theorem readData_eq_next {k n : Nat} {xs : List Byte} (h : readData q k n s = .next xs) :
    xs.length = n ∧ ∀ i, i < n → xs[i]? = cellValue (.data q k i) s ∧ cellExists s.cfg (.data q k i) = true := by
  induction n generalizing xs with
  | zero =>
    cases h
    exact ⟨rfl, fun i hi => absurd hi (Nat.not_lt_zero i)⟩
  | succ n ih =>
    simp only [readData, andThen_eq_next, memRead_eq_next] at h
    obtain ⟨ys, hys, b, ⟨he, hb⟩, hx⟩ := h
    obtain ⟨hlen, hget⟩ := ih hys
    cases hx
    refine ⟨by simp [hlen], fun i hi => ?_⟩
    by_cases hin : i < n
    · obtain ⟨hg, hex⟩ := hget i hin
      exact ⟨by rw [List.getElem?_append_left (by omega), hg], hex⟩
    · obtain rfl : i = n := by omega
      exact ⟨by rw [← hlen]; simp [hlen, hb], he⟩

/-- Written bytes of an existing slot can be read. -/
theorem readData_of_written {k n : Nat} (hk : k < queueSize s.cfg q) (hn : n ≤ 12)
    (h : ∀ i, i < n → (cellValue (.data q k i) s).isSome = true) : ∃ xs, readData q k n s = .next xs := by
  induction n with
  | zero => exact ⟨[], rfl⟩
  | succ n ih =>
    obtain ⟨xs, hxs⟩ := ih (by omega) fun i hi => h i (by omega)
    obtain ⟨b, hb⟩ := Option.isSome_iff_exists.mp (h n (by omega))
    have hr : memRead (.data q k n) s = .next b := memRead_eq_next.mpr ⟨by simp [cellExists, hk]; omega, hb⟩
    exact ⟨xs ++ [b], by simp [readData, hxs, hr]⟩

/-! ### The compare unit -/

/-- Arming: a width in 1..255, the deadline that many ticks ahead, enabled, nothing pending. -/
theorem armUnit_eq_next {w : Nat} :
    armUnit c w s = .next t ↔ (1 ≤ w ∧ w ≤ 255) ∧
      t = s.setCh c { s.ch c with ocr := s.tcnt + BitVec.ofNat 8 w, matchEn := true, matchPend := false } := by
  simp only [armUnit]
  split
  · simp_all [eq_comm (a := t)]
  · simp_all

/-- Arming never faults. -/
theorem armUnit_ne_fault {w : Nat} (f : Fault) : armUnit c w s ≠ .fault f := by
  simp only [armUnit]
  split <;> simp

/-! ### Frame queues -/

/-- Staging writes one byte of the slot at `end`. -/
theorem qStage_eq_next {i : Nat} {v : Byte} :
    qStage q i v s = .next t ↔ cellExists s.cfg (.data q (s.queue q).stop i) = true ∧
      t = s.setMem (s.mem.write (cellKey (.data q (s.queue q).stop i)) v) := memWrite_eq_next

/-- Committing: on a full queue nothing but the ghost event, else the length written and `end` advanced. -/
theorem qCommit_eq_next {n : Nat} {ok : Bool} :
    qCommit q n s = .next (ok, t) ↔ (1 ≤ n ∧ n ≤ 12) ∧
      ((queueFull q s = true ∧ ok = false ∧ t = raiseFault (.queueOverflow q) s) ∨
       (queueFull q s = false ∧ ok = true ∧ cellExists s.cfg (.len q (s.queue q).stop) = true ∧
        t = (s.setMem (s.mem.write (cellKey (.len q (s.queue q).stop)) (BitVec.ofNat 8 n))).setQueue q
              { s.queue q with stop := nextIndex (queueSize s.cfg q) (s.queue q).stop })) := by
  simp only [qCommit]
  split
  · rename_i hn
    split
    · rename_i hf
      simp only [hf, Host.Outcome.next.injEq, Prod.mk.injEq, true_and, Bool.true_eq_false, false_and, or_false]
      exact ⟨fun h => ⟨hn, h.1.symm, h.2.symm⟩, fun h => ⟨h.2.1.symm, h.2.2.symm⟩⟩
    · rename_i hf
      simp only [andThen_eq_next, memWrite_eq_next]
      constructor
      · rintro ⟨s1, ⟨he, rfl⟩, h⟩
        cases h
        exact ⟨hn, .inr ⟨Bool.eq_false_iff.mpr hf, rfl, he, by simp⟩⟩
      · rintro ⟨-, ⟨h, -⟩ | ⟨-, rfl, he, rfl⟩⟩
        · exact absurd h hf
        · exact ⟨_, ⟨he, rfl⟩, by simp⟩
  · simp_all

/-- The head: of a queue that is not empty, the length and the bytes of the slot at `start`. -/
theorem qHead_eq_next {n : Nat} {xs : List Byte} :
    qHead q s = .next (n, xs) ↔ queueEmpty q s = false ∧ readLen q (s.queue q).start s = .next n ∧
      readData q (s.queue q).start n s = .next xs := by
  simp only [qHead]
  split
  · simp_all
  · simp only [andThen_eq_next, Host.Outcome.next.injEq, Prod.mk.injEq]
    constructor
    · rintro ⟨m, hm, ys, hys, rfl, rfl⟩
      exact ⟨Bool.eq_false_iff.mpr ‹_›, hm, hys⟩
    · rintro ⟨-, hm, hys⟩
      exact ⟨n, hm, xs, hys, rfl, rfl⟩

/-- Releasing: a queue that is not empty, `start` advanced. -/
theorem qRelease_eq_next :
    qRelease q s = .next t ↔ queueEmpty q s = false ∧
      t = s.setQueue q { s.queue q with start := nextIndex (queueSize s.cfg q) (s.queue q).start } := by
  simp only [qRelease]
  split
  · simp_all
  · simp_all [eq_comm (a := t)]

/-! ### Rings -/

/-- Storing a byte writes the cell at `end` and advances `end`. -/
theorem ringStore_eq_next {b : Byte} :
    ringStore r b s = .next t ↔ cellExists s.cfg (.ring r (s.ring r).stop) = true ∧
      t = (s.setMem (s.mem.write (cellKey (.ring r (s.ring r).stop)) b)).setRing r
            { s.ring r with stop := nextIndex (ringSize s.cfg r) (s.ring r).stop } := by
  simp only [ringStore, andThen_eq_next, memWrite_eq_next]
  constructor
  · rintro ⟨s1, ⟨he, rfl⟩, h⟩
    cases h
    exact ⟨he, by simp⟩
  · rintro ⟨he, rfl⟩
    exact ⟨_, ⟨he, rfl⟩, by simp⟩

/-- An outbound push: dropped on a full ring, else stored. -/
theorem pushOut_eq_next {b : Byte} :
    pushOut b s = .next t ↔
      (ringFull .ringOut s = true ∧ t = raiseFault (.transportOverflow .ringOut) s) ∨
      (ringFull .ringOut s = false ∧ ringStore .ringOut b s = .next t) := by
  simp only [pushOut]
  split <;> simp_all [eq_comm (a := t)]

/-- An inbound push: stored, on a full ring after the oldest byte is evicted, or dropped, by the policy. -/
theorem pushIn_eq_next {b : Byte} :
    pushIn b s = .next t ↔
      (ringFull .ringIn s = false ∧ ringStore .ringIn b s = .next t) ∨
      (ringFull .ringIn s = true ∧ s.cfg.inboundPolicy = .dropNewest ∧ t = raiseFault (.transportOverflow .ringIn) s) ∨
      (ringFull .ringIn s = true ∧ s.cfg.inboundPolicy = .dropOldest ∧
        ringStore .ringIn b ((raiseFault (.transportOverflow .ringIn) s).setRing .ringIn
          { s.ringIn with start := nextIndex s.cfg.ringInSize s.ringIn.start }) = .next t) := by
  simp only [pushIn]
  split
  · split <;> simp_all [eq_comm (a := t)]
  · simp_all

/-- A pop: of a ring that is not empty, the byte at `start`, and `start` advanced. -/
theorem ringPop_eq_next {b : Byte} :
    ringPop r s = .next (b, t) ↔ ringEmpty r s = false ∧ cellExists s.cfg (.ring r (s.ring r).start) = true ∧
      cellValue (.ring r (s.ring r).start) s = some b ∧
      t = s.setRing r { s.ring r with start := nextIndex (ringSize s.cfg r) (s.ring r).start } := by
  simp only [ringPop]
  split
  · simp_all
  · simp only [andThen_eq_next, memRead_eq_next, Host.Outcome.next.injEq, Prod.mk.injEq]
    constructor
    · rintro ⟨v, ⟨he, hv⟩, rfl, rfl⟩
      exact ⟨Bool.eq_false_iff.mpr ‹_›, he, hv, rfl⟩
    · rintro ⟨-, he, hv, rfl⟩
      exact ⟨b, ⟨he, hv⟩, rfl, rfl⟩

/-! ### Recoveries -/

/-- Aborting a transmission: of a queue that is not empty, the bus and the frame released, disarmed, the decoder enabled, idle. -/
theorem txAbort_eq_next :
    txAbort c s = .next t ↔ queueEmpty (.txq c) s = false ∧
      t = s.setCh c { s.ch c with
            drive := .passive, matchEn := false, matchPend := false, rxEn := true, st := .idle,
            txq := { (s.ch c).txq with start := nextIndex s.cfg.txqSlots (s.ch c).txq.start } } := by
  simp only [txAbort, andThen_eq_next, qRelease_eq_next]
  constructor
  · rintro ⟨s1, ⟨he, rfl⟩, h⟩
    cases h
    exact ⟨by simpa [queueEmpty] using he, by simp [queueSize]⟩
  · rintro ⟨he, rfl⟩
    exact ⟨_, ⟨by simpa [queueEmpty] using he, rfl⟩, by simp [queueSize]⟩

end Sys2Proof.Machine
end

