-- ==== Sys2Proof/Laws/PerInstr.lean ====
section
/-! SUPPORT. Facts about the instructions as syntax, one lemma for each constructor. -/

namespace Sys2Proof.Laws

/-- The number of bits of a code. -/
def codeBits : Code → Nat
  | .tag bytes => 8 * bytes.length
  | .command _ => 8
  | .label _ _ => 3

/-- The number of bits that `spec/opcode_table.json` gives the row: one or two tag bytes, a command byte, a 3-bit label, or no encoding
(`30_encoding.md` R106). -/
def tableBits : Instr → Option Nat
  | .tick => some 8
  | .edge _ _ => some 8
  | .timerMatch _ => some 8
  | .xfer _ => some 16
  | .housekeep => some 8
  | .sendreq _ => some 8
  | .dispatch => some 8
  | .linktimeout => some 8
  | .setinputs _ _ _ => some 16
  | .reset => some 8
  | .getSwitch => some 8
  | .getPower => some 8
  | .popRx0 => some 8
  | .popRx1 => some 8
  | .clrFilter => some 8
  | .setFilter => some 8
  | .tx0 => some 8
  | .tx1 => some 8
  | .cmdIgnored _ => some 8
  | .pShort _ => some 3
  | .pLong _ => some 3
  | .eod _ => some 3
  | .ifs _ => some 3
  | .aShort _ => some 3
  | .aLong _ => some 3
  | .sof _ => some 3
  | .crcInit => none
  | .crcBit _ _ => none
  | .crcByte _ _ => none
  | .crcFinal _ => none
  | .crc8 _ => none
  | .qEmpty _ => none
  | .qFull _ => none
  | .qStage _ _ _ => none
  | .qCommit _ _ => none
  | .qHead _ => none
  | .qRelease _ => none
  | .filterMatch _ => none
  | .filterClear => none
  | .filterBegin => none
  | .filterAppend _ => none
  | .filterCommit => none
  | .ringPushIn _ => none
  | .ringPushOut _ => none
  | .ringPop _ => none
  | .arm _ _ => none
  | .disarm _ => none

end Sys2Proof.Laws

namespace Sys2Proof.Laws.CodeShape

/-- The instruction's code has the length that its row of the table has. -/
def Statement (i : Instr) : Prop := (encode i).map codeBits = tableBits i

theorem tick : Statement .tick := rfl
theorem edge (c : Chan) (lvl : Level) : Statement (.edge c lvl) := rfl
theorem timerMatch (c : Chan) : Statement (.timerMatch c) := rfl
theorem xfer (rx : Byte) : Statement (.xfer rx) := rfl
theorem housekeep : Statement .housekeep := rfl
theorem sendreq (c : Chan) : Statement (.sendreq c) := rfl
theorem dispatch : Statement .dispatch := rfl
theorem linktimeout : Statement .linktimeout := rfl
theorem setinputs (sw : Byte) (acc : Bool) (hp : Bool) : Statement (.setinputs sw acc hp) := rfl
theorem reset : Statement .reset := rfl
theorem getSwitch : Statement .getSwitch := rfl
theorem getPower : Statement .getPower := rfl
theorem popRx0 : Statement .popRx0 := rfl
theorem popRx1 : Statement .popRx1 := rfl
theorem clrFilter : Statement .clrFilter := rfl
theorem setFilter : Statement .setFilter := rfl
theorem tx0 : Statement .tx0 := rfl
theorem tx1 : Statement .tx1 := rfl
theorem cmdIgnored (v : Byte) : Statement (.cmdIgnored v) := rfl
theorem pShort (c : Chan) : Statement (.pShort c) := rfl
theorem pLong (c : Chan) : Statement (.pLong c) := rfl
theorem eod (c : Chan) : Statement (.eod c) := rfl
theorem ifs (c : Chan) : Statement (.ifs c) := rfl
theorem aShort (c : Chan) : Statement (.aShort c) := rfl
theorem aLong (c : Chan) : Statement (.aLong c) := rfl
theorem sof (c : Chan) : Statement (.sof c) := rfl
theorem crcInit : Statement .crcInit := rfl
theorem crcBit (crc : Byte) (b : Bool) : Statement (.crcBit crc b) := rfl
theorem crcByte (crc : Byte) (x : Byte) : Statement (.crcByte crc x) := rfl
theorem crcFinal (crc : Byte) : Statement (.crcFinal crc) := rfl
theorem crc8 (bytes : List Byte) : Statement (.crc8 bytes) := rfl
theorem qEmpty (q : QueueId) : Statement (.qEmpty q) := rfl
theorem qFull (q : QueueId) : Statement (.qFull q) := rfl
theorem qStage (q : QueueId) (k : Nat) (v : Byte) : Statement (.qStage q k v) := rfl
theorem qCommit (q : QueueId) (n : Nat) : Statement (.qCommit q n) := rfl
theorem qHead (q : QueueId) : Statement (.qHead q) := rfl
theorem qRelease (q : QueueId) : Statement (.qRelease q) := rfl
theorem filterMatch (b : Byte) : Statement (.filterMatch b) := rfl
theorem filterClear : Statement .filterClear := rfl
theorem filterBegin : Statement .filterBegin := rfl
theorem filterAppend (b : Byte) : Statement (.filterAppend b) := rfl
theorem filterCommit : Statement .filterCommit := rfl
theorem ringPushIn (b : Byte) : Statement (.ringPushIn b) := rfl
theorem ringPushOut (b : Byte) : Statement (.ringPushOut b) := rfl
theorem ringPop (r : RingId) : Statement (.ringPop r) := rfl
theorem arm (c : Chan) (w : Nat) : Statement (.arm c w) := rfl
theorem disarm (c : Chan) : Statement (.disarm c) := rfl

end Sys2Proof.Laws.CodeShape
end

