-- ==== Sys2Proof/Tests/Slice0.lean ====
section
/-! SUPPORT. The tests. Expected results are the vectors and examples of `spec/` (cited `V<n>` of `95_test_vectors.md`, or by the rule whose example it is) or hand
calculation from a rule. Then, for each obligation with hypotheses, a witness that concrete states and operands meet them. -/

namespace Sys2Proof.Tests

open Sys2Proof.Machine

/-! ### Builders -/

/-- A field of the state an operation answers, none if it stops. -/
def answer {α : Type} (f : State → α) : Res State → Option α
  | .next t => some (f t)
  | .fault _ => none
  | .refused _ => none

/-- The name of a refusal, none if there is none. -/
def refusal : Res State → Option Refusal
  | .refused r => some r
  | .next _ => none
  | .fault _ => none

/-- Reset with channel 0 as given. -/
def with0 (k : Channel) : State := State.reset.setCh .ch0 k

/-- The bytes `xs` staged in slot `k` of a queue. -/
def staged (q : QueueId) (k : Nat) (xs : List Byte) (s : State) : State :=
  s.setMem ((List.range xs.length).foldl (fun m i => m.write (cellKey (.data q k i)) (xs.getD i 0#8)) s.mem)

/-- The frame `xs` in slot `k` of a queue. -/
def frameIn (q : QueueId) (k : Nat) (xs : List Byte) (s : State) : State :=
  (staged q k xs s).setMem ((staged q k xs s).mem.write (cellKey (.len q k)) (BitVec.ofNat 8 xs.length))

/-- One inbound byte in a session. -/
def inbound (b : Byte) (v : Session) : State :=
  { State.reset with ringIn := { start := 0, stop := 1 }, sess := v, mem := State.reset.mem.write (cellKey (.ring .ringIn 0)) b }

/-- Channel 0 receiving, the cursor at `b`/`i`, a pulse of `lvl` that has lasted `e` ticks. -/
def receiving (b i : Nat) (lvl : Level) (e : Nat) : State :=
  { with0 { Channel.reset with st := .receiving, byteIdx := b, bitIdx := i, sh := 0x46#8, busIn := lvl, matchEn := true } with
    tcnt := BitVec.ofNat 8 e }

/-- Channel 0 at the end of data of `xs`, its match pending. -/
def dataEnd (xs : List Byte) : State :=
  staged (.rxq .ch0) 0 xs (with0 { Channel.reset with st := .receiving, byteIdx := xs.length, matchPend := true })

/-- Channel 0 in the SOF wait, an Active pulse of `e` ticks on the wire. -/
def sofWait (e : Nat) : State := { with0 { Channel.reset with st := .sofWait, busIn := .active } with tcnt := BitVec.ofNat 8 e }

/-- Channel 0 sending the frame `8D 9C`, its match pending. -/
def sending (drive : Level) (b i : Nat) : State :=
  { frameIn (.txq .ch0) 0 [0x8D#8, 0x9C#8]
      (with0 { Channel.reset with
        st := .txSending, drive := drive, busIn := drive, rxEn := false, byteIdx := b, bitIdx := i, matchPend := true, txq := { start := 0, stop := 1 } }) with
    tcnt := 73#8 }

/-- Channel 0 waiting for the IFS with its match pending. -/
def waiting (bus : Level) : State :=
  { with0 { Channel.reset with st := .txArmed, busIn := bus, matchPend := true, txq := { start := 0, stop := 1 } } with tcnt := 48#8 }

/-- Reset with the frame `10 F6` at the head of `rxq[0]`. -/
def popped : State := frameIn (.rxq .ch0) 0 [0x10#8, 0xF6#8] (with0 { Channel.reset with rxq := { start := 0, stop := 1 } })

/-- Reset with the pointers of `rxq[0]` as given. -/
def rxPtrs (a b : Nat) : State := with0 { Channel.reset with rxq := { start := a, stop := b } }

/-- `ring_in` of four cells holding `11 12 13` (V73). -/
def fullIn (p : InboundPolicy) : State :=
  { State.reset with
    cfg := { Config.default with ringInSize := 4, inboundPolicy := p }
    ringIn := { start := 0, stop := 3 }
    mem := ((State.reset.mem.write (cellKey (.ring .ringIn 0)) 0x11#8).write (cellKey (.ring .ringIn 1)) 0x12#8).write (cellKey (.ring .ringIn 2)) 0x13#8 }

/-- `ring_out` of four cells holding `A1 A2 A3`, `sdr` 77 (V75). -/
def fullOut : State :=
  { State.reset with
    cfg := { Config.default with ringOutSize := 4 }
    ringOut := { start := 0, stop := 3 }, sdr := 0x77#8
    mem := ((State.reset.mem.write (cellKey (.ring .ringOut 0)) 0xA1#8).write (cellKey (.ring .ringOut 1)) 0xA2#8).write (cellKey (.ring .ringOut 2)) 0xA3#8 }

/-! ### Well-formedness: an ill-formed term for each check -/

theorem test_wf_qStage : (Instr.qStage (.rxq .ch0) 12 0#8).wf = false ∧ (Instr.qStage (.rxq .ch0) 11 0#8).wf = true := by decide
theorem test_wf_qCommit : (Instr.qCommit (.rxq .ch0) 0).wf = false ∧ (Instr.qCommit (.rxq .ch0) 13).wf = false ∧
    (Instr.qCommit (.rxq .ch0) 12).wf = true := by decide
theorem test_wf_arm : (Instr.arm .ch0 0).wf = false ∧ (Instr.arm .ch0 256).wf = false ∧ (Instr.arm .ch0 255).wf = true := by decide
theorem test_wf_cmdIgnored : (Instr.cmdIgnored 0x03#8).wf = false ∧ (Instr.cmdIgnored 0x08#8).wf = false ∧ (Instr.cmdIgnored 0x09#8).wf = true := by decide

/-! ### Decoding: each constructor's word, written out from `30_encoding.md` R98, R103 and R106 -/

theorem test_decode_operations :
    decode (.tag [0b00000000#8]) = .ok .tick ∧
    decode (.tag [0b00010011#8]) = .ok (.edge .ch1 .active) ∧ decode (.tag [0b00010010#8]) = .ok (.edge .ch1 .passive) ∧
    decode (.tag [0b00010001#8]) = .ok (.edge .ch0 .active) ∧
    decode (.tag [0b00100001#8]) = .ok (.timerMatch .ch1) ∧
    decode (.tag [0b00110000#8, 0b10001101#8]) = .ok (.xfer 0x8D#8) ∧
    decode (.tag [0b01000000#8]) = .ok .housekeep ∧
    decode (.tag [0b01010001#8]) = .ok (.sendreq .ch1) ∧
    decode (.tag [0b01100000#8]) = .ok .dispatch ∧
    decode (.tag [0b01110000#8]) = .ok .linktimeout ∧
    decode (.tag [0b10000010#8, 0b01011010#8]) = .ok (.setinputs 0x5A#8 false true) ∧
    decode (.tag [0b10000001#8, 0b01011010#8]) = .ok (.setinputs 0x5A#8 true false) ∧
    decode (.tag [0b11110000#8]) = .ok .reset := by decide

theorem test_decode_commands :
    decode (.command 0x01#8) = .ok .getSwitch ∧ decode (.command 0x02#8) = .ok .getPower ∧ decode (.command 0x03#8) = .ok .popRx0 ∧
    decode (.command 0x04#8) = .ok .popRx1 ∧ decode (.command 0x05#8) = .ok .clrFilter ∧ decode (.command 0x06#8) = .ok .setFilter ∧
    decode (.command 0x07#8) = .ok .tx0 ∧ decode (.command 0x08#8) = .ok .tx1 ∧ decode (.command 0x00#8) = .ok (.cmdIgnored 0x00#8) ∧
    decode (.command 0xFF#8) = .ok (.cmdIgnored 0xFF#8) := by decide

theorem test_decode_symbols :
    decode (.label .ch0 0b000#3) = .ok (.pShort .ch0) ∧ decode (.label .ch1 0b001#3) = .ok (.pLong .ch1) ∧ decode (.label .ch0 0b010#3) = .ok (.eod .ch0) ∧
    decode (.label .ch0 0b011#3) = .ok (.ifs .ch0) ∧ decode (.label .ch1 0b100#3) = .ok (.aShort .ch1) ∧ decode (.label .ch0 0b101#3) = .ok (.aLong .ch0) ∧
    decode (.label .ch0 0b110#3) = .ok (.sof .ch0) := by decide

/-- Bytes that are no tag, and the label that is no symbol (R106). -/
theorem test_decode_rejects :
    decode (.tag []) = .error .noTag ∧ decode (.tag [0x01#8]) = .error (.unknownTag 0x01#8) ∧ decode (.tag [0x30#8]) = .error (.truncated 0x30#8) ∧
    decode (.tag [0x00#8, 0x00#8]) = .error .trailingBytes ∧ decode (.tag [0x84#8, 0x00#8]) = .error (.unknownTag 0x84#8) ∧
    decode (.label .ch0 0b111#3) = .error (.noSuchLabel 0b111#3) := by decide

/-- The primitives have no encoding (R106). -/
theorem test_primitives_have_no_code :
    ∀ i ∈ [Instr.crcInit, .crcBit 0#8 true, .crcByte 0#8 0#8, .crcFinal 0#8, .crc8 [], .qEmpty (.rxq .ch0), .qFull (.rxq .ch0), .qStage (.rxq .ch0) 0 0#8,
      .qCommit (.rxq .ch0) 1, .qHead (.rxq .ch0), .qRelease (.rxq .ch0), .filterMatch 0#8, .filterClear, .filterBegin, .filterAppend 0#8, .filterCommit,
      .ringPushIn 0#8, .ringPushOut 0#8, .ringPop .ringIn, .arm .ch0 1, .disarm .ch0], encode i = none := by decide

/-- Table words: a 16-bit row's first tag byte is bits 15..8; shared numbers (log 14). -/
theorem test_decodeTableWord :
    decodeTableWord 8 0x13 = some (.edge .ch1 .active) ∧ decodeTableWord 16 0x308D = some (.xfer 0x8D#8) ∧
    decodeTableWord 16 0x815A = some (.setinputs 0x5A#8 true false) ∧ decodeTableWord 8 0x06 = some .setFilter ∧
    decodeTableWord 3 0b101 = some (.aLong .ch0) ∧ decodeTableWord 3 0b111 = none := by decide

/-- The placed word is the one the next step runs: `TICK`, `XFER 8D`, the command `TX1`, the symbol `SOF`. -/
theorem test_withFetchWord :
    answer (fun t => t.tcnt) (step (State.reset.withFetchWord 8 0x00)) = some 1#8 ∧
    answer (fun t => (t.ringIn.stop, t.linkActive)) (step (State.reset.withFetchWord 16 0x308D)) = some (1, true) ∧
    answer (fun t => t.sess) (step (State.reset.withFetchWord 8 0x08)) = some (.txLen .ch1) ∧
    answer (fun t => t.ch0.st) (step (State.reset.withFetchWord 3 0b110)) = some .receiving := by decide

/-- Nothing scheduled, an unknown tag, an ill-formed configuration. -/
theorem test_step_edges :
    answer (fun t => t.tcnt) (step State.reset) = some 0#8 ∧
    refusal (step { State.reset with sched := [0x01#8] }) = some (.undecodable (.unknownTag 0x01#8)) ∧
    refusal (step { State.reset with cfg := { Config.default with rxqSlots := 1 }, sched := [0x00#8] }) = some .illFormedConfig := by decide

/-! ### Configuration -/

/-- The default timing of `00_scope.md` R6 at 8 µs, and it is well formed (R8). -/
theorem test_default_timing :
    Timing.ofTickUs 8 = { rxShortMin := 5, rxLongMin := 12, rxLongMax := 21, rxSofMin := 21, rxSofMax := 30, rxEodMin := 21,
                          txShort := 8, txLong := 16, txSof := 25, txIfs := 38 } ∧
    Config.default.wf = true ∧ ({ Config.default with ringOutSize := 1 } : Config).wf = false := by decide

/-! ### The timer -/

/-- V89. -/
theorem test_tick_wraps_and_matches :
    answer (fun t => (t.tcnt, t.ch0.matchPend)) (exec .tick { with0 { Channel.reset with matchEn := true, ocr := 0#8 } with tcnt := 255#8 }) =
      some (0#8, true) := by decide
/-- V93. -/
theorem test_tick_disarmed : answer (fun t => t.ch0.matchPend) (exec .tick (with0 { Channel.reset with ocr := 1#8 })) = some false := by decide
/-- V90. -/
theorem test_arm_wraps :
    answer (fun t => (t.ch0.ocr, t.ch0.matchEn, t.ch0.matchPend)) (exec (.arm .ch0 21) { State.reset with tcnt := 237#8 }) =
      some (2#8, true, false) := by decide
/-- I16: the widths that cannot be expressed. -/
theorem test_arm_refuses : refusal (exec (.arm .ch0 0) State.reset) = some .armWidth ∧ refusal (exec (.arm .ch0 256) State.reset) = some .armWidth := by decide
/-- V92. -/
theorem test_disarm :
    answer (fun t => (t.ch0.matchEn, t.ch0.matchPend)) (exec (.disarm .ch0) (with0 { Channel.reset with matchEn := true, matchPend := true })) =
      some (false, false) := by decide

/-! ### Receiver and transmitter -/

/-- V37, V36: the lower end of the SOF window. -/
theorem test_edge_sof_window :
    answer (fun t => (t.ch0.st, t.ch0.ocr, t.ch0.matchEn)) (exec (.edge .ch0 .passive) (sofWait 21)) = some (.receiving, 42#8, true) ∧
    answer (fun t => t.ch0.st) (exec (.edge .ch0 .passive) (sofWait 20)) = some .idle := by decide
/-- V35 row 10: the eighth bit stores `8D`. -/
theorem test_edge_stores_a_byte :
    answer (fun t => (t.ch0.sh, t.ch0.byteIdx, t.ch0.bitIdx, cellValue (.data (.rxq .ch0) 0 0) t)) (exec (.edge .ch0 .passive) (receiving 0 7 .active 8)) =
      some (0x8D#8, 1, 0, some 0x8D#8) := by decide
/-- V35, last row: the frame `8D 9C` is committed. -/
theorem test_match_commits :
    answer (fun t => (t.ch0.st, t.ch0.rxq.stop, cellValue (.len (.rxq .ch0) 0) t)) (exec (.timerMatch .ch0) (dataEnd [0x8D#8, 0x9C#8])) =
      some (.idle, 1, some 2#8) := by decide
/-- `44_vpw_transmitter.md` R195, the example: the first bit of `8D`. -/
theorem test_match_sends_a_bit :
    answer (fun t => (t.ch0.drive, t.ch0.ocr, t.ch0.byteIdx, t.ch0.bitIdx)) (exec (.timerMatch .ch0) (sending .active 0 0)) =
      some (.passive, 89#8, 0, 1) := by decide
/-- V58. -/
theorem test_housekeep :
    let k : Channel := { Channel.reset with txq := { start := 0, stop := 1 } }
    answer (fun t => (t.ch0.st, t.ch0.ocr, t.ch1.st, t.ch1.ocr)) (exec .housekeep { State.reset with ch0 := k, ch1 := k, tcnt := 7#8 }) =
      some (.txArmed, 45#8, .txArmed, 45#8) := by decide
/-- `44_vpw_transmitter.md` R191, the example. -/
theorem test_sendreq :
    answer (fun t => (t.ch0.st, t.ch0.ocr)) (exec (.sendreq .ch0) { with0 { Channel.reset with txq := { start := 0, stop := 1 } } with tcnt := 10#8 }) =
      some (.txArmed, 48#8) := by decide

/-! ### Symbols (`30_encoding.md` R91: the bit of each data symbol) -/

theorem test_pShort : answer (fun t => (t.ch0.sh, t.ch0.bitIdx)) (exec (.pShort .ch0) (receiving 0 0 .passive 5)) = some (0x8C#8, 1) := by decide
theorem test_pLong : answer (fun t => (t.ch0.sh, t.ch0.bitIdx)) (exec (.pLong .ch0) (receiving 0 0 .passive 12)) = some (0x8D#8, 1) := by decide
theorem test_aShort : answer (fun t => (t.ch0.sh, t.ch0.bitIdx)) (exec (.aShort .ch0) (receiving 0 0 .active 11)) = some (0x8D#8, 1) := by decide
theorem test_aLong : answer (fun t => (t.ch0.sh, t.ch0.bitIdx)) (exec (.aLong .ch0) (receiving 0 0 .active 20)) = some (0x8C#8, 1) := by decide
theorem test_sof : answer (fun t => t.ch0.st) (exec (.sof .ch0) (sofWait 29)) = some .receiving ∧
    refusal (exec (.sof .ch0) (sofWait 30)) = some .symbolAbsent := by decide
theorem test_eod : answer (fun t => (t.ch0.st, t.ch0.rxq.stop)) (exec (.eod .ch0) (dataEnd [0x8D#8])) = some (.idle, 1) := by decide
/-- V56, R194: the example. -/
theorem test_ifs : answer (fun t => (t.ch0.st, t.ch0.drive, t.ch0.rxEn, t.ch0.ocr)) (exec (.ifs .ch0) (waiting .passive)) =
    some (.txSending, .active, false, 73#8) := by decide

/-! ### CRC (V1 to V28 and the trace of section 2.1) -/

theorem test_crcInit : answer (fun t => t.result) (exec .crcInit State.reset) = some (.byte 0xFF#8) := by decide
theorem test_crcBit : answer (fun t => t.result) (exec (.crcBit 0xFF#8 false) State.reset) = some (.byte 0xE3#8) := by decide
theorem test_crcBit_cases :
    crcBitStep 0xFF#8 true = 0xFE#8 ∧ crcBitStep 0x00#8 false = 0x00#8 ∧ crcBitStep 0x00#8 true = 0x1D#8 ∧ crcBitStep 0x80#8 true = 0x00#8 ∧
    crcBitStep 0x80#8 false = 0x1D#8 ∧ crcBitStep 0x7F#8 true = 0xE3#8 ∧ crcBitStep 0x7F#8 false = 0xFE#8 := by decide
theorem test_crcByte : answer (fun t => t.result) (exec (.crcByte 0xFF#8 0x8D#8) State.reset) = some (.byte 0x63#8) := by decide +kernel
theorem test_crcFinal : answer (fun t => t.result) (exec (.crcFinal 0x63#8) State.reset) = some (.byte 0x9C#8) := by decide
theorem test_crc8 :
    crc8 [] = 0x00#8 ∧ crc8 [0x8D#8, 0x22#8] = 0xF1#8 ∧ crc8 [0x8D#8, 0x22#8, 0x11#8, 0x01#8, 0x01#8] = 0x30#8 ∧ crc8 [0x3D#8, 0x11#8, 0x00#8] = 0xA4#8 ∧
    crc8 [0x68#8, 0x6A#8, 0xF1#8, 0x01#8, 0x00#8] = 0x17#8 := by decide +kernel
theorem test_crc8_residue : answer (fun t => t.result) (exec (.crc8 [0x8D#8, 0x9C#8]) State.reset) = some (.byte 0x3B#8) := by decide +kernel

/-! ### Frame queue (V60 to V65) -/

theorem test_qEmpty : answer (fun t => t.result) (exec (.qEmpty (.rxq .ch0)) (rxPtrs 0 0)) = some (.flag true) ∧
    answer (fun t => t.result) (exec (.qEmpty (.rxq .ch0)) (rxPtrs 0 3)) = some (.flag false) := by decide
theorem test_qFull : answer (fun t => t.result) (exec (.qFull (.rxq .ch0)) (rxPtrs 0 0)) = some (.flag false) ∧
    answer (fun t => t.result) (exec (.qFull (.rxq .ch0)) (rxPtrs 0 3)) = some (.flag true) := by decide
theorem test_qCommit_full :
    answer (fun t => (t.result, t.ch0.rxq, t.raised)) (exec (.qCommit (.rxq .ch0) 2) (rxPtrs 0 3)) =
      some (.commit false, { start := 0, stop := 3 }, [.queueOverflow (.rxq .ch0)]) := by decide
theorem test_qCommit_wraps :
    answer (fun t => (t.result, t.ch0.rxq, cellValue (.len (.rxq .ch0) 3) t)) (exec (.qCommit (.rxq .ch0) 2) (rxPtrs 1 3)) =
      some (.commit true, { start := 1, stop := 0 }, some 2#8) := by decide
theorem test_qRelease_wraps : answer (fun t => t.ch0.rxq) (exec (.qRelease (.rxq .ch0)) (rxPtrs 3 1)) = some { start := 0, stop := 1 } ∧
    refusal (exec (.qRelease (.rxq .ch0)) (rxPtrs 2 2)) = some .emptyQueue := by decide
theorem test_qStage :
    answer (fun t => (t.ch0.rxq, cellValue (.data (.rxq .ch0) 2 0) t)) (exec (.qStage (.rxq .ch0) 0 0x8D#8) (rxPtrs 2 2)) =
      some ({ start := 2, stop := 2 }, some 0x8D#8) := by decide
theorem test_qHead : answer (fun t => t.result) (exec (.qHead (.rxq .ch0)) popped) = some (.frame 2 [0x10#8, 0xF6#8]) ∧
    refusal (exec (.qHead (.rxq .ch0)) State.reset) = some .emptyQueue := by decide

/-! ### Header filter (V67 to V72) -/

theorem test_filterMatch :
    answer (fun t => t.result) (exec (.filterMatch 0x3D#8) State.reset) = some (.flag true) ∧
    answer (fun t => t.result) (exec (.filterMatch 0x3D#8) { State.reset with filtActive := [0x8D#8] }) = some (.flag false) ∧
    answer (fun t => t.result) (exec (.filterMatch 0x3D#8) { State.reset with filtActive := [0x8D#8, 0x3D#8, 0x8D#8] }) = some (.flag true) := by decide
theorem test_filterClear : answer (fun t => (t.filtActive, t.filtStage)) (exec .filterClear { State.reset with filtActive := [0x8D#8], filtStage := [0x3D#8] }) =
    some ([], []) := by decide
theorem test_filterBegin : answer (fun t => (t.filtActive, t.filtStage)) (exec .filterBegin { State.reset with filtActive := [0x8D#8], filtStage := [0x3D#8] }) =
    some ([0x8D#8], []) := by decide
theorem test_filterAppend :
    answer (fun t => t.filtStage) (exec (.filterAppend 0x8D#8) State.reset) = some [0x8D#8] ∧
    answer (fun t => t.filtStage.length) (exec (.filterAppend 0x18#8) { State.reset with filtStage := List.replicate 8 0x10#8 }) = some 8 := by decide
theorem test_filterCommit : answer (fun t => t.filtActive) (exec .filterCommit { State.reset with filtActive := [0x8D#8], filtStage := [0x3D#8] }) =
    some [0x3D#8] := by decide

/-! ### Rings and the exchange (V73 to V76) -/

theorem test_ringPushIn :
    answer (fun t => (t.ringIn, ringBytes .ringIn t)) (exec (.ringPushIn 0x14#8) (fullIn .dropOldest)) =
      some ({ start := 1, stop := 0 }, [some 0x12#8, some 0x13#8, some 0x14#8]) ∧
    answer (fun t => (t.ringIn, ringBytes .ringIn t)) (exec (.ringPushIn 0x14#8) (fullIn .dropNewest)) =
      some ({ start := 0, stop := 3 }, [some 0x11#8, some 0x12#8, some 0x13#8]) := by decide
theorem test_ringPushOut : answer (fun t => (t.ringOut, t.raised)) (exec (.ringPushOut 0xA4#8) fullOut) =
    some ({ start := 0, stop := 3 }, [.transportOverflow .ringOut]) := by decide
theorem test_ringPop : answer (fun t => (t.result, t.ringOut.start)) (exec (.ringPop .ringOut) fullOut) = some (.byte 0xA1#8, 1) ∧
    refusal (exec (.ringPop .ringIn) State.reset) = some .emptyRing := by decide
theorem test_xfer : answer (fun t => (t.result, t.sdr, t.linkActive, t.ringOut.start)) (exec (.xfer 0x00#8) fullOut) = some (.byte 0x77#8, 0xA1#8, true, 1) := by decide
theorem test_xfer_underflow :
    answer (fun t => (t.result, t.sdr, ringBytes .ringIn t)) (exec (.xfer 0x55#8) { State.reset with sdr := 0xA3#8 }) =
      some (.byte 0xA3#8, 0xA3#8, [some 0x55#8]) := by decide

/-! ### Dispatcher (V66, V78 to V88) -/

theorem test_getSwitch : answer (fun t => ringBytes .ringOut t) (exec .getSwitch { State.reset with switchCode := 0x5A#8 }) = some [some 0x5A#8] := by decide
theorem test_getPower : answer (fun t => ringBytes .ringOut t) (exec .getPower { State.reset with hostPwrRail := true }) = some [some 0x02#8] := by decide
theorem test_popRx0 : answer (fun t => (ringBytes .ringOut t, t.sess)) (exec .popRx0 popped) = some ([some 0x01#8], .popSend .ch0 0 2) := by decide
theorem test_popRx1 : answer (fun t => (ringBytes .ringOut t, t.sess)) (exec .popRx1 popped) = some ([some 0x00#8], .idle) := by decide
theorem test_clrFilter : answer (fun t => t.filtActive) (exec .clrFilter { State.reset with filtActive := [0x8D#8] }) = some [] := by decide
/-- V86, the second `06`. -/
theorem test_setFilter :
    answer (fun t => (t.filtActive, t.filtStage, t.sess)) (exec .setFilter { State.reset with filtStage := [0x8D#8], sess := .filterLoad }) =
      some ([0x8D#8], [], .filterLoad) := by decide
theorem test_tx0 : answer (fun t => t.sess) (exec .tx0 State.reset) = some (.txLen .ch0) := by decide
theorem test_tx1 : answer (fun t => t.sess) (exec .tx1 State.reset) = some (.txLen .ch1) ∧
    refusal (exec .tx1 { State.reset with sess := .txLen .ch0 }) = some .sessionOpen := by decide
theorem test_cmdIgnored : answer (fun t => t == State.reset) (exec (.cmdIgnored 0x09#8) State.reset) = some true ∧
    refusal (exec (.cmdIgnored 0x05#8) State.reset) = some .notAnIgnoredByte := by decide
/-- V88, step 3: the last frame byte. -/
theorem test_dispatch_popSend :
    answer (fun t => (ringBytes .ringOut t, t.ch0.rxq.start, t.sess)) (exec .dispatch { popped with sess := .popSend .ch0 1 1 }) =
      some ([some 0xF6#8], 1, .idle) := by decide
/-- `07 02 0F` (V66, with room): the frame `0F 80` is queued. -/
theorem test_dispatch_txData :
    answer (fun t => (slotFrame (.txq .ch0) 0 t, t.ch0.txq.stop, t.sess)) (exec .dispatch (inbound 0x0F#8 (.txData .ch0 0 2))) =
      some (some [0x0F#8, 0x80#8], 1, .idle) := by decide

/-! ### Environment -/

theorem test_linktimeout : answer (fun t => t.linkActive) (exec .linktimeout { State.reset with linkActive := true }) = some false := by decide
theorem test_setinputs : answer (fun t => (t.switchCode, t.accRail, t.hostPwrRail)) (exec (.setinputs 0x5A#8 true false) State.reset) =
    some (0x5A#8, true, false) := by decide
/-- V94. -/
theorem test_reset :
    answer (fun t => (t.ch0.st, t.ch0.rxEn, t.ch0.drive, t.ch0.matchEn)) (exec .reset (sending .active 1 3)) = some (.idle, true, .passive, false) ∧
    answer (fun t => (t.ch0.txq, t.ringIn, t.filtActive)) (exec .reset (sending .active 1 3)) =
      some ({ start := 0, stop := 0 }, { start := 0, stop := 0 }, []) := by decide

/-! ### Witnesses: concrete states and operands that meet the hypotheses of each obligation, clause by clause where it has several, at the ends of a range -/

/-- Channel 0 waits to send the one-byte frame `00`, its match due at the next tick; a byte waits in `ring_in`; `TICK` is scheduled. -/
def busy : State :=
  { frameIn (.txq .ch0) 0 [0x00#8]
      (with0 { Channel.reset with st := .txArmed, matchEn := true, ocr := 1#8, txq := { start := 0, stop := 1 } }) with
    ringIn := { start := 0, stop := 1 }, sched := [0x00#8]
    mem := (frameIn (.txq .ch0) 0 [0x00#8] State.reset).mem.write (cellKey (.ring .ringIn 0)) 0x01#8 }

theorem busy_queue (q : QueueId) : QueueInv q busy := by
  rcases q with c | c <;> cases c
  · exact ⟨by decide, by decide, fun k _ hh => by rcases hh with ⟨_, _, h⟩ | ⟨h, _⟩ <;> exact absurd h (Nat.not_lt_zero _)⟩
  · exact ⟨by decide, by decide, fun k _ hh => by rcases hh with ⟨_, _, h⟩ | ⟨h, _⟩ <;> exact absurd h (Nat.not_lt_zero _)⟩
  · refine ⟨by decide, by decide, fun k _ hh => ?_⟩
    rcases hh with ⟨_, _, h⟩ | ⟨h, _⟩
    · obtain rfl : k = 0 := Nat.lt_one_iff.mp h
      refine ⟨1#8, by decide, by decide, by decide, fun i hi => ?_⟩
      obtain rfl : i = 0 := Nat.lt_one_iff.mp hi
      show (cellValue _ busy).isSome = true
      decide
    · exact absurd h (by decide)
  · exact ⟨by decide, by decide, fun k _ hh => by rcases hh with ⟨_, _, h⟩ | ⟨h, _⟩ <;> exact absurd h (Nat.not_lt_zero _)⟩

theorem busy_ring (r : RingId) : RingInv r busy := by
  cases r
  · refine ⟨by decide, by decide, fun k _ hh => ?_⟩
    rcases hh with ⟨_, _, h⟩ | ⟨h, _⟩
    · obtain rfl : k = 0 := Nat.lt_one_iff.mp h
      show (cellValue _ busy).isSome = true
      decide
    · exact absurd h (by decide)
  · exact ⟨by decide, by decide, fun k _ hh => by rcases hh with ⟨_, _, h⟩ | ⟨h, _⟩ <;> exact absurd h (Nat.not_lt_zero _)⟩

theorem busy_inv : BlockInv busy where
  cfg := by decide
  mem := by decide
  channels := by
    intro c
    cases c
    · exact ⟨by decide, by decide, by decide, by decide, by decide, by decide, by decide, fun h => absurd h (by decide)⟩
    · exact ⟨by decide, by decide, by decide, by decide, by decide, by decide, by decide, fun h => absurd h (by decide)⟩
  queues := busy_queue
  rings := busy_ring
  active_le := by decide
  stage_le := by decide
  session := trivial
  xferMode := rfl

theorem witness_DecodeOfEncodeIsTheInstruction :
    (Instr.cmdIgnored 0x09#8).wf = true ∧ encode (.cmdIgnored 0x09#8) = some (.command 0x09#8) ∧
    (Instr.edge .ch1 .passive).wf = true ∧ encode (.edge .ch1 .passive) = some (.tag [0x12#8]) := by decide
theorem witness_EncodeOfDecodeIsTheCode : decode (.label .ch1 0b110#3) = .ok (.sof .ch1) := by decide
theorem witness_StepRunsTheNextOperation :
    busy.cfg.wf = true ∧ decodeOp busy.sched = .ok (.tick, []) ∧ State.reset.sched = [] ∧
    ({ State.reset with sched := [0x14#8] } : State).sched ≠ [] ∧ decodeOp [0x14#8] = .error (.unknownTag 0x14#8) := by decide
theorem witness_StepKeepsTheInvariant : BlockInv busy ∧ ∃ t, step busy = .next t := ⟨busy_inv, _, rfl⟩
theorem witness_StepNeverFaults : BlockInv busy := busy_inv
theorem witness_EnabledOperationsComplete :
    BlockInv busy ∧ isOperation .dispatch = true ∧ opEnabled .dispatch busy = true ∧ isOperation .tick = true ∧ opEnabled .tick busy = true :=
  ⟨busy_inv, by decide⟩
theorem witness_StorageStaysCanonical : busy.mem.wf ∧ ∃ t, exec (.xfer 0x01#8) busy = .next t := ⟨busy_inv.mem, _, rfl⟩
theorem witness_StoresOnlyItsOwnCells :
    (Instr.xfer 0x01#8 ≠ .reset ∧ cellExists busy.cfg (.ring .ringIn 0) = true ∧ CellId.ring .ringIn 0 ∉ storedCells (.xfer 0x01#8) busy) ∧
    ∃ t, exec (.xfer 0x01#8) busy = .next t := ⟨by decide, _, rfl⟩
theorem witness_CellsReadAsLastWritten :
    cellExists State.reset.cfg (.data (.txq .ch1) 3 11) = true ∧ cellExists State.reset.cfg (.ring .ringOut 31) = true ∧
    CellId.ring .ringOut 31 ≠ .data (.txq .ch1) 3 11 := by decide
theorem witness_OnlyTickMovesTheCounter : Instr.linktimeout ≠ .tick ∧ Instr.linktimeout ≠ .reset ∧ ∃ t, exec .linktimeout busy = .next t :=
  ⟨by decide, by decide, _, rfl⟩
theorem witness_ChannelsAreIndependent : Chan.ch1 ≠ .ch0 ∧ ∃ t, exec (.edge .ch0 .active) busy = .next t := ⟨by decide, _, rfl⟩
theorem witness_PointersHaveOneWriter :
    (∃ t, exec (.edge .ch0 .active) busy = .next t) ∧ (∃ t, exec (.timerMatch .ch0) (waiting .active) = .next t) ∧
    (∃ t, exec .dispatch busy = .next t) ∧ (∃ t, exec (.xfer 0x01#8) busy = .next t) ∧ ringFull .ringIn busy = false ∧
    (fullIn .dropNewest).cfg.inboundPolicy = .dropNewest := ⟨⟨_, rfl⟩, ⟨_, rfl⟩, ⟨_, rfl⟩, ⟨_, rfl⟩, by decide, by decide⟩
theorem witness_ProtocolMovesAreTheListedOnes :
    isOperation (.edge .ch0 .passive) = true ∧ ∃ t, exec (.edge .ch0 .passive) (sofWait 21) = .next t ∧ (t.ch .ch0).st ≠ ((sofWait 21).ch .ch0).st :=
  ⟨by decide, _, rfl, by decide⟩
theorem witness_DisabledOperationsAreRefused :
    (waiting .passive).ch0.matchPend = true ∧ (State.reset.ch .ch0).matchPend = false ∧ (busy.ch .ch0).st ≠ .idle ∧
    (State.reset.ch .ch0).txq.start = (State.reset.ch .ch0).txq.stop ∧ State.reset.ringIn.start = State.reset.ringIn.stop ∧
    Instr.tx1 ∈ commands ∧ (inbound 0x08#8 (.txLen .ch0)).sess ≠ .idle ∧ (inbound 0x08#8 (.txLen .ch0)).sess ≠ .filterLoad := by decide
theorem witness_DisabledDispatch : ∀ d idx rem, State.reset.sess ≠ .popSend d idx rem := fun _ _ _ => by simp [State.reset]
theorem witness_TickAdvancesAndCompares : busy.ch0.matchPend = false ∧ busy.ch1.matchPend = false := by decide
theorem witness_ArmAndDisarmSetTheUnit : (1 ≤ 1 ∧ 1 ≤ 255) ∧ (1 ≤ 255 ∧ 255 ≤ 255) ∧ (0 = 0 ∨ 255 < 0) ∧ (256 = 0 ∨ 255 < 256) := by decide
theorem witness_MatchFallsDueAtTheArmedTick :
    Chan.ch1 ≠ .ch0 ∧ (busy.ch .ch1).matchEn = false ∧ (busy.ch .ch1).matchPend = false ∧ 1 ≤ 255 ∧ 255 ≤ 255 ∧ 254 < 255 := by decide
theorem witness_EdgeInIdleStartsTheSofWait :
    (State.reset.ch .ch1).busIn ≠ .active ∧ (State.reset.ch .ch1).st = .idle ∧
    ((with0 { Channel.reset with busIn := .active }).ch .ch0).busIn ≠ .passive ∧ ((with0 { Channel.reset with busIn := .active }).ch .ch0).st = .idle := by decide
/-- The ends of the SOF window, and the widths beside them. -/
theorem witness_EdgeInSofWaitQualifiesTheSof :
    ∀ e ∈ [20, 21, 29, 30], (sofWait e).cfg.wf = true ∧ ((sofWait e).ch .ch0).busIn ≠ .passive ∧ ((sofWait e).ch .ch0).st = .sofWait ∧
      elapsed (sofWait e) .ch0 = e ∧ ((sofWait e).cfg.timing.rxSofMin ≤ e ∧ e < (sofWait e).cfg.timing.rxSofMax ↔ e = 21 ∨ e = 29) := by decide
/-- The ends of both width classes. -/
theorem witness_EdgeInReceivingAppendsABit :
    ∀ e ∈ [5, 11, 12, 20], (receiving 11 6 .passive e).cfg.wf = true ∧ ((receiving 11 6 .passive e).ch .ch0).busIn ≠ .active ∧
      ((receiving 11 6 .passive e).ch .ch0).st = .receiving ∧ elapsed (receiving 11 6 .passive e) .ch0 = e ∧
      (5 ≤ e ∧ e < 12 ∨ 12 ≤ e ∧ e < 21) ∧ (receiving 11 6 .passive e).cfg.timing = Timing.ofTickUs 8 ∧
      ((receiving 11 6 .passive e).ch .ch0).byteIdx ≠ 12 ∧ ((receiving 11 6 .passive e).ch .ch0).bitIdx < 7 := by decide
theorem witness_ofClass : ofClass (Timing.ofTickUs 8) .short 5 ∧ ofClass (Timing.ofTickUs 8) .short 11 ∧ ofClass (Timing.ofTickUs 8) .long 12 ∧
    ofClass (Timing.ofTickUs 8) .long 20 ∧ ∀ w, ¬ ofClass (Timing.ofTickUs 8) w 4 ∧ ¬ ofClass (Timing.ofTickUs 8) w 21 := by
  refine ⟨.inl (by decide), .inl (by decide), .inr (by decide), .inr (by decide), fun w => ⟨?_, ?_⟩⟩ <;> rintro (⟨-, h⟩ | ⟨-, h⟩) <;> revert h <;> decide
theorem witness_EighthBitStoresTheByte :
    (receiving 11 7 .active 8).cfg.wf = true ∧ ((receiving 11 7 .active 8).ch .ch0).busIn ≠ .passive ∧ ((receiving 11 7 .active 8).ch .ch0).st = .receiving ∧
    elapsed (receiving 11 7 .active 8) .ch0 = 8 ∧ ((receiving 11 7 .active 8).ch .ch0).byteIdx < 12 ∧ ((receiving 11 7 .active 8).ch .ch0).bitIdx = 7 ∧
    ((receiving 11 7 .active 8).ch .ch0).rxq.stop < (receiving 11 7 .active 8).cfg.rxqSlots := by decide
theorem witness_EdgeInReceivingAborts :
    ∀ s ∈ [receiving 0 0 .passive 4, receiving 0 0 .passive 21, receiving 12 0 .passive 5], (s.ch .ch0).busIn ≠ .active ∧ (s.ch .ch0).st = .receiving ∧
      (elapsed s .ch0 = 4 ∨ elapsed s .ch0 = 21 ∨ (elapsed s .ch0 = 5 ∧ (s.ch .ch0).byteIdx = 12)) := by decide

/-- The slot at `end` holds these bytes, as far as they go: the decidable form of `slotHolds`. -/
theorem slotHolds_of_all {q : QueueId} {k : Nat} {xs : List Byte} {s : State}
    (h : (List.range xs.length).all (fun i => cellValue (.data q k i) s == xs[i]?) = true) : slotHolds q k xs s :=
  fun i hi => eq_of_beq (List.all_eq_true.mp h i (List.mem_range.mpr hi))

/-- A frame of one byte, of twelve bytes, of none. -/
theorem witness_EndOfDataFinalisesTheFrame :
    ∀ xs ∈ [[], [0x8D#8], List.replicate 12 0xA5#8],
      ((dataEnd xs).ch .ch0).matchPend = true ∧ ((dataEnd xs).ch .ch0).st = .receiving ∧ ((dataEnd xs).ch .ch0).busIn = .passive ∧
      xs.length = ((dataEnd xs).ch .ch0).byteIdx ∧ xs.length ≤ 12 ∧ ((dataEnd xs).ch .ch0).rxq.stop < (dataEnd xs).cfg.rxqSlots ∧
      slotHolds (.rxq .ch0) ((dataEnd xs).ch .ch0).rxq.stop xs (dataEnd xs) := by
  intro xs h
  simp only [List.mem_cons, List.not_mem_nil, or_false] at h
  rcases h with rfl | rfl | rfl <;>
    exact ⟨by decide, by decide, by decide, by decide, by decide, by decide, slotHolds_of_all (by decide)⟩
/-- An idle channel, and one that has accepted the SOF, with the longest frame. -/
theorem witness_ReceiverDecodesThePulseTrain :
    let s := with0 { Channel.reset with st := .receiving }
    (s.cfg.wf = true ∧ (List.replicate 12 0xA5#8).length ≤ 12 ∧ (s.ch .ch0).rxq.stop < s.cfg.rxqSlots ∧ (s.ch .ch0).st = .receiving ∧
      (s.ch .ch0).byteIdx = 0 ∧ (s.ch .ch0).bitIdx = 0 ∧ (s.ch .ch0).busIn = .passive ∧ (s.ch .ch0).lastEdge = s.tcnt) ∧
    (Chan.ch1 ≠ .ch0 ∧ (State.reset.ch .ch1).matchEn = false ∧ (State.reset.ch .ch1).matchPend = false ∧ (State.reset.ch .ch0).st = .idle ∧
      (State.reset.ch .ch0).busIn = .passive ∧ (State.reset.ch .ch0).rxEn = true ∧ (State.reset.ch .ch0).matchEn = false ∧
      (State.reset.ch .ch0).matchPend = false) ∧ ∀ q, QueueInv q State.reset := by
  refine ⟨by decide, by decide, fun q => ?_⟩
  rcases q with c | c <;> cases c <;>
    exact ⟨by decide, by decide, fun k _ hh => by rcases hh with ⟨_, _, h⟩ | ⟨h, _⟩ <;> exact absurd h (Nat.not_lt_zero _)⟩
theorem witness_frameDropped : ¬ frameDropped State.reset [0x8D#8, 0x9C#8] ∧ frameDropped State.reset [] :=
  ⟨by rintro (h | ⟨h, -⟩ | ⟨h, -⟩) <;> revert h <;> decide, .inl rfl⟩
theorem witness_EdgeWhileWaitingIsStampedOnly : (busy.ch .ch0).busIn ≠ .active ∧ (busy.ch .ch0).st = .txArmed := by decide
/-- An edge to the driven level, an edge to the other, and a level sample that differs. -/
theorem witness_ContentionAbortsTheTransmission :
    let s := sending .active 0 0
    let echo := s.setCh .ch0 { s.ch .ch0 with busIn := .passive }
    let sample : State := { echo with cfg := { Config.default with contentionSampleAtMatch := true } }
    (∀ u ∈ [s, echo, sample], (u.ch .ch0).st = .txSending ∧ (u.ch .ch0).txq.start ≠ (u.ch .ch0).txq.stop) ∧
    ((echo.ch .ch0).busIn ≠ .active ∧ Level.active = (echo.ch .ch0).drive) ∧ ((s.ch .ch0).busIn ≠ .passive ∧ Level.passive ≠ (s.ch .ch0).drive) ∧
    ((sample.ch .ch0).matchPend = true ∧ sample.cfg.contentionSampleAtMatch = true ∧ (sample.ch .ch0).busIn ≠ (sample.ch .ch0).drive) := by decide
theorem witness_SendRequestArmsTheIfsWait :
    let s := with0 { Channel.reset with txq := { start := 0, stop := 1 } }
    s.cfg.wf = true ∧ (s.ch .ch0).st = .idle ∧ (s.ch .ch0).txq.start ≠ (s.ch .ch0).txq.stop := by decide
theorem witness_HousekeepingRequestsOnIdleChannels : busy.cfg.wf = true := by decide
theorem witness_MatchWhileWaitingTestsTheBus :
    ∀ l, (waiting l).cfg.wf = true ∧ ((waiting l).ch .ch0).matchPend = true ∧ ((waiting l).ch .ch0).st = .txArmed ∧ ((waiting l).ch .ch0).busIn = l := by
  intro l
  cases l <;> decide
/-- The first bit of the frame and the last. -/
theorem witness_MatchInSendingDrivesTheNextBit :
    ∀ p ∈ [(sending .active 0 0, 0x8D#8, Level.passive), (sending .passive 1 7, 0x9C#8, Level.active)],
      p.1.cfg.wf = true ∧ (p.1.ch .ch0).matchPend = true ∧ (p.1.ch .ch0).st = .txSending ∧
      ¬ (p.1.cfg.contentionSampleAtMatch = true ∧ (p.1.ch .ch0).busIn ≠ (p.1.ch .ch0).drive) ∧ (p.1.ch .ch0).txq.start < p.1.cfg.txqSlots ∧
      cellValue (.len (.txq .ch0) (p.1.ch .ch0).txq.start) p.1 = some 2#8 ∧ (p.1.ch .ch0).byteIdx < 2 ∧ (p.1.ch .ch0).bitIdx ≤ 7 ∧
      cellValue (.data (.txq .ch0) (p.1.ch .ch0).txq.start (p.1.ch .ch0).byteIdx) p.1 = some p.2.1 ∧ p.2.2 ≠ (p.1.ch .ch0).drive := by decide
theorem witness_MatchInSendingEndsTheFrame :
    let s := sending .active 2 0
    (s.ch .ch0).matchPend = true ∧ (s.ch .ch0).st = .txSending ∧ ¬ (s.cfg.contentionSampleAtMatch = true ∧ (s.ch .ch0).busIn ≠ (s.ch .ch0).drive) ∧
    (s.ch .ch0).txq.start < s.cfg.txqSlots ∧ (s.ch .ch0).txq.start ≠ (s.ch .ch0).txq.stop ∧
    cellValue (.len (.txq .ch0) (s.ch .ch0).txq.start) s = some 2#8 ∧ (2#8).toNat ≤ (s.ch .ch0).byteIdx := by decide
theorem witness_StrayMatchOnlyClearsTheUnit :
    let s := with0 { Channel.reset with matchPend := true }
    (s.ch .ch0).matchPend = true ∧ (s.ch .ch0).st = .idle := by decide
theorem witness_TransmitterSendsThePulseTrain :
    let s := sending .active 0 0
    (s.cfg.wf = true ∧ (false = true ∨ s.cfg.contentionSampleAtMatch = false) ∧ (s.ch .ch0).st = .txSending ∧ (s.ch .ch0).drive = .active ∧ (s.ch .ch0).byteIdx = 0 ∧
     (s.ch .ch0).bitIdx = 0 ∧ (s.ch .ch0).txq.start < s.cfg.txqSlots ∧ (s.ch .ch0).txq.start ≠ (s.ch .ch0).txq.stop ∧
     cellValue (.len (.txq .ch0) (s.ch .ch0).txq.start) s = some 2#8) ∧ slotHolds (.txq .ch0) (s.ch .ch0).txq.start [0x8D#8, 0x9C#8] s :=
  ⟨by decide, slotHolds_of_all (by decide)⟩
/-- With the level sample on, the bus following the driven level. -/
theorem witness_TransmitterSampled :
    let s : State := { sending .active 0 0 with cfg := { Config.default with contentionSampleAtMatch := true } }
    s.cfg.wf = true ∧ (true = true ∨ s.cfg.contentionSampleAtMatch = false) ∧ (s.ch .ch0).st = .txSending ∧ (s.ch .ch0).drive = .active := by decide
theorem witness_DataSymbolsAreTheEdgesThatEndThem :
    ((receiving 0 0 .active 11).ch .ch0).busIn = .active ∧ elapsed (receiving 0 0 .active 11) .ch0 = 11 ∧
    ((receiving 0 0 .active 11).ch .ch0).busIn ≠ .passive := by decide
theorem witness_BoundarySymbolsAreTheEventsOfTheWire :
    (((sofWait 21).ch .ch0).busIn = .active ∧ ((sofWait 21).ch .ch0).st = .sofWait ∧ elapsed (sofWait 21) .ch0 = 21 ∧ elapsed (sofWait 29) .ch0 = 29) ∧
    (((waiting .passive).ch .ch0).busIn = .passive ∧ ((waiting .passive).ch .ch0).matchPend = true ∧ ((waiting .passive).ch .ch0).st = .txArmed) ∧
    ((((receiving 0 0 .active 21).ch .ch0).busIn = .active ∧ ((receiving 0 0 .active 21).ch .ch0).st ≠ .sofWait ∧ elapsed (receiving 0 0 .active 21) .ch0 = 21) ∧
      elapsed (sofWait 20) .ch0 = 20 ∧ elapsed (sofWait 30) .ch0 = 30) ∧
    (((receiving 0 0 .passive 21).ch .ch0).busIn = .passive ∧ ((receiving 0 0 .passive 21).ch .ch0).matchPend = false ∧
      ((receiving 0 0 .passive 21).ch .ch0).st = .receiving ∧ (busy.ch .ch0).busIn = .passive ∧ (busy.ch .ch0).matchPend = false ∧ (busy.ch .ch0).st = .txArmed) ∧
    ((State.reset.ch .ch0).busIn = .passive ∧ (State.reset.ch .ch0).st ≠ .receiving ∧ (State.reset.ch .ch0).st ≠ .txArmed ∧
      (State.reset.ch .ch0).st ≠ .txWaitIfs) := by decide

/-- The first byte of a slot and the last. -/
theorem witness_StagingIsInvisible : (∀ r, QueueInv r busy) ∧ 0 ≤ 11 ∧ 11 ≤ 11 := ⟨busy_queue, by decide⟩
/-- A queue with room and a staged frame. -/
theorem witness_CommitAppendsTheFrameOrDropsIt :
    (∀ r, QueueInv r (staged (.txq .ch1) 0 [0x10#8] State.reset) ) ∧ 1 ≤ [0x10#8].length ∧ [0x10#8].length ≤ 12 ∧ 2 ≤ queueSize Config.default (.txq .ch1) ∧
    slotHolds (.txq .ch1) 0 [0x10#8] (staged (.txq .ch1) 0 [0x10#8] State.reset) := by
  refine ⟨fun r => ?_, by decide, by decide, by decide, slotHolds_of_all (by decide)⟩
  rcases r with c | c <;> cases c <;>
    exact ⟨by decide, by decide, fun k _ hh => by rcases hh with ⟨_, _, h⟩ | ⟨h, _⟩ <;> exact absurd h (Nat.not_lt_zero _)⟩
/-- Channel 0's transmit queue of two slots is full, a frame is staged in its free slot. -/
def fullQueue : State := staged (.txq .ch0) 1 [0x10#8] { busy with cfg := { Config.default with txqSlots := 2 } }
theorem witness_commitFull :
    (∀ r, QueueInv r fullQueue) ∧ 2 ≤ queueSize fullQueue.cfg (.txq .ch0) ∧ queueFull (.txq .ch0) fullQueue = true ∧
    slotHolds (.txq .ch0) (fullQueue.queue (.txq .ch0)).stop [0x10#8] fullQueue := by
  refine ⟨fun r => ?_, by decide, by decide, slotHolds_of_all (by decide)⟩
  rcases r with c | c <;> cases c
  · exact ⟨by decide, by decide, fun k _ hh => by rcases hh with ⟨_, _, h⟩ | ⟨h, _⟩ <;> exact absurd h (Nat.not_lt_zero _)⟩
  · exact ⟨by decide, by decide, fun k _ hh => by rcases hh with ⟨_, _, h⟩ | ⟨h, _⟩ <;> exact absurd h (Nat.not_lt_zero _)⟩
  · refine ⟨by decide, by decide, fun k _ hh => ?_⟩
    rcases hh with ⟨_, _, h⟩ | ⟨h, _⟩
    · obtain rfl : k = 0 := Nat.lt_one_iff.mp h
      refine ⟨1#8, by decide, by decide, by decide, fun i hi => ?_⟩
      obtain rfl : i = 0 := Nat.lt_one_iff.mp hi
      show (cellValue _ fullQueue).isSome = true
      decide
    · exact absurd h (by decide)
  · exact ⟨by decide, by decide, fun k _ hh => by rcases hh with ⟨_, _, h⟩ | ⟨h, _⟩ <;> exact absurd h (Nat.not_lt_zero _)⟩
theorem witness_HeadAndReleaseServeTheOldestFrame : (∀ r, QueueInv r busy) ∧ queueEmpty (.rxq .ch0) busy = true ∧ queueEmpty (.txq .ch0) busy = false :=
  ⟨busy_queue, by decide⟩
theorem witness_CapacityIsOneLessThanTheSize :
    2 ≤ 2 ∧ ({ start := 0, stop := 1 } : Ptrs).start < 2 ∧ ({ start := 0, stop := 1 } : Ptrs).stop < 2 := by decide
theorem witness_InboundPushFollowsThePolicy : busy.cfg.wf = true ∧ RingInv .ringIn busy := ⟨by decide, busy_ring _⟩
theorem witness_OutboundPushDropsTheNewestWhenFull : busy.cfg.wf = true ∧ RingInv .ringOut busy := ⟨by decide, busy_ring _⟩
theorem witness_PopServesTheOldestByte : RingInv .ringIn busy ∧ ringEmpty .ringIn busy = false ∧ RingInv .ringOut busy ∧ ringEmpty .ringOut busy = true :=
  ⟨busy_ring _, by decide, busy_ring _, by decide⟩
theorem witness_ExchangeMovesOneByteEachWay : busy.cfg.wf = true ∧ RingInv .ringIn busy ∧ RingInv .ringOut busy := ⟨by decide, busy_ring _, busy_ring _⟩

/-- Full rings, under both policies. -/
theorem witness_fullRings :
    (∀ p, (fullIn p).cfg.wf = true ∧ RingInv .ringIn (fullIn p) ∧ ringFull .ringIn (fullIn p) = true) ∧
    fullOut.cfg.wf = true ∧ RingInv .ringOut fullOut ∧ ringFull .ringOut fullOut = true ∧ ringEmpty .ringOut fullOut = false := by
  refine ⟨fun p => ⟨by cases p <;> decide, ⟨Nat.zero_lt_succ 3, Nat.lt_succ_self 3, fun k _ hh => ?_⟩, by cases p <;> decide⟩,
    by decide, ⟨by decide, by decide, fun k _ hh => ?_⟩, by decide, by decide⟩ <;>
  · rcases hh with ⟨_, _, h⟩ | ⟨h, _⟩
    · have h : k < 3 := h
      interval_cases k <;> exact (rfl : (some _ : Option Byte).isSome = true)
    · exact absurd h (Nat.not_lt_zero 3)
/-- An inbound byte is there to take. -/
def byteThere (s : State) (b : Byte) : Prop :=
  s.ringIn.start ≠ s.ringIn.stop ∧ s.ringIn.start < s.cfg.ringInSize ∧ cellValue (.ring .ringIn s.ringIn.start) s = some b
theorem witness_inbound (b : Byte) (v : Session) : byteThere (inbound b v) b ∧ (inbound b v).sess = v :=
  ⟨⟨Nat.zero_ne_one, Nat.zero_lt_succ 31, rfl⟩, rfl⟩
theorem witness_DispatchRunsTheCommandRead : byteThere (inbound 0x01#8 .idle) 0x01#8 ∧ (inbound 0x01#8 .idle).sess = .idle := witness_inbound _ _
theorem witness_TelemetryPushesOneByte : busy.cfg.wf = true ∧ RingInv .ringOut busy ∧ busy.sess = .idle := ⟨by decide, busy_ring _, by decide⟩
theorem witness_PopRxOpensTheSendSession :
    (busy.cfg.wf = true ∧ RingInv .ringOut busy ∧ QueueInv (.rxq .ch0) busy ∧ busy.sess = .idle ∧ queueEmpty (.rxq .ch0) busy = true) ∧
    popped.cfg.wf = true ∧ popped.sess = .idle ∧ queueEmpty (.rxq .ch0) popped = false := ⟨⟨by decide, busy_ring _, busy_queue _, by decide, by decide⟩, by decide⟩
theorem witness_popped : RingInv .ringOut popped ∧ QueueInv (.rxq .ch0) popped := by
  refine ⟨⟨by decide, by decide, fun k _ hh => by rcases hh with ⟨_, _, h⟩ | ⟨h, _⟩ <;> exact absurd h (Nat.not_lt_zero _)⟩, by decide, by decide, fun k _ hh => ?_⟩
  rcases hh with ⟨_, _, h⟩ | ⟨h, _⟩
  · obtain rfl : k = 0 := Nat.lt_one_iff.mp h
    refine ⟨2#8, by decide, by decide, by decide, fun i hi => ?_⟩
    have hi : i < 2 := hi
    show (cellValue _ popped).isSome = true
    interval_cases i <;> decide
  · exact absurd h (by decide)
/-- With bytes left and with the last. -/
theorem witness_PopSendPushesTheNextFrameByte :
    ∀ p ∈ [(0, 2, 0x10#8), (1, 1, 0xF6#8)], ({ popped with sess := .popSend .ch0 p.1 p.2.1 } : State).cfg.wf = true ∧
      (popped.ch .ch0).rxq.start < popped.cfg.rxqSlots ∧ (popped.ch .ch0).rxq.start ≠ (popped.ch .ch0).rxq.stop ∧ p.1 < 12 ∧
      cellValue (.data (.rxq .ch0) (popped.ch .ch0).rxq.start p.1) popped = some p.2.2 := by decide
theorem witness_SilentCommandsDoAsStated :
    State.reset.sess = .idle ∧ ((0x00#8).toNat = 0 ∨ 9 ≤ (0x00#8).toNat) ∧ ((0x09#8).toNat = 0 ∨ 9 ≤ (0x09#8).toNat) ∧
    ((0xFF#8).toNat = 0 ∨ 9 ≤ (0xFF#8).toNat) := by decide
/-- The ends of the command bytes and the entries beside them. -/
theorem witness_FilterLoadEndsAtACommand :
    Instr.getSwitch ∈ commands ∧ Instr.tx1 ∈ commands ∧ (∀ b ∈ [0x01#8, 0x08#8], 1 ≤ b.toNat ∧ b.toNat ≤ 8) ∧
    (∀ b ∈ [0x00#8, 0x09#8, 0xFF#8], b.toNat = 0 ∨ 9 ≤ b.toNat) := by decide
theorem witness_filterLoad : ∀ b, byteThere (inbound b .filterLoad) b ∧ (inbound b .filterLoad).sess = .filterLoad := fun _ => witness_inbound _ _
/-- The lengths 0, 2, 12, 13 and 255. -/
theorem witness_LengthByteOpensTheDataSession : ∀ b ∈ [0x00#8, 0x02#8, 0x0C#8, 0x0D#8, 0xFF#8], b.toNat ≠ 1 := by decide
theorem witness_txLen : ∀ b, byteThere (inbound b (.txLen .ch0)) b ∧ (inbound b (.txLen .ch0)).sess = .txLen .ch0 := fun _ => witness_inbound _ _
theorem witness_PayloadBytesAreStaged :
    ((inbound 0x05#8 (.txData .ch0 9 12)).ch .ch0).txq.stop < (inbound 0x05#8 (.txData .ch0 9 12)).cfg.txqSlots ∧ 9 + 2 < 12 ∧ 12 ≤ 12 ∧ 0 + 2 < 3 := by
  decide
theorem witness_txData : byteThere (inbound 0x05#8 (.txData .ch0 9 12)) 0x05#8 ∧ byteThere (inbound 0x05#8 (.txData .ch0 0 3)) 0x05#8 :=
  ⟨(witness_inbound _ _).1, (witness_inbound _ _).1⟩
/-- The last payload byte of a two-byte frame, and the length byte 1. -/
theorem witness_LastPayloadByteQueuesTheFrame :
    (∀ v, (inbound 0x01#8 v).cfg.wf = true ∧ ∀ q, QueueInv q (inbound 0x01#8 v)) ∧ (0x01#8).toNat = 1 ∧
    ([0x01#8] = [] ++ [0x01#8] ∧ ([] : List Byte).length ≤ 10 ∧ slotHolds (.txq .ch0) 0 [] (inbound 0x01#8 (.txData .ch0 0 2))) := by
  refine ⟨fun v => ⟨(by decide : Config.default.wf = true), fun q => ?_⟩, by decide, rfl, by decide, fun i hi => absurd hi (Nat.not_lt_zero _)⟩
  rcases q with c | c <;> cases c <;>
    exact ⟨Nat.zero_lt_succ 3, Nat.zero_lt_succ 3, fun k _ hh => by rcases hh with ⟨_, _, h⟩ | ⟨h, _⟩ <;> exact absurd h (Nat.not_lt_zero _)⟩

end Sys2Proof.Tests
end

section
/-! PROOFS. The step and its schedule. -/

namespace Sys2Proof.Machine

/-! ### The step -/

/-- The fetch takes a complete tag off the schedule, of a well-formed configuration (log 1). -/
theorem fetch_of_decodeOp {s : State} {i : Instr} {rest : List Byte} (hc : s.cfg.wf = true)
    (h : decodeOp s.sched = .ok (i, rest)) : fetch s = .next (some (i, { s with sched := rest })) := by
  unfold fetch
  split
  · rename_i hs
    simp [hs, decodeOp] at h
  · rename_i hs
    rw [hs] at h
    simp [hc, h]

/-- Nothing scheduled, nothing fetched. -/
theorem fetch_nil {s : State} (h : s.sched = []) : fetch s = .next none := by simp [fetch, h]

/-- Bytes that are no tag are refused by the fetch (`30_encoding.md` R106). -/
theorem fetch_of_decode_error {s : State} {e : DecodeError} (hc : s.cfg.wf = true) (hs : s.sched ≠ [])
    (h : decodeOp s.sched = .error e) : fetch s = .refused (.undecodable e) := by
  unfold fetch
  split
  · exact absurd ‹_› hs
  · rename_i hs
    rw [hs] at h
    simp [hc, h]

/-- Settles O4: the three answers of the fetch, each followed by what `step` does with it. -/
theorem stepRunsTheNextOperation : Obligations.StepRunsTheNextOperation := by
  intro s hc
  refine ⟨fun i rest h => ?_, fun h => ?_, fun e hs h => ?_⟩
  · simp [step, fetch_of_decodeOp hc h]
  · simp [step, fetch_nil h]
  · simp [step, fetch_of_decode_error hc hs h]

end Sys2Proof.Machine
end

section
/-! PROOFS. One channel and the other: what `EDGE`, `MATCH` and `SENDREQ` neither read nor write. -/

namespace Sys2Proof.Machine

/-- Sequencing after a choice. -/
theorem andThen_ite {α β : Type} (p : Prop) [Decidable p] (x y : Res α) (f : α → Res β) :
    (if p then x else y).andThen f = if p then x.andThen f else y.andThen f := apply_ite (Res.andThen · f) p x y

section IgnoresCh

variable {c d : Chan}

/-- `f` neither reads nor writes the registers and pointers of channel `d`: replacing them before `f` or after it is the same. -/
def IgnoresCh (d : Chan) (f : State → Res State) : Prop :=
  ∀ (s : State) (k : Channel), f (s.setCh d k) = (f s).andThen fun t => .next (t.setCh d k)

theorem elapsed_setCh_other (h : c ≠ d) (s : State) (k : Channel) : elapsed (s.setCh d k) c = elapsed s c := by
  simp [elapsed, h]

theorem memRead_setCh (x : CellId) (s : State) (k : Channel) : memRead x (s.setCh d k) = memRead x s := rfl

theorem readLen_setCh (q : QueueId) (slot : Nat) (s : State) (k : Channel) : readLen q slot (s.setCh d k) = readLen q slot s := rfl

theorem readData_setCh (q : QueueId) (slot n : Nat) (s : State) (k : Channel) :
    readData q slot n (s.setCh d k) = readData q slot n s := by
  induction n with
  | zero => rfl
  | succ n ih => simp only [readData, ih, memRead_setCh]

theorem rxCrcPasses_setCh_other (h : c ≠ d) (n : Nat) (s : State) (k : Channel) :
    rxCrcPasses c n (s.setCh d k) = rxCrcPasses c n s := by
  simp only [rxCrcPasses, setCh_cfg, setCh_ch_other s k h, readData_setCh, memRead_setCh]

theorem queueEmpty_setCh_other (h : c ≠ d) (s : State) (k : Channel) :
    queueEmpty (.txq c) (s.setCh d k) = queueEmpty (.txq c) s := by
  simp only [queueEmpty, queue_txq, setCh_ch_other s k h]

theorem sendreqEnabled_setCh_other (h : c ≠ d) (s : State) (k : Channel) :
    sendreqEnabled c (s.setCh d k) = sendreqEnabled c s := by
  simp only [sendreqEnabled, setCh_ch_other s k h, queueEmpty_setCh_other h]

theorem queueFull_setCh_other (h : c ≠ d) (s : State) (k : Channel) :
    queueFull (.rxq c) (s.setCh d k) = queueFull (.rxq c) s := by
  simp only [queueFull, queue_rxq, setCh_ch_other s k h, setCh_cfg]

theorem edgeEnabled_setCh_other (h : c ≠ d) (lvl : Level) (s : State) (k : Channel) :
    edgeEnabled c lvl (s.setCh d k) = edgeEnabled c lvl s := by
  simp only [edgeEnabled, setCh_ch_other s k h]

theorem matchEnabled_setCh_other (h : c ≠ d) (s : State) (k : Channel) :
    matchEnabled c (s.setCh d k) = matchEnabled c s := by
  simp only [matchEnabled, setCh_ch_other s k h]

theorem filterMatches_setCh (b : Byte) (s : State) (k : Channel) : filterMatches b (s.setCh d k) = filterMatches b s := rfl

theorem raiseFault_setCh (e : Raised) (s : State) (k : Channel) : raiseFault e (s.setCh d k) = (raiseFault e s).setCh d k := rfl

/-! #### The shared operations -/

theorem armUnit_ignoresCh (h : c ≠ d) (w : Nat) : IgnoresCh d (armUnit c w) := by
  intro s k
  unfold armUnit
  split
  · simp only [setCh_ch_other _ k h, setCh_comm _ k _ h, setCh_tcnt, andThen_next]
  · rfl

theorem memWrite_ignoresCh (x : CellId) (v : Byte) : IgnoresCh d (memWrite x v) := by
  intro s k
  unfold memWrite
  rw [setCh_cfg]
  split <;> rfl

theorem qStage_ignoresCh (h : c ≠ d) (i : Nat) (v : Byte) : IgnoresCh d (qStage (.rxq c) i v) := by
  intro s k
  simp only [qStage, queue_rxq, setCh_ch_other _ k h]
  exact memWrite_ignoresCh _ _ s k

theorem qCommit_setCh_other (h : c ≠ d) (n : Nat) (s : State) (k : Channel) :
    qCommit (.rxq c) n (s.setCh d k) = (qCommit (.rxq c) n s).andThen fun r => .next (r.1, r.2.setCh d k) := by
  simp only [qCommit, queueFull_setCh_other h, queue_rxq, setQueue_rxq, setCh_ch_other _ k h, setCh_cfg, raiseFault_setCh,
    memWrite_ignoresCh _ _ _ k, setCh_comm _ k _ h, andThen_ite, andThen_assoc, andThen_next, andThen_refused]

theorem qRelease_ignoresCh (h : c ≠ d) : IgnoresCh d (qRelease (.txq c)) := by
  intro s k
  simp only [qRelease, queueEmpty_setCh_other h, queue_txq, setQueue_txq, setCh_ch_other _ k h, setCh_cfg, setCh_comm _ k _ h,
    andThen_ite, andThen_next, andThen_refused]

theorem txAbort_ignoresCh (h : c ≠ d) : IgnoresCh d (txAbort c) := by
  intro s k
  simp only [txAbort, disarmUnit_eq, setCh_ch_other _ k h, setCh_comm _ k _ h,
    qRelease_ignoresCh h _ k, andThen_assoc, andThen_next]

theorem rxAbort_setCh_other (h : c ≠ d) (s : State) (k : Channel) : rxAbort c (s.setCh d k) = (rxAbort c s).setCh d k := by
  simp only [rxAbort_eq, setCh_ch_other _ k h, setCh_comm _ k _ h]

theorem timingFault_ignoresCh (h : c ≠ d) : IgnoresCh d (timingFault c) := by
  intro s k
  simp only [timingFault, raiseFault_setCh, rxAbort_setCh_other h, andThen_next]

theorem lengthFault_ignoresCh (h : c ≠ d) : IgnoresCh d (lengthFault c) := by
  intro s k
  simp only [lengthFault, raiseFault_setCh, rxAbort_setCh_other h, andThen_next]

theorem contention_ignoresCh (h : c ≠ d) : IgnoresCh d (contention c) := by
  intro s k
  exact txAbort_ignoresCh h (raiseFault (.contention c) s) k

/-! #### The arms of `EDGE` -/

theorem edgeIdle_ignoresCh (h : c ≠ d) (lvl : Level) : IgnoresCh d (edgeIdle c lvl) := by
  intro s k
  simp only [edgeIdle, setCh_ch_other _ k h, setCh_comm _ k _ h, andThen_ite, andThen_next]

theorem edgeSofWait_ignoresCh (h : c ≠ d) (lvl : Level) (e : Nat) : IgnoresCh d (edgeSofWait c lvl e) := by
  intro s k
  simp only [edgeSofWait, setCh_ch_other _ k h, setCh_comm _ k _ h, setCh_cfg, armUnit_ignoresCh h _ _ k,
    timingFault_ignoresCh h _ k, andThen_ite]

theorem appendBit_ignoresCh (h : c ≠ d) (bit : Bool) : IgnoresCh d (appendBit c bit) := by
  intro s k
  simp only [appendBit, setCh_ch_other _ k h, setCh_comm _ k _ h, setCh_cfg, armUnit_ignoresCh h _ _ k,
    qStage_ignoresCh h _ _ _ k, andThen_ite, andThen_assoc, andThen_next]

theorem edgeReceiving_ignoresCh (h : c ≠ d) (lvl : Level) (e : Nat) : IgnoresCh d (edgeReceiving c lvl e) := by
  intro s k
  simp only [edgeReceiving, setCh_cfg]
  split
  · exact timingFault_ignoresCh h s k
  · simp only [setCh_ch_other _ k h, lengthFault_ignoresCh h _ k, appendBit_ignoresCh h _ _ k, andThen_ite]

theorem edgeSending_ignoresCh (h : c ≠ d) (lvl : Level) : IgnoresCh d (edgeSending c lvl) := by
  intro s k
  simp only [edgeSending, setCh_ch_other _ k h, contention_ignoresCh h _ k, andThen_ite, andThen_next]

theorem stampEdge_setCh_other (h : c ≠ d) (lvl : Level) (s : State) (k : Channel) :
    stampEdge c lvl (s.setCh d k) = (stampEdge c lvl s).setCh d k := by
  simp only [stampEdge, setCh_ch_other _ k h, setCh_comm _ k _ h, setCh_tcnt]

/-- `EDGE` of one channel neither reads nor writes the other: in each state of the protocol. -/
theorem edgeOp_ignoresCh (h : c ≠ d) (lvl : Level) : IgnoresCh d (edgeOp c lvl) := by
  intro s k
  simp only [edgeOp, edgeEnabled_setCh_other h, setCh_ch_other _ k h, stampEdge_setCh_other h, elapsed_setCh_other h]
  split
  · split
    · exact edgeIdle_ignoresCh h lvl _ k
    · exact edgeSofWait_ignoresCh h lvl _ _ k
    · exact edgeReceiving_ignoresCh h lvl _ _ k
    · rfl
    · rfl
    · exact edgeSending_ignoresCh h lvl _ k
  · rfl

/-! #### The arms of `MATCH` -/

theorem matchReceiving_ignoresCh (h : c ≠ d) : IgnoresCh d (matchReceiving c) := by
  intro s k
  simp only [matchReceiving, setCh_ch_other _ k h, setCh_comm _ k _ h, rxCrcPasses_setCh_other h, memRead_setCh (d := d),
    filterMatches_setCh (d := d), qCommit_setCh_other h, andThen_ite, andThen_assoc, andThen_next]

theorem matchWaiting_ignoresCh (h : c ≠ d) : IgnoresCh d (matchWaiting c) := by
  intro s k
  simp only [matchWaiting, setCh_ch_other _ k h, setCh_comm _ k _ h, setCh_cfg, armUnit_ignoresCh h _ _ k,
    andThen_ite, andThen_assoc, andThen_next]

theorem sendBit_ignoresCh (h : c ≠ d) : IgnoresCh d (sendBit c) := by
  intro s k
  simp only [sendBit, setCh_ch_other _ k h, setCh_comm _ k _ h, setCh_cfg, memRead_setCh, armUnit_ignoresCh h _ _ k,
    andThen_ite, andThen_assoc, andThen_next]

theorem endSend_ignoresCh (h : c ≠ d) : IgnoresCh d (endSend c) := by
  intro s k
  simp only [endSend, setCh_ch_other _ k h, setCh_comm _ k _ h, qRelease_ignoresCh h _ k, andThen_assoc, andThen_next]

theorem matchSending_ignoresCh (h : c ≠ d) : IgnoresCh d (matchSending c) := by
  intro s k
  simp only [matchSending, setCh_ch_other _ k h, setCh_comm _ k _ h, setCh_cfg, readLen_setCh, contention_ignoresCh h _ k,
    sendBit_ignoresCh h _ k, endSend_ignoresCh h _ k, andThen_ite, andThen_assoc]

/-- `MATCH` of one channel neither reads nor writes the other: in each state of the protocol. -/
theorem matchOp_ignoresCh (h : c ≠ d) : IgnoresCh d (matchOp c) := by
  intro s k
  simp only [matchOp, matchEnabled_setCh_other h, disarmUnit_eq, setCh_ch_other _ k h, setCh_comm _ k _ h]
  split
  · split
    · rfl
    · rfl
    · exact matchReceiving_ignoresCh h _ k
    · exact matchWaiting_ignoresCh h _ k
    · exact matchWaiting_ignoresCh h _ k
    · exact matchSending_ignoresCh h _ k
  · rfl

/-- `SENDREQ` of one channel neither reads nor writes the other. -/
theorem execSendreq_ignoresCh (h : c ≠ d) : IgnoresCh d (execSendreq c) := by
  intro s k
  simp only [execSendreq, startSend, sendreqEnabled_setCh_other h, setCh_ch_other _ k h, setCh_comm _ k _ h, setCh_cfg,
    armUnit_ignoresCh h _ _ k, andThen_ite, andThen_assoc, andThen_next, andThen_refused]

end IgnoresCh
section OwnWrites

variable {c : Chan} {s t u : State}

/-- Going from `s` to `t`, nothing is written but channel `c`'s registers and pointers, storage and the ghost log. -/
def OwnWrites (c : Chan) (s t : State) : Prop := t = ({ s with mem := t.mem, raised := t.raised } : State).setCh c (t.ch c)

theorem ownWrites_setCh (c : Chan) (s : State) (k : Channel) : OwnWrites c s (s.setCh c k) := by
  cases c <;> rfl

theorem ownWrites_raiseFault (c : Chan) (e : Raised) (s : State) : OwnWrites c s (raiseFault e s) := by
  cases c <;> rfl

theorem ownWrites_setMem (c : Chan) (s : State) (m : Memory) : OwnWrites c s (s.setMem m) := by
  cases c <;> rfl

theorem ownWrites_refl (c : Chan) (s : State) : OwnWrites c s s := by
  cases c <;> rfl

theorem OwnWrites.trans (h : OwnWrites c s t) (h' : OwnWrites c t u) : OwnWrites c s u := by
  rw [OwnWrites, h', h]
  cases c <;> rfl

/-- Whatever `f` answers, it wrote only what a channel's operation may write. -/
def WritesOnly (c : Chan) (f : State → Res State) : Prop := ∀ s t, f s = .next t → OwnWrites c s t

/-! #### The shared operations -/

theorem armUnit_writesOnly (c : Chan) (w : Nat) : WritesOnly c (armUnit c w) := by
  intro s t h
  obtain ⟨-, rfl⟩ := armUnit_eq_next.mp h
  exact ownWrites_setCh c s _

theorem qStage_writesOnly (c : Chan) (q : QueueId) (i : Nat) (v : Byte) : WritesOnly c (qStage q i v) := by
  intro s t h
  obtain ⟨-, rfl⟩ := qStage_eq_next.mp h
  exact ownWrites_setMem c s _

theorem qCommit_ownWrites {n : Nat} {r : Bool × State} (h : qCommit (.rxq c) n s = .next r) : OwnWrites c s r.2 := by
  obtain ⟨-, ⟨-, -, ht⟩ | ⟨-, -, -, ht⟩⟩ := qCommit_eq_next.mp h
  · rw [ht]
    exact ownWrites_raiseFault c _ s
  · rw [ht]
    exact (ownWrites_setMem c s _).trans (ownWrites_setCh c _ _)

theorem qRelease_writesOnly (c : Chan) : WritesOnly c (qRelease (.txq c)) := by
  intro s t h
  obtain ⟨-, rfl⟩ := qRelease_eq_next.mp h
  exact ownWrites_setCh c s _

theorem ownWrites_rxAbort (c : Chan) (e : Raised) (s : State) : OwnWrites c s (rxAbort c (raiseFault e s)) := by
  rw [rxAbort_eq]
  exact (ownWrites_raiseFault c e s).trans (ownWrites_setCh c _ _)

theorem timingFault_writesOnly (c : Chan) : WritesOnly c (timingFault c) := by
  rintro s _ ⟨⟩
  exact ownWrites_rxAbort c _ s

theorem lengthFault_writesOnly (c : Chan) : WritesOnly c (lengthFault c) := by
  rintro s _ ⟨⟩
  exact ownWrites_rxAbort c _ s

theorem contention_writesOnly (c : Chan) : WritesOnly c (contention c) := by
  intro s t h
  obtain ⟨-, rfl⟩ := txAbort_eq_next.mp h
  exact (ownWrites_raiseFault c _ s).trans (ownWrites_setCh c _ _)

/-! #### The arms of `EDGE` -/

theorem edgeIdle_writesOnly (c : Chan) (lvl : Level) : WritesOnly c (edgeIdle c lvl) := by
  intro s t h
  unfold edgeIdle at h
  split at h
  · cases h
    exact ownWrites_setCh c s _
  · cases h
    exact ownWrites_refl c s

theorem edgeSofWait_writesOnly (c : Chan) (lvl : Level) (e : Nat) : WritesOnly c (edgeSofWait c lvl e) := by
  intro s t h
  unfold edgeSofWait at h
  split at h
  · exact (ownWrites_setCh c s _).trans (armUnit_writesOnly c _ _ _ h)
  · exact timingFault_writesOnly c _ _ h

theorem appendBit_writesOnly (c : Chan) (bit : Bool) : WritesOnly c (appendBit c bit) := by
  intro s t h
  simp only [appendBit] at h
  split at h
  · obtain ⟨u, hu, ht⟩ := andThen_eq_next.mp h
    exact (ownWrites_setCh c s _).trans ((qStage_writesOnly c _ _ _ _ _ hu).trans
      ((ownWrites_setCh c u _).trans (armUnit_writesOnly c _ _ _ ht)))
  · exact (ownWrites_setCh c s _).trans (armUnit_writesOnly c _ _ _ h)

theorem edgeReceiving_writesOnly (c : Chan) (lvl : Level) (e : Nat) : WritesOnly c (edgeReceiving c lvl e) := by
  intro s t h
  unfold edgeReceiving at h
  split at h
  · exact timingFault_writesOnly c _ _ h
  · split at h
    · exact lengthFault_writesOnly c _ _ h
    · exact appendBit_writesOnly c _ _ _ h

theorem edgeSending_writesOnly (c : Chan) (lvl : Level) : WritesOnly c (edgeSending c lvl) := by
  intro s t h
  unfold edgeSending at h
  split at h
  · exact contention_writesOnly c _ _ h
  · cases h
    exact ownWrites_refl c s

/-- `EDGE` writes only its channel, storage and the ghost log: the stamp, and the arm of each state of the protocol. -/
theorem edgeOp_writesOnly (c : Chan) (lvl : Level) : WritesOnly c (edgeOp c lvl) := by
  intro s t h
  have stamp : OwnWrites c s (stampEdge c lvl s) := ownWrites_setCh c s _
  unfold edgeOp at h
  split at h
  · split at h
    · exact stamp.trans (edgeIdle_writesOnly c lvl _ _ h)
    · exact stamp.trans (edgeSofWait_writesOnly c lvl _ _ _ h)
    · exact stamp.trans (edgeReceiving_writesOnly c lvl _ _ _ h)
    · cases h
      exact stamp
    · cases h
      exact stamp
    · exact stamp.trans (edgeSending_writesOnly c lvl _ _ h)
  · cases h

/-! #### The arms of `MATCH` -/

theorem matchReceiving_writesOnly (c : Chan) : WritesOnly c (matchReceiving c) := by
  intro s t h
  have idle := ownWrites_setCh c s { s.ch c with st := .idle }
  simp only [matchReceiving] at h
  split at h
  · cases h
    exact idle
  · obtain ⟨ok, -, h⟩ := andThen_eq_next.mp h
    split at h
    · obtain ⟨b, -, h⟩ := andThen_eq_next.mp h
      split at h
      · obtain ⟨r, hr, ht⟩ := andThen_eq_next.mp h
        cases ht
        exact idle.trans (qCommit_ownWrites hr)
      · cases h
        exact idle
    · cases h
      exact idle

theorem matchWaiting_writesOnly (c : Chan) : WritesOnly c (matchWaiting c) := by
  intro s t h
  unfold matchWaiting at h
  split at h
  · exact (ownWrites_setCh c s _).trans (armUnit_writesOnly c _ _ _ h)
  · obtain ⟨u, hu, ht⟩ := andThen_eq_next.mp h
    cases ht
    exact (ownWrites_setCh c s _).trans ((armUnit_writesOnly c _ _ _ hu).trans (ownWrites_setCh c u _))

theorem sendBit_writesOnly (c : Chan) : WritesOnly c (sendBit c) := by
  intro s t h
  obtain ⟨b, -, h⟩ := andThen_eq_next.mp h
  obtain ⟨u, hu, h⟩ := andThen_eq_next.mp h
  have armed := armUnit_writesOnly c _ _ _ hu
  split at h
  · cases h
    exact armed.trans (ownWrites_setCh c u _)
  · cases h
    exact armed.trans (ownWrites_setCh c u _)

theorem endSend_writesOnly (c : Chan) : WritesOnly c (endSend c) := by
  intro s t h
  obtain ⟨u, hu, ht⟩ := andThen_eq_next.mp h
  cases ht
  exact (ownWrites_setCh c s _).trans ((qRelease_writesOnly c _ _ hu).trans (ownWrites_setCh c u _))

theorem matchSending_writesOnly (c : Chan) : WritesOnly c (matchSending c) := by
  intro s t h
  unfold matchSending at h
  split at h
  · exact contention_writesOnly c _ _ h
  · obtain ⟨n, -, h⟩ := andThen_eq_next.mp h
    split at h
    · exact (ownWrites_setCh c s _).trans (sendBit_writesOnly c _ _ h)
    · exact (ownWrites_setCh c s _).trans (endSend_writesOnly c _ _ h)

/-- `MATCH` writes only its channel, storage and the ghost log: the disarming, and the arm of each state of the protocol. -/
theorem matchOp_writesOnly (c : Chan) : WritesOnly c (matchOp c) := by
  intro s t h
  have disarm : OwnWrites c s (disarmUnit c s) := ownWrites_setCh c s _
  unfold matchOp at h
  split at h
  · split at h
    · cases h
      exact disarm
    · cases h
      exact disarm
    · exact disarm.trans (matchReceiving_writesOnly c _ _ h)
    · exact disarm.trans (matchWaiting_writesOnly c _ _ h)
    · exact disarm.trans (matchWaiting_writesOnly c _ _ h)
    · exact disarm.trans (matchSending_writesOnly c _ _ h)
  · cases h

/-- `SENDREQ` writes only its channel. -/
theorem execSendreq_writesOnly (c : Chan) : WritesOnly c (execSendreq c) := by
  intro s t h
  unfold execSendreq at h
  split at h
  · obtain ⟨u, hu, ht⟩ := andThen_eq_next.mp h
    cases ht
    exact (ownWrites_setCh c s _).trans ((armUnit_writesOnly c _ _ _ hu).trans (ownWrites_setCh c u _))
  · cases h

end OwnWrites

/-- Settles O13: each of the three operations ignores the other channel and writes only its own. -/
theorem channelsAreIndependent : Obligations.ChannelsAreIndependent := by
  intro c d lvl i s k hd hi
  rcases hi with rfl | rfl | rfl
  · exact ⟨edgeOp_ignoresCh hd.symm lvl s k, edgeOp_writesOnly c lvl s⟩
  · exact ⟨matchOp_ignoresCh hd.symm s k, matchOp_writesOnly c s⟩
  · exact ⟨execSendreq_ignoresCh hd.symm s k, execSendreq_writesOnly c s⟩

end Sys2Proof.Machine
end

section
/-! PROOFS. Several operations in a row, and `TICK`: the counter moved on, and the tick at which a match falls due. -/

namespace Sys2Proof.Machine

variable {s : State}

/-! ### Several operations in a row -/

@[simp] theorem runOps_nil (s : State) : runOps [] s = .next s := rfl

@[simp] theorem runOps_cons (i : Instr) (is : List Instr) (s : State) : runOps (i :: is) s = Res.andThen (exec i s) (runOps is) := rfl

theorem runOps_singleton (i : Instr) (s : State) : runOps [i] s = exec i s := by
  rw [runOps_cons]
  cases exec i s <;> rfl

theorem runOps_append (is js : List Instr) (s : State) : runOps (is ++ js) s = (runOps is s).andThen (runOps js) := by
  induction is generalizing s with
  | nil => rfl
  | cons i is ih => simp only [List.cons_append, runOps_cons, funext ih, andThen_assoc]

/-! ### The counter moved on -/

/-- The state with the counter moved on by `n` ticks and nothing else changed. -/
def State.later (s : State) (n : Nat) : State := { s with tcnt := s.tcnt + BitVec.ofNat 8 n }

@[simp] theorem later_tcnt (s : State) (n : Nat) : (s.later n).tcnt = s.tcnt + BitVec.ofNat 8 n := rfl
@[simp] theorem later_ch (s : State) (n : Nat) (c : Chan) : (s.later n).ch c = s.ch c := by cases c <;> rfl
@[simp] theorem later_mem (s : State) (n : Nat) : (s.later n).mem = s.mem := rfl
@[simp] theorem later_cfg (s : State) (n : Nat) : (s.later n).cfg = s.cfg := rfl
@[simp] theorem later_filtActive (s : State) (n : Nat) : (s.later n).filtActive = s.filtActive := rfl
@[simp] theorem cellValue_later (x : CellId) (s : State) (n : Nat) : cellValue x (s.later n) = cellValue x s := rfl

@[simp] theorem later_zero (s : State) : s.later 0 = s := by simp [State.later]

theorem later_later (s : State) (m n : Nat) : (s.later m).later n = s.later (m + n) := by
  simp [State.later, BitVec.ofNat_add, BitVec.add_assoc]

/-- Two different numbers of ticks below one turn of the counter lead to two different counter values. -/
theorem add_ofNat_ne {t : Byte} {m n : Nat} (hm : m < 256) (hn : n < 256) (h : m ≠ n) :
    t + BitVec.ofNat 8 m ≠ t + BitVec.ofNat 8 n := by
  intro he
  have := congrArg BitVec.toNat ((BitVec.add_right_inj t).mp he)
  simp only [BitVec.toNat_ofNat] at this
  omega

/-! ### `TICK` (`60_exceptions.md` R285) -/

/-- A channel on which no match falls due within `n` ticks of the counter value `t`. -/
def QuietFor (n : Nat) (t : Byte) (k : Channel) : Prop :=
  k.matchPend = false ∧ (k.matchEn = true → ∀ j, 1 ≤ j → j ≤ n → t + BitVec.ofNat 8 j ≠ k.ocr)

theorem quietFor_of_disarmed {n : Nat} {t : Byte} {k : Channel} (he : k.matchEn = false) (hp : k.matchPend = false) :
    QuietFor n t k := ⟨hp, fun h => by simp [he] at h⟩

/-- An armed channel is quiet until its deadline. -/
theorem quietFor_of_deadline {n w : Nat} {t : Byte} {k : Channel} (hp : k.matchPend = false)
    (ho : k.ocr = t + BitVec.ofNat 8 w) (hn : n < w) (hw : w ≤ 255) : QuietFor n t k :=
  ⟨hp, fun _ j _ hj => by rw [ho]; exact add_ofNat_ne (by omega) (by omega) (by omega)⟩

theorem QuietFor.next {n : Nat} {t : Byte} {k : Channel} (h : QuietFor (n + 1) t k) : QuietFor n (t + BitVec.ofNat 8 1) k := by
  refine ⟨h.1, fun he j h1 hj => ?_⟩
  rw [BitVec.add_assoc, ← BitVec.ofNat_add]
  exact h.2 he (1 + j) (by omega) (by omega)

theorem QuietFor.compareUnit {n : Nat} {t : Byte} {k : Channel} (h : QuietFor (n + 1) t k) :
    compareUnit (t + BitVec.ofNat 8 1) k = k :=
  if_neg fun ⟨he, ho⟩ => h.2 he 1 (by omega) (by omega) ho

theorem tickEnabled_iff : tickEnabled s = true ↔ ∀ c, (s.ch c).matchPend = false := by
  simp only [tickEnabled, Bool.and_eq_true, Bool.not_eq_true']
  exact ⟨fun ⟨h0, h1⟩ c => by cases c; exacts [h0, h1], fun h => ⟨h .ch0, h .ch1⟩⟩

theorem advanceTick_ch (s : State) (c : Chan) : (advanceTick s).ch c = compareUnit (s.tcnt + BitVec.ofNat 8 1) (s.ch c) := by
  cases c <;> rfl

/-- `TICK`, when no match is pending. -/
theorem exec_tick (h : ∀ c, (s.ch c).matchPend = false) : exec .tick s = .next (advanceTick s) :=
  if_pos (tickEnabled_iff.mpr h)

/-- A tick that finds nothing due on the other channel moves the counter and looks at channel `c`. -/
theorem advanceTick_eq_setCh {c : Chan} (h : ∀ d, d ≠ c → compareUnit (s.tcnt + BitVec.ofNat 8 1) (s.ch d) = s.ch d) :
    advanceTick s = (s.later 1).setCh c (compareUnit (s.tcnt + BitVec.ofNat 8 1) (s.ch c)) := by
  cases c with
  | ch0 =>
    have other : compareUnit (s.tcnt + 1#8) s.ch1 = s.ch1 := h .ch1 (by decide)
    rw [advanceTick, other]
    rfl
  | ch1 =>
    have other : compareUnit (s.tcnt + 1#8) s.ch0 = s.ch0 := h .ch0 (by decide)
    rw [advanceTick, other]
    rfl

/-- A tick at which no match falls due moves the counter and nothing else. -/
theorem advanceTick_of_quiet {n : Nat} (h : ∀ c, QuietFor (n + 1) s.tcnt (s.ch c)) : advanceTick s = s.later 1 := by
  rw [advanceTick_eq_setCh (c := .ch0) fun d _ => (h d).compareUnit, (h .ch0).compareUnit, ← later_ch s 1, setCh_self]

/-- As many ticks as no match falls due within move the counter and nothing else. -/
theorem runOps_ticks_quiet {n : Nat} (h : ∀ c, QuietFor n s.tcnt (s.ch c)) :
    runOps (List.replicate n .tick) s = .next (s.later n) := by
  induction n generalizing s with
  | zero => simp
  | succ n ih =>
    have hq : ∀ c, QuietFor n (s.later 1).tcnt ((s.later 1).ch c) := fun c => by
      rw [later_ch]
      exact (h c).next
    rw [List.replicate_succ, runOps_cons, exec_tick fun c => (h c).1, advanceTick_of_quiet h, andThen_next, ih hq,
      later_later, Nat.add_comm 1 n]

/-- The ticks up to channel `c`'s deadline, the other unit disarmed: its match is pending (`60_exceptions.md` R286). -/
theorem runOps_ticks_due {c : Chan} {w : Nat} (hw : 1 ≤ w ∧ w ≤ 255) (he : (s.ch c).matchEn = true) (hp : (s.ch c).matchPend = false)
    (ho : (s.ch c).ocr = s.tcnt + BitVec.ofNat 8 w) (hd : ∀ d, d ≠ c → (s.ch d).matchEn = false ∧ (s.ch d).matchPend = false) :
    runOps (List.replicate w .tick) s = .next ((s.later w).setCh c { s.ch c with matchPend := true }) := by
  obtain ⟨n, rfl⟩ : ∃ n, w = n + 1 := ⟨w - 1, by omega⟩
  have quiet : ∀ d, QuietFor n s.tcnt (s.ch d) := fun d => by
    by_cases hdc : d = c
    · subst hdc
      exact quietFor_of_deadline hp ho (by omega) hw.2
    · exact quietFor_of_disarmed (hd d hdc).1 (hd d hdc).2
  have own : compareUnit ((s.later n).tcnt + BitVec.ofNat 8 1) (s.ch c) = { s.ch c with matchPend := true } :=
    if_pos ⟨he, by rw [ho, later_tcnt, BitVec.add_assoc, ← BitVec.ofNat_add]⟩
  have other : ∀ d, d ≠ c → compareUnit ((s.later n).tcnt + BitVec.ofNat 8 1) (s.ch d) = s.ch d := fun d hdc =>
    if_neg fun h => by simp [(hd d hdc).1] at h
  have last : advanceTick (s.later n) = (s.later (n + 1)).setCh c { s.ch c with matchPend := true } := by
    rw [advanceTick_eq_setCh (c := c) fun d hdc => by rw [later_ch, other d hdc], later_later, later_ch, own]
  rw [List.replicate_succ', runOps_append, runOps_ticks_quiet quiet, andThen_next, runOps_singleton,
    exec_tick fun d => by rw [later_ch]; exact (quiet d).1, last]

end Sys2Proof.Machine
end

section
/-! PROOFS. The timing record, the line code, and the arms of `EDGE` in the receiver. -/

namespace Sys2Proof.Machine

variable {c : Chan} {lvl : Level} {s : State}

/-! ### The timing record (`00_scope.md` R6 to R8) -/

section Timing

variable {t : Timing}

theorem Config.wf_timing {g : Config} (h : g.wf = true) : g.timing.wf = true := by
  simp only [Config.wf, decide_eq_true_eq] at h
  exact h.2.2.2.2

theorem Timing.wf_rxEodMin (h : t.wf = true) : 1 ≤ t.rxEodMin ∧ t.rxEodMin ≤ 255 := by
  simp only [Timing.wf, decide_eq_true_eq] at h
  omega

/-- The transmitted SOF is one to the receiver, and shorter than a turn of the counter. -/
theorem Timing.wf_txSof (h : t.wf = true) : t.isSof t.txSof = true ∧ t.txSof < 256 := by
  simp only [Timing.wf, Timing.isSof, Bool.and_eq_true, decide_eq_true_eq] at h ⊢
  omega

/-- A transmitted data pulse ends before the end-of-data deadline. -/
theorem Timing.wf_txTicks_lt (h : t.wf = true) (w : PulseWidth) : txTicks t w < t.rxEodMin := by
  simp only [Timing.wf, Timing.isShort, Timing.isLong, Bool.and_eq_true, decide_eq_true_eq] at h
  cases w <;> simp only [txTicks] <;> omega

/-- A transmitted data pulse is of its class to the receiver. -/
theorem Timing.wf_classify (h : t.wf = true) (w : PulseWidth) : classify t (txTicks t w) = some w := by
  simp only [Timing.wf, decide_eq_true_eq] at h
  obtain ⟨-, -, -, -, -, -, -, -, hs, hl, -⟩ := h
  cases w with
  | short => exact if_pos hs
  | long =>
    have notShort : t.isShort t.txLong = false := by
      simp only [Timing.isLong, Bool.and_eq_true, decide_eq_true_eq] at hl
      simp only [Timing.isShort, Bool.and_eq_false_iff, decide_eq_false_iff_not]
      omega
    simp only [classify, txTicks, notShort, hl, if_true, Bool.false_eq_true, if_false]

end Timing

/-! ### Levels and bits of the line code (`30_encoding.md` R91 to R93) -/

@[simp] theorem otherLevel_otherLevel (lvl : Level) : otherLevel (otherLevel lvl) = lvl := by cases lvl <;> rfl

theorem ne_otherLevel (lvl : Level) : lvl ≠ otherLevel lvl := by cases lvl <;> decide

/-- The bit received from a pulse is the bit it was sent for. -/
theorem dataBit_sendWidth (lvl : Level) (b : Bool) : dataBit lvl (sendWidth lvl b) = b := by cases lvl <;> cases b <;> rfl

/-- The bits of a byte in wire order (`20_memory.md` R63). -/
def byteBits (y : Byte) : List Bool := (List.range 8).map fun k => y.getLsbD (7 - k)

theorem wireBits_cons (y : Byte) (ys : List Byte) : wireBits (y :: ys) = byteBits y ++ wireBits ys := rfl

theorem byteBits_length (y : Byte) : (byteBits y).length = 8 := rfl

theorem getLsbD_shiftIn (z : Byte) (b : Bool) {k : Nat} (hk : k < 8) :
    (shiftIn z b).getLsbD k = if k = 0 then b else z.getLsbD (k - 1) := by
  cases k with
  | zero => cases b <;> simp [shiftIn]
  | succ k => cases b <;> simp [shiftIn, hk, BitVec.getLsbD_eq_getElem (show k < 8 by omega)]

/-- The bits shifted in are in the register, the last one at bit 0. -/
theorem getLsbD_foldl_shiftIn (bs : List Bool) (x : Byte) {k : Nat} (hk : k < 8) (hb : k < bs.length) :
    some ((bs.foldl shiftIn x).getLsbD k) = bs.reverse[k]? := by
  induction bs using List.reverseRecOn generalizing k with
  | nil => simp at hb
  | append_singleton bs b ih =>
    rw [List.foldl_append, List.reverse_append]
    simp only [List.foldl_cons, List.foldl_nil, List.reverse_cons, List.reverse_nil, List.nil_append, List.cons_append,
      getLsbD_shiftIn _ _ hk]
    cases k with
    | zero => rfl
    | succ k =>
      simp only [List.length_append, List.length_cons, List.length_nil] at hb
      simpa using ih (k := k) (by omega) (by omega)

/-- Eight bits shifted in are the byte, whatever the register held (`43_vpw_receiver.md` R165). -/
theorem foldl_shiftIn_byteBits (x y : Byte) : (byteBits y).foldl shiftIn x = y := by
  apply BitVec.eq_of_getLsbD_eq
  intro k hk
  have wire : (byteBits y).reverse[k]? = some (y.getLsbD k) := by
    rw [List.getElem?_reverse (by rw [byteBits_length]; exact hk), byteBits_length, byteBits, List.getElem?_map,
      List.getElem?_range (by omega), Option.map_some, show 7 - (8 - 1 - k) = k by omega]
  exact Option.some.inj ((getLsbD_foldl_shiftIn _ _ hk (by rw [byteBits_length]; exact hk)).trans wire)

theorem linePulses_append (t : Timing) (lvl : Level) (bs cs : List Bool) :
    linePulses t lvl (bs ++ cs) = linePulses t lvl bs ++ linePulses t (otherLevel^[bs.length] lvl) cs := by
  induction bs generalizing lvl with
  | nil => rfl
  | cons b bs ih => simp only [List.cons_append, linePulses, ih, List.length_cons, Function.iterate_succ_apply]

/-! ### The arms of `EDGE` -/

/-- Elapsed ticks since an edge less than a turn of the counter ago (`43_vpw_receiver.md` R160). -/
theorem elapsed_later {n : Nat} (h : (s.ch c).lastEdge = s.tcnt) (hn : n < 256) : elapsed (s.later n) c = n := by
  simp only [elapsed, later_ch, later_tcnt, h]
  bv_omega

/-- `EDGE` to Active in `Idle` (`43_vpw_receiver.md` R161). -/
theorem exec_edge_idle (hst : (s.ch c).st = .idle) (hb : (s.ch c).busIn = .passive) (hr : (s.ch c).rxEn = true) :
    exec (.edge c .active) s =
      .next (s.setCh c { s.ch c with busIn := .active, lastEdge := s.tcnt, st := .sofWait }) := by
  have en : edgeEnabled c .active s = true := by simp [edgeEnabled, hb]
  show edgeOp c .active s = _
  simp [edgeOp, en, hst, edgeIdle, stampEdge, hr]

/-- `EDGE` to Passive in `SofWait` after a SOF (`43_vpw_receiver.md` R162). -/
theorem exec_edge_sof (hw : s.cfg.wf = true) (hst : (s.ch c).st = .sofWait) (hb : (s.ch c).busIn = .active)
    (he : s.cfg.timing.isSof (elapsed s c) = true) :
    exec (.edge c .passive) s =
      .next (s.setCh c { s.ch c with
        busIn := .passive, lastEdge := s.tcnt, st := .receiving, byteIdx := 0, bitIdx := 0
        ocr := s.tcnt + BitVec.ofNat 8 s.cfg.timing.rxEodMin, matchEn := true, matchPend := false }) := by
  have en : edgeEnabled c .passive s = true := by simp [edgeEnabled, hb]
  have arm := Timing.wf_rxEodMin (Config.wf_timing hw)
  show edgeOp c .passive s = _
  simp [edgeOp, en, hst, edgeSofWait, stampEdge, he, armUnit, arm]

/-- `EDGE` in `Receiving` after a pulse of a data width is the bit of that pulse (`43_vpw_receiver.md` R163, R164). -/
theorem exec_edge_data {w : PulseWidth} (hst : (s.ch c).st = .receiving) (hb : (s.ch c).busIn = lvl)
    (he : classify s.cfg.timing (elapsed s c) = some w) (h12 : (s.ch c).byteIdx < 12) :
    exec (.edge c (otherLevel lvl)) s = appendBit c (dataBit lvl w) (stampEdge c (otherLevel lvl) s) := by
  have en : edgeEnabled c (otherLevel lvl) s = true := by
    simpa [edgeEnabled, hb] using (ne_otherLevel lvl).symm
  have h12 : (s.ch c).byteIdx ≠ 12 := by omega
  show edgeOp c (otherLevel lvl) s = _
  simp [edgeOp, en, hst, edgeReceiving, stampEdge, he, h12]

/-- A bit that is not the eighth (`43_vpw_receiver.md` R165, R167). -/
theorem appendBit_bit {b : Bool} (hw : s.cfg.wf = true) (h : (s.ch c).bitIdx < 7) :
    appendBit c b s = .next (s.setCh c { s.ch c with
      sh := shiftIn (s.ch c).sh b, bitIdx := (s.ch c).bitIdx + 1
      ocr := s.tcnt + BitVec.ofNat 8 s.cfg.timing.rxEodMin, matchEn := true, matchPend := false }) := by
  have arm := Timing.wf_rxEodMin (Config.wf_timing hw)
  have h : (s.ch c).bitIdx ≠ 7 := by omega
  simp [appendBit, h, armUnit, arm]

/-- The eighth bit stages the byte (`43_vpw_receiver.md` R165 to R167). -/
theorem appendBit_byte {b : Bool} (hw : s.cfg.wf = true) (h : (s.ch c).bitIdx = 7) (h12 : (s.ch c).byteIdx < 12)
    (hq : (s.ch c).rxq.stop < s.cfg.rxqSlots) :
    appendBit c b s = .next
      ((s.setMem (s.mem.write (cellKey (.data (.rxq c) (s.ch c).rxq.stop (s.ch c).byteIdx)) (shiftIn (s.ch c).sh b))).setCh c { s.ch c with
        sh := shiftIn (s.ch c).sh b, byteIdx := (s.ch c).byteIdx + 1, bitIdx := 0
        ocr := s.tcnt + BitVec.ofNat 8 s.cfg.timing.rxEodMin, matchEn := true, matchPend := false }) := by
  have arm := Timing.wf_rxEodMin (Config.wf_timing hw)
  simp [appendBit, h, qStage, memWrite, cellExists, queueSize, hq, h12, armUnit, arm]

end Sys2Proof.Machine
end

section
/-! PROOFS. A reception under way: the pulses of bits, bytes and frames. -/

namespace Sys2Proof.Machine

variable {c : Chan} {lvl : Level} {s u v : State} {xs : List Byte} {bs : List Bool}

/-! ### Pulses with and without their ticks -/

theorem receivePulses_append (ps qs : List (Level × Nat)) (s : State) :
    receivePulses c (ps ++ qs) s = (receivePulses c ps s).andThen (receivePulses c qs) := by
  induction ps generalizing s with
  | nil => rfl
  | cons p ps ih => simp only [List.cons_append, receivePulses, funext ih, andThen_assoc]

theorem pulseOps_append (ps qs : List (Level × Nat)) : pulseOps c (ps ++ qs) = pulseOps c ps ++ pulseOps c qs :=
  List.flatMap_append

theorem pulseOps_singleton (lvl : Level) (n : Nat) :
    pulseOps c [(lvl, n)] = List.replicate n .tick ++ [.edge c (otherLevel lvl)] := by simp [pulseOps]

/-- Channel `c` waits for the end-of-data deadline, set just now, and the other unit is disarmed. -/
structure AwaitsEod (c : Chan) (s : State) : Prop where
  matchEn : (s.ch c).matchEn = true
  matchPend : (s.ch c).matchPend = false
  ocr : (s.ch c).ocr = s.tcnt + BitVec.ofNat 8 s.cfg.timing.rxEodMin
  others : ∀ d, d ≠ c → (s.ch d).matchEn = false ∧ (s.ch d).matchPend = false

/-- No match falls due before the end-of-data deadline. -/
theorem AwaitsEod.quiet (h : AwaitsEod c s) (hw : s.cfg.wf = true) {n : Nat} (hn : n < s.cfg.timing.rxEodMin) (d : Chan) :
    QuietFor n s.tcnt (s.ch d) := by
  by_cases hd : d = c
  · subst hd
    exact quietFor_of_deadline h.matchPend h.ocr hn (Timing.wf_rxEodMin (Config.wf_timing hw)).2
  · exact quietFor_of_disarmed (h.others d hd).1 (h.others d hd).2

/-- The pulses lead from `s` to `t`, the counter moved by each width; and so do their edges with the ticks between them, when channel `c` awaits the
end of data, as it still does after them. -/
structure PulsesLead (c : Chan) (ps : List (Level × Nat)) (s t : State) : Prop where
  moved : receivePulses c ps s = .next t
  ticked : AwaitsEod c s → runOps (pulseOps c ps) s = .next t ∧ AwaitsEod c t

theorem pulsesLead_nil (c : Chan) (s : State) : PulsesLead c [] s s := ⟨rfl, fun h => ⟨rfl, h⟩⟩

theorem PulsesLead.append {ps qs : List (Level × Nat)} (h : PulsesLead c ps s u) (h' : PulsesLead c qs u v) :
    PulsesLead c (ps ++ qs) s v where
  moved := by rw [receivePulses_append, h.moved, andThen_next, h'.moved]
  ticked ha := by
    obtain ⟨run, ha⟩ := h.ticked ha
    obtain ⟨run', ha⟩ := h'.ticked ha
    exact ⟨by rw [pulseOps_append, runOps_append, run, andThen_next, run'], ha⟩

/-- One pulse shorter than the deadline. -/
theorem pulsesLead_single {n : Nat} (hw : s.cfg.wf = true) (hn : n < s.cfg.timing.rxEodMin)
    (he : exec (.edge c (otherLevel lvl)) (s.later n) = .next u) (ha : AwaitsEod c s → AwaitsEod c u) : PulsesLead c [(lvl, n)] s u where
  moved := by
    show Res.andThen (exec (.edge c (otherLevel lvl)) (s.later n)) (receivePulses c []) = _
    rw [he]
    rfl
  ticked h := by
    refine ⟨?_, ha h⟩
    rw [pulseOps_singleton, runOps_append, runOps_ticks_quiet (h.quiet hw hn), andThen_next, runOps_singleton, he]

/-! ### A reception under way -/

/-- In state `u`, channel `c` has received the bytes `xs` and the bits `bs` of the next one since state `s`, and the bus has just gone to `lvl`; storage but the
bytes of the slot at `end`, the other channel, the configuration and the filter are as they were. -/
structure Hearing (c : Chan) (s : State) (xs : List Byte) (bs : List Bool) (lvl : Level) (u : State) : Prop where
  st : (u.ch c).st = .receiving
  byteIdx : (u.ch c).byteIdx = xs.length
  bitIdx : (u.ch c).bitIdx = bs.length
  sh : ∃ x, (u.ch c).sh = bs.foldl shiftIn x
  busIn : (u.ch c).busIn = lvl
  lastEdge : (u.ch c).lastEdge = u.tcnt
  rxq : (u.ch c).rxq = (s.ch c).rxq
  staged : slotHolds (.rxq c) (s.ch c).rxq.stop xs u
  others : ∀ d, d ≠ c → u.ch d = s.ch d
  cfg : u.cfg = s.cfg
  filtActive : u.filtActive = s.filtActive
  cells : ∀ x, cellExists s.cfg x = true → (∀ i, x ≠ .data (.rxq c) (s.ch c).rxq.stop i) → cellValue x u = cellValue x s

/-- The edge that ends the pulse of bit `b`, as the receiver's bit. -/
theorem Hearing.exec_edge (h : Hearing c s xs bs lvl u) (hw : s.cfg.wf = true) (hx : xs.length < 12) (b : Bool) :
    exec (.edge c (otherLevel lvl)) (u.later (txTicks s.cfg.timing (sendWidth lvl b))) =
      appendBit c b (stampEdge c (otherLevel lvl) (u.later (txTicks s.cfg.timing (sendWidth lvl b)))) := by
  have timing := Config.wf_timing hw
  have width : txTicks s.cfg.timing (sendWidth lvl b) < 256 := by
    have := Timing.wf_txTicks_lt timing (sendWidth lvl b)
    have := Timing.wf_rxEodMin timing
    omega
  have cls : classify (u.later (txTicks s.cfg.timing (sendWidth lvl b))).cfg.timing
      (elapsed (u.later (txTicks s.cfg.timing (sendWidth lvl b))) c) = some (sendWidth lvl b) := by
    rw [elapsed_later h.lastEdge width, later_cfg, h.cfg]
    exact Timing.wf_classify timing _
  rw [exec_edge_data (by rw [later_ch, h.st]) (by rw [later_ch, h.busIn]) cls (by rw [later_ch, h.byteIdx]; exact hx), dataBit_sendWidth]

/-- A pulse of a bit that is not the last of its byte. -/
theorem Hearing.bit (h : Hearing c s xs bs lvl u) (hw : s.cfg.wf = true) (hx : xs.length < 12) (hb : bs.length < 7) (b : Bool) :
    ∃ v, PulsesLead c [(lvl, txTicks s.cfg.timing (sendWidth lvl b))] u v ∧ Hearing c s xs (bs ++ [b]) (otherLevel lvl) v := by
  have edge := h.exec_edge hw hx b
  rw [appendBit_bit (by simpa [stampEdge, h.cfg] using hw) (by simpa [stampEdge, h.bitIdx] using hb)] at edge
  simp only [stampEdge, setCh_ch_same, setCh_setCh, setCh_cfg, setCh_tcnt, later_ch, later_cfg, later_tcnt] at edge
  refine ⟨_, pulsesLead_single (by rwa [h.cfg]) (by rw [h.cfg]; exact Timing.wf_txTicks_lt (Config.wf_timing hw) _) edge fun ha => ?_, ?_⟩
  · exact ⟨by simp, by simp, by simp, fun d hd => by simpa [hd] using ha.others d hd⟩
  · obtain ⟨x, hsh⟩ := h.sh
    exact {
      st := by simpa using h.st
      byteIdx := by simpa using h.byteIdx
      bitIdx := by simp [h.bitIdx]
      sh := ⟨x, by simp [hsh]⟩
      busIn := by simp
      lastEdge := by simp
      rxq := by simpa using h.rxq
      staged := fun i hi => h.staged i hi
      others := fun d hd => by simpa [hd] using h.others d hd
      cfg := h.cfg
      filtActive := h.filtActive
      cells := h.cells }

/-- The pulse of the eighth bit of the byte `y`. -/
theorem Hearing.byte {b : Bool} {y : Byte} (h : Hearing c s xs bs lvl u) (hw : s.cfg.wf = true) (hq : (s.ch c).rxq.stop < s.cfg.rxqSlots)
    (hx : xs.length < 12) (hy : bs ++ [b] = byteBits y) :
    ∃ v, PulsesLead c [(lvl, txTicks s.cfg.timing (sendWidth lvl b))] u v ∧ Hearing c s (xs ++ [y]) [] (otherLevel lvl) v := by
  have hb : bs.length = 7 := by simpa [byteBits_length] using congrArg List.length hy
  have edge := h.exec_edge hw hx b
  obtain ⟨x, hsh⟩ := h.sh
  have hsh : shiftIn (u.ch c).sh b = y := by
    rw [← foldl_shiftIn_byteBits x y, ← hy, List.foldl_append, ← hsh]
    rfl
  rw [appendBit_byte (by simpa [stampEdge, h.cfg] using hw) (by simpa [stampEdge, h.bitIdx] using hb)
    (by simpa [stampEdge, h.byteIdx] using hx) (by simpa [stampEdge, h.rxq, h.cfg] using hq)] at edge
  simp only [stampEdge, setCh_ch_same, setCh_setMem_setCh, setCh_mem, setCh_cfg, setCh_tcnt, later_ch, later_cfg, later_tcnt,
    later_mem, hsh, h.rxq, h.byteIdx] at edge
  refine ⟨_, pulsesLead_single (by rwa [h.cfg]) (by rw [h.cfg]; exact Timing.wf_txTicks_lt (Config.wf_timing hw) _) edge fun ha => ?_, ?_⟩
  · exact ⟨by simp, by simp, by simp, fun d hd => by simpa [hd] using ha.others d hd⟩
  · have stored : ∀ z, cellExists s.cfg z = true →
        cellValue z (u.setMem (u.mem.write (cellKey (.data (.rxq c) (s.ch c).rxq.stop xs.length)) y)) =
          if z = .data (.rxq c) (s.ch c).rxq.stop xs.length then some y else cellValue z u := fun z hz =>
      cellValue_store (by simp [cellExists, queueSize, h.cfg, hq, hx]) (by rwa [h.cfg])
    exact {
      st := by simpa using h.st
      byteIdx := by simp
      bitIdx := by simp
      sh := ⟨y, by simp⟩
      busIn := by simp
      lastEdge := by simp
      rxq := by simp
      staged := fun i hi => by
        simp only [List.length_append, List.length_cons, List.length_nil] at hi
        refine (stored _ (by simp [cellExists, queueSize, hq]; omega)).trans ?_
        by_cases hin : i < xs.length
        · rw [if_neg (by simp; omega), List.getElem?_append_left hin]
          exact h.staged i hin
        · obtain rfl : i = xs.length := by omega
          simp
      others := fun d hd => by simpa [hd] using h.others d hd
      cfg := h.cfg
      filtActive := h.filtActive
      cells := fun z hz hne => by
        refine (stored z hz).trans ?_
        rw [if_neg (hne _), h.cells z hz hne] }

/-- The pulses of the bits `cs` that complete the byte `y`. -/
theorem Hearing.bits {cs : List Bool} {y : Byte} (h : Hearing c s xs bs lvl u) (hw : s.cfg.wf = true) (hq : (s.ch c).rxq.stop < s.cfg.rxqSlots)
    (hx : xs.length < 12) (hy : bs ++ cs = byteBits y) (hcs : cs ≠ []) :
    ∃ v, PulsesLead c (linePulses s.cfg.timing lvl cs) u v ∧ Hearing c s (xs ++ [y]) [] (otherLevel^[cs.length] lvl) v := by
  induction cs generalizing bs lvl u with
  | nil => exact absurd rfl hcs
  | cons b cs ih =>
    cases cs with
    | nil => exact h.byte hw hq hx hy
    | cons b' cs =>
      have hb : bs.length < 7 := by
        have := congrArg List.length hy
        simp only [List.length_append, List.length_cons, byteBits_length] at this
        omega
      obtain ⟨v, lead, hv⟩ := h.bit hw hx hb b
      obtain ⟨v', lead', hv'⟩ := ih hv (by rw [List.append_assoc]; exact hy) (List.cons_ne_nil _ _)
      exact ⟨v', lead.append lead', hv'⟩

/-- The pulses of a frame's bits stage its bytes behind those received (`43_vpw_receiver.md` R163 to R167). -/
theorem Hearing.frame {ys : List Byte} (h : Hearing c s xs [] .passive u) (hw : s.cfg.wf = true) (hq : (s.ch c).rxq.stop < s.cfg.rxqSlots)
    (hx : (xs ++ ys).length ≤ 12) :
    ∃ v, PulsesLead c (linePulses s.cfg.timing .passive (wireBits ys)) u v ∧ Hearing c s (xs ++ ys) [] .passive v := by
  induction ys generalizing xs u with
  | nil => exact ⟨u, pulsesLead_nil c u, by rwa [List.append_nil]⟩
  | cons y ys ih =>
    simp only [List.length_append, List.length_cons] at hx
    obtain ⟨v, lead, hv⟩ := h.bits (y := y) (cs := byteBits y) hw hq (by omega) rfl (List.cons_ne_nil _ _)
    obtain ⟨v', lead', hv'⟩ := ih (xs := xs ++ [y]) hv (by simp; omega)
    rw [List.append_cons]
    refine ⟨v', ?_, hv'⟩
    rw [wireBits_cons, linePulses_append]
    exact lead.append lead'

end Sys2Proof.Machine
end

section
/-! PROOFS. The end of data and the frames of the receive queue. -/

namespace Sys2Proof.Machine

variable {c : Chan} {q : QueueId} {s t u : State} {xs : List Byte} {b : Byte}

/-! ### End of data (`43_vpw_receiver.md` R171 to R175) -/

/-- Staged bytes read back as staged. -/
theorem readData_of_slotHolds {k n : Nat} (hk : k < queueSize s.cfg q) (h : slotHolds q k xs s) (hx : xs.length ≤ 12) (hn : n ≤ xs.length) :
    readData q k n s = .next (xs.take n) := by
  induction n with
  | zero => rfl
  | succ n ih =>
    have cell : memRead (.data q k n) s = .next xs[n] :=
      memRead_eq_next.mpr ⟨by simp [cellExists, hk]; omega, by rw [h n (by omega), List.getElem?_eq_getElem]⟩
    simp only [readData, ih (by omega), cell, andThen_next, List.take_append_getElem]

/-- The enabled CRC check passes on the frame (`43_vpw_receiver.md` R173). -/
def crcAccepts (s : State) (xs : List Byte) : Bool := !s.cfg.rxCrcCheck || decide (xs.getLast? = some (crc8 xs.dropLast))

theorem rxCrcPasses_eq (hq : (s.ch c).rxq.stop < s.cfg.rxqSlots) (h : slotHolds (.rxq c) (s.ch c).rxq.stop xs s) (hx : xs.length ≤ 12)
    (hne : xs ≠ []) : rxCrcPasses c xs.length s = .next (crcAccepts s xs) := by
  have pos : 0 < xs.length := List.length_pos_iff.mpr hne
  unfold rxCrcPasses crcAccepts
  cases hc : s.cfg.rxCrcCheck with
  | false => simp
  | true =>
    have last : memRead (.data (.rxq c) (s.ch c).rxq.stop (xs.length - 1)) s = .next (xs.getLast hne) := by
      refine memRead_eq_next.mpr ⟨by simp [cellExists, queueSize, hq]; omega, ?_⟩
      rw [h _ (by omega), ← List.getLast?_eq_getElem?, List.getLast?_eq_getLast_of_ne_nil hne]
    rw [if_pos rfl, readData_of_slotHolds hq h hx (by omega), andThen_next, last, andThen_next, ← List.dropLast_eq_take,
      List.getLast?_eq_getLast_of_ne_nil hne]
    simp only [Bool.not_true, Bool.false_or, Option.some.injEq, eq_comm (a := xs.getLast hne)]
    rfl

theorem filterMatches_eq_true : filterMatches b s = true ↔ s.filtActive = [] ∨ b ∈ s.filtActive := by
  simp [filterMatches]

/-- A frame of at least one byte is kept when the CRC check and the filter accept it. -/
theorem not_frameDropped_cons : ¬ frameDropped s (b :: xs) ↔ crcAccepts s (b :: xs) = true ∧ filterMatches b s = true := by
  simp [frameDropped, crcAccepts, filterMatches_eq_true, or_iff_not_imp_left]

/-- The channel at the end of data: idle and disarmed (`43_vpw_receiver.md` R171). -/
def atRest (c : Chan) (s : State) : State := s.setCh c { s.ch c with st := .idle, matchEn := false, matchPend := false }

/-- `MATCH` in `Receiving` commits the frame that the receiver keeps, and drops any other. -/
theorem exec_match_receiving (hp : (s.ch c).matchPend = true) (hst : (s.ch c).st = .receiving) (hn : (s.ch c).byteIdx = xs.length)
    (hx : xs.length ≤ 12) (hq : (s.ch c).rxq.stop < s.cfg.rxqSlots) (h : slotHolds (.rxq c) (s.ch c).rxq.stop xs s) :
    (frameDropped s xs → exec (.timerMatch c) s = .next (atRest c s)) ∧
    (¬ frameDropped s xs →
      exec (.timerMatch c) s = (qCommit (.rxq c) xs.length (atRest c s)).andThen fun r => .next r.2) := by
  have arm : exec (.timerMatch c) s = matchReceiving c (disarmUnit c s) := by
    show matchOp c s = _
    simp only [matchOp, matchEnabled, hp, if_true, hst]
  have idle : (disarmUnit c s).setCh c { (disarmUnit c s).ch c with st := .idle } = atRest c s := by simp [atRest]
  rw [arm]
  cases xs with
  | nil =>
    have zero : ((disarmUnit c s).ch c).byteIdx = 0 := by simpa using hn
    refine ⟨fun _ => ?_, fun hd => absurd (.inl rfl) hd⟩
    simp only [matchReceiving, idle]
    rw [zero, if_pos rfl]
  | cons b xs =>
    have len : ((disarmUnit c s).ch c).byteIdx = (b :: xs).length := by simpa using hn
    have crc : rxCrcPasses c (b :: xs).length (atRest c s) = .next (crcAccepts s (b :: xs)) :=
      rxCrcPasses_eq (by simpa [atRest] using hq) (fun i hi => by simpa [atRest] using h i hi) hx (List.cons_ne_nil _ _)
    have first : memRead (.data (.rxq c) ((atRest c s).ch c).rxq.stop 0) (atRest c s) = .next b :=
      memRead_eq_next.mpr ⟨by simp [cellExists, queueSize, atRest, hq], by simpa [atRest] using h 0 (by simp)⟩
    have filter : filterMatches b (atRest c s) = filterMatches b s := rfl
    have run : matchReceiving c (disarmUnit c s) =
        if crcAccepts s (b :: xs) = true ∧ filterMatches b s = true then
          (qCommit (.rxq c) (b :: xs).length (atRest c s)).andThen fun r => .next r.2
        else .next (atRest c s) := by
      simp only [matchReceiving, idle]
      rw [len, if_neg (show (b :: xs).length ≠ 0 by simp), crc, andThen_next]
      simp only [first, filter, andThen_next, ite_and]
    rw [run]
    exact ⟨fun hd => if_neg fun ha => not_frameDropped_cons.mpr ha hd, fun hd => if_pos (not_frameDropped_cons.mp hd)⟩

/-! ### The frames of the receive queue after the match -/

/-- Since state `s` nothing has become of queue `q` but that the bytes `xs` were staged in the slot at its `end` (`41_frame_queue.md` R133). -/
structure StagedSince (q : QueueId) (s : State) (xs : List Byte) (u : State) : Prop where
  cfg : u.cfg = s.cfg
  queue : u.queue q = s.queue q
  staged : slotHolds q (s.queue q).stop xs u
  cells : ∀ x, cellExists s.cfg x = true → (∀ i, x ≠ .data q (s.queue q).stop i) → cellValue x u = cellValue x s

/-- Buffered slots hold their frames when nothing is stored but in the slot at `end`. -/
theorem slotFrame_of_kept (hQ : QueueInv q s)
    (h : ∀ x, cellExists s.cfg x = true → (∀ i, x ≠ .data q (s.queue q).stop i) → x ≠ .len q (s.queue q).stop → cellValue x t = cellValue x s) :
    ∀ k, k < queueSize s.cfg q → (s.queue q).holds k → slotFrame q k t = slotFrame q k s := by
  intro k hk hh
  have ne : k ≠ (s.queue q).stop := fun he => not_holds_stop _ (he ▸ hh)
  obtain ⟨v, hv, -, h12, -⟩ := hQ.frames k hk hh
  refine slotFrame_congr (h _ (by simp [cellExists, hk]) (by simp) (by simp [ne])) fun v' hv' i hi => ?_
  obtain rfl : v = v' := Option.some.inj (hv.symm.trans hv')
  exact h _ (by simp [cellExists, hk]; omega) (by simp [ne]) (by simp)

/-- Staging changes no frame of the queue. -/
theorem StagedSince.frames_eq (h : StagedSince q s xs u) (hQ : QueueInv q s) : queueFrames q u = queueFrames q s :=
  queueFrames_congr hQ.start_lt hQ.stop_lt h.queue h.cfg (slotFrame_of_kept hQ fun x hx hd _ => h.cells x hx hd)

theorem withFrame_of_full (hf : queueFull q s = true) : withFrame q xs s = queueFrames q s :=
  if_pos (isFull_eq_true.mp hf)

theorem withFrame_of_room (hf : queueFull q s = false) : withFrame q xs s = queueFrames q s ++ [some xs] :=
  if_neg (isFull_eq_false.mp hf)

/-- Queue pointers are no protocol state. -/
theorem setQueue_ch_st (s : State) (q : QueueId) (p : Ptrs) (d : Chan) : ((s.setQueue q p).ch d).st = (s.ch d).st := by
  cases q with
  | rxq e => by_cases h : d = e <;> simp [h]
  | txq e => by_cases h : d = e <;> simp [h]

/-- Committing the staged bytes puts their frame behind the others, or drops it on a full queue (`41_frame_queue.md` R134). -/
theorem StagedSince.commit (h : StagedSince q s xs u) (hQ : QueueInv q s) (hx : 1 ≤ xs.length ∧ xs.length ≤ 12) :
    ∃ r, qCommit q xs.length u = .next r ∧ (∀ d, (r.2.ch d).st = (u.ch d).st) ∧ queueFrames q r.2 = withFrame q xs s := by
  have full : queueFull q u = queueFull q s := by simp only [queueFull, h.queue, h.cfg]
  cases hf : queueFull q s with
  | true =>
    refine ⟨_, qCommit_eq_next.mpr ⟨hx, .inl ⟨full.trans hf, rfl, rfl⟩⟩, fun d => by rw [raiseFault_ch], ?_⟩
    rw [withFrame_of_full hf]
    exact StagedSince.frames_eq (u := raiseFault _ u) ⟨h.cfg, by rw [raiseFault_queue, h.queue], h.staged, h.cells⟩ hQ
  | false =>
    have len : cellExists s.cfg (.len q (s.queue q).stop) = true := decide_eq_true hQ.stop_lt
    refine ⟨_, qCommit_eq_next.mpr ⟨hx, .inr ⟨full.trans hf, rfl, by rwa [h.cfg, h.queue], rfl⟩⟩, fun d => ?_, ?_⟩
    · rw [setQueue_ch_st, setMem_ch]
    · rw [withFrame_of_room hf]
      have cell : ∀ x, cellExists s.cfg x = true →
          cellValue x (u.setMem (u.mem.write (cellKey (.len q (s.queue q).stop)) (BitVec.ofNat 8 xs.length))) =
            if x = .len q (s.queue q).stop then some (BitVec.ofNat 8 xs.length) else cellValue x u := fun x hx =>
        cellValue_store (by rwa [h.cfg]) (by rwa [h.cfg])
      simp only [h.queue, h.cfg]
      refine queueFrames_push hQ.start_lt hQ.stop_lt hf ((setQueue_cfg _ _ _).trans h.cfg) (setQueue_queue_same _ _ _) ?_ ?_
      · refine slotFrame_of_cells ?_ hx.2 fun i hi => ?_
        · rw [cellValue_setQueue, cell _ len, if_pos rfl]
        · rw [cellValue_setQueue, cell _ (by simp [cellExists, hQ.stop_lt]; omega), if_neg (by simp)]
          exact h.staged i hi
      · refine slotFrame_of_kept hQ fun x hx hd hl => ?_
        rw [cellValue_setQueue, cell x hx, if_neg hl, h.cells x hx hd]

/-- The state when the end-of-data match falls due. -/
def eodDue (c : Chan) (u : State) : State := (u.later u.cfg.timing.rxEodMin).setCh c { u.ch c with matchPend := true }

/-- The match at the end of a frame received since `s`: the channel is idle, and the frame is behind those buffered, unless the receiver drops it
(`43_vpw_receiver.md` R171 to R175). -/
theorem Hearing.exec_match (h : Hearing c s xs [] .passive u) (hQ : QueueInv (.rxq c) s) (hx : xs.length ≤ 12) :
    ∃ t, exec (.timerMatch c) (eodDue c u) = .next t ∧ (t.ch c).st = .idle ∧
      (frameDropped s xs → queueFrames (.rxq c) t = queueFrames (.rxq c) s) ∧
      (¬ frameDropped s xs → queueFrames (.rxq c) t = withFrame (.rxq c) xs s) := by
  have stop_lt : (s.ch c).rxq.stop < s.cfg.rxqSlots := hQ.stop_lt
  have dropped : frameDropped (eodDue c u) xs ↔ frameDropped s xs := by
    simp only [frameDropped, eodDue, setCh_cfg, setCh_filtActive, later_cfg, later_filtActive, h.cfg, h.filtActive]
  have rest : StagedSince (.rxq c) s xs (atRest c (eodDue c u)) :=
    ⟨h.cfg, by simp [atRest, eodDue, h.rxq], h.staged, h.cells⟩
  obtain ⟨drop, keep⟩ := exec_match_receiving (c := c) (s := eodDue c u) (xs := xs) (by simp [eodDue]) (by simpa [eodDue] using h.st)
    (by simpa [eodDue] using h.byteIdx) hx (by simpa [eodDue, h.rxq, h.cfg] using stop_lt)
    (fun i hi => by simpa [eodDue, h.rxq] using h.staged i hi)
  rw [dropped] at drop keep
  by_cases hd : frameDropped s xs
  · exact ⟨_, drop hd, by simp [atRest], fun _ => rest.frames_eq hQ, fun hn => absurd hd hn⟩
  · have pos : 1 ≤ xs.length := List.length_pos_iff.mpr fun hnil => hd (.inl hnil)
    obtain ⟨r, run, st, frames⟩ := rest.commit hQ ⟨pos, hx⟩
    refine ⟨r.2, by rw [keep hd, run, andThen_next], by rw [st]; simp [atRest], fun hn => absurd hn hd, fun _ => frames⟩

end Sys2Proof.Machine
end

section
/-! PROOFS. The round trip of the line code. -/

namespace Sys2Proof.Machine

variable {c : Chan} {s u : State} {xs : List Byte}

/-! ### The start of a frame (`43_vpw_receiver.md` R161, R162) -/

/-- A channel that has accepted the SOF has heard nothing of the frame yet. -/
theorem hearing_start (hst : (s.ch c).st = .receiving) (hby : (s.ch c).byteIdx = 0) (hbi : (s.ch c).bitIdx = 0)
    (hbus : (s.ch c).busIn = .passive) (hle : (s.ch c).lastEdge = s.tcnt) : Hearing c s [] [] .passive s where
  st := hst
  byteIdx := hby
  bitIdx := hbi
  sh := ⟨_, rfl⟩
  busIn := hbus
  lastEdge := hle
  rxq := rfl
  staged := fun i hi => absurd hi (Nat.not_lt_zero i)
  others := fun _ _ => rfl
  cfg := rfl
  filtActive := rfl
  cells := fun _ _ _ => rfl

/-- An idle disarmed channel on a Passive bus with the receive decoder enabled, and the other unit disarmed. -/
structure Listening (c : Chan) (s : State) : Prop where
  st : (s.ch c).st = .idle
  busIn : (s.ch c).busIn = .passive
  rxEn : (s.ch c).rxEn = true
  disarmed : ∀ d, (s.ch d).matchEn = false ∧ (s.ch d).matchPend = false

/-- The operations of a transmitted SOF: the edge to Active, its ticks, the edge back. -/
def sofOps (c : Chan) (t : Timing) : List Instr := .edge c .active :: pulseOps c [(.active, t.txSof)]

/-- The state after the edge to Active that starts a SOF. -/
def sofRising (c : Chan) (s : State) : State := s.setCh c { s.ch c with busIn := .active, lastEdge := s.tcnt, st := .sofWait }

/-- No match falls due during a SOF. -/
theorem Listening.quiet_sofRising (h : Listening c s) (n : Nat) (d : Chan) : QuietFor n (sofRising c s).tcnt ((sofRising c s).ch d) := by
  obtain ⟨en, pend⟩ := h.disarmed d
  by_cases hd : d = c
  · subst hd
    exact quietFor_of_disarmed (by simpa [sofRising] using en) (by simpa [sofRising] using pend)
  · exact quietFor_of_disarmed (by simpa [sofRising, hd] using en) (by simpa [sofRising, hd] using pend)

/-- A transmitted SOF starts the reception with a fresh cursor and the end-of-data deadline set. -/
theorem Listening.sof (h : Listening c s) (hw : s.cfg.wf = true) :
    ∃ u, runOps (sofOps c s.cfg.timing) s = .next u ∧ Hearing c s [] [] .passive u ∧ AwaitsEod c u := by
  obtain ⟨isSof, width⟩ := Timing.wf_txSof (Config.wf_timing hw)
  have rise : exec (.edge c .active) s = .next (sofRising c s) := exec_edge_idle h.st h.busIn h.rxEn
  have fall := exec_edge_sof (c := c) (s := (sofRising c s).later s.cfg.timing.txSof) hw (by simp [sofRising]) (by simp [sofRising])
    (by rw [elapsed_later (by simp [sofRising]) width]; exact isSof)
  have run : runOps (sofOps c s.cfg.timing) s = exec (.edge c .passive) ((sofRising c s).later s.cfg.timing.txSof) := by
    rw [sofOps, runOps_cons, rise, andThen_next, pulseOps_singleton, runOps_append, runOps_ticks_quiet (h.quiet_sofRising _),
      andThen_next, runOps_singleton]
    rfl
  refine ⟨_, run.trans fall, ?_, by simp, by simp, by simp, fun d hd => by simpa [sofRising, hd] using h.disarmed d⟩
  exact {
    st := by simp
    byteIdx := by simp
    bitIdx := by simp
    sh := ⟨_, rfl⟩
    busIn := by simp
    lastEdge := by simp
    rxq := by simp [sofRising]
    staged := fun i hi => absurd hi (Nat.not_lt_zero i)
    others := fun d hd => by simp [sofRising, hd]
    cfg := rfl
    filtActive := rfl
    cells := fun _ _ _ => rfl }

/-- The ticks of the end-of-data deadline make its match pending. -/
theorem runOps_silence (ha : AwaitsEod c u) (hw : u.cfg.wf = true) :
    runOps (silenceOps c u.cfg.timing) u = exec (.timerMatch c) (eodDue c u) := by
  have ticks := runOps_ticks_due (Timing.wf_rxEodMin (Config.wf_timing hw)) ha.matchEn ha.matchPend ha.ocr ha.others
  rw [silenceOps, runOps_append, ticks, andThen_next, runOps_singleton, eodDue]

theorem frameOps_eq (t : Timing) (xs : List Byte) :
    frameOps c t xs = sofOps c t ++ pulseOps c (linePulses t .passive (wireBits xs)) := by
  rw [frameOps, sofOps, List.cons_append, ← pulseOps_append]
  rfl

/-- From an idle channel: the SOF, the pulses of the frame, the silence and the match. -/
theorem Listening.frame (h : Listening c s) (hw : s.cfg.wf = true) (hQ : QueueInv (.rxq c) s) (hx : xs.length ≤ 12) :
    ∃ u t, runOps (frameOps c s.cfg.timing xs) s = .next u ∧ Hearing c s xs [] .passive u ∧
      runOps (silenceOps c s.cfg.timing) u = .next t ∧ (t.ch c).st = .idle ∧
      (frameDropped s xs → queueFrames (.rxq c) t = queueFrames (.rxq c) s) ∧
      (¬ frameDropped s xs → queueFrames (.rxq c) t = withFrame (.rxq c) xs s) := by
  obtain ⟨v, sof, hv, ha⟩ := h.sof hw
  obtain ⟨u, lead, hu⟩ := hv.frame (ys := xs) hw hQ.stop_lt hx
  obtain ⟨run, ha⟩ := lead.ticked ha
  obtain ⟨t, last, idle, drop, keep⟩ := hu.exec_match hQ hx
  have silence := runOps_silence ha (by rw [hu.cfg, hw])
  rw [hu.cfg] at silence
  exact ⟨u, t, by rw [frameOps_eq, runOps_append, sof, andThen_next, run], hu, silence.trans last, idle, drop, keep⟩

/-- There are two channels (`00_scope.md` R2). -/
theorem chan_eq_or {c d : Chan} (h : d ≠ c) (e : Chan) : e = c ∨ e = d := by
  revert h
  cases c <;> cases d <;> cases e <;> decide

/-- Settles O26: the frame from an idle channel with its ticks, and its pulses from an accepted SOF; by induction over the bytes and their bits. -/
theorem receiverDecodesThePulseTrain : Obligations.ReceiverDecodesThePulseTrain := by
  intro c xs s hw hx
  refine ⟨fun d hd hQ hen hpend hst hbus hrx hen' hpend' => ?_, fun hq hst hby hbi hbus hle => ?_⟩
  · have disarmed : ∀ e, (s.ch e).matchEn = false ∧ (s.ch e).matchPend = false := fun e => by
      rcases chan_eq_or hd e with rfl | rfl
      exacts [⟨hen', hpend'⟩, ⟨hen, hpend⟩]
    obtain ⟨u, t, run, hu, silence, idle, drop, keep⟩ := Listening.frame ⟨hst, hbus, hrx, disarmed⟩ hw (hQ (.rxq c)) hx
    exact ⟨u, t, run, hu.st, hu.byteIdx, hu.bitIdx, hu.rxq, hu.staged, silence, idle, drop, keep⟩
  · obtain ⟨t, lead, ht⟩ := (hearing_start hst hby hbi hbus hle).frame (ys := xs) hw hq hx
    exact ⟨t, lead.moved, ht.st, ht.byteIdx, ht.bitIdx, ht.rxq, ht.staged⟩

end Sys2Proof.Machine
end

section
/-! PROOFS. What the ring operations write, and what they leave unchanged. -/

namespace Sys2Proof.Machine

variable {s t u : State} {b : Byte}

/-! ### The frame of the rings -/

/-- Going from `s` to `t`, nothing is written but storage, the pointers of the rings and the ghost log. -/
def RingWrites (s t : State) : Prop :=
  t = { s with mem := t.mem, ringIn := t.ringIn, ringOut := t.ringOut, raised := t.raised }

theorem RingWrites.trans (h : RingWrites s t) (h' : RingWrites t u) : RingWrites s u := by
  rw [RingWrites, h', h]

theorem RingWrites.tcnt (h : RingWrites s t) : t.tcnt = s.tcnt := by rw [h]

theorem RingWrites.sess (h : RingWrites s t) : t.sess = s.sess := by rw [h]

theorem RingWrites.ch (h : RingWrites s t) (c : Chan) : t.ch c = s.ch c := by
  rw [h]
  cases c <;> rfl

theorem ringWrites_raiseFault (e : Raised) (s : State) : RingWrites s (raiseFault e s) := rfl

theorem ringWrites_setRing (s : State) (r : RingId) (p : Ptrs) : RingWrites s (s.setRing r p) := rfl

theorem ringStore_ringWrites {r : RingId} (h : ringStore r b s = .next t) : RingWrites s t := by
  obtain ⟨-, rfl⟩ := ringStore_eq_next.mp h
  rfl

theorem pushOut_ringWrites (h : pushOut b s = .next t) : RingWrites s t := by
  obtain ⟨-, rfl⟩ | ⟨-, h⟩ := pushOut_eq_next.mp h
  · exact ringWrites_raiseFault _ s
  · exact ringStore_ringWrites h

theorem pushIn_ringWrites (h : pushIn b s = .next t) : RingWrites s t := by
  obtain ⟨-, h⟩ | ⟨-, -, rfl⟩ | ⟨-, -, h⟩ := pushIn_eq_next.mp h
  · exact ringStore_ringWrites h
  · exact ringWrites_raiseFault _ s
  · exact ((ringWrites_raiseFault _ s).trans (ringWrites_setRing _ _ _)).trans (ringStore_ringWrites h)

theorem ringPop_ringWrites {r : RingId} {p : Byte × State} (h : ringPop r s = .next p) : RingWrites s p.2 := by
  obtain ⟨-, -, -, ht⟩ := ringPop_eq_next.mp h
  rw [ht]
  exact ringWrites_setRing s r _

end Sys2Proof.Machine
end

section
/-! PROOFS. The parts of the block's invariant under one change of the state each: a register, a stored cell, a pointer, the session. -/

namespace Sys2Proof.Machine

variable {s t : State} {c : Chan} {q : QueueId} {r : RingId}

/-! ### Sizes of a well-formed configuration -/

theorem Config.wf_queueSize {g : Config} (h : g.wf = true) (q : QueueId) : 2 ≤ queueSize g q := by
  simp only [Config.wf, decide_eq_true_eq] at h
  obtain ⟨hrx, htx, -⟩ := h
  cases q
  · exact hrx
  · exact htx

theorem Config.wf_ringSize {g : Config} (h : g.wf = true) (r : RingId) : 2 ≤ ringSize g r := by
  simp only [Config.wf, decide_eq_true_eq] at h
  obtain ⟨-, -, hin, hout, -⟩ := h
  cases r
  · exact hin
  · exact hout

/-! ### Storage -/

/-- The length cell of every buffered slot reads as before. -/
def KeepsLens (s t : State) : Prop :=
  ∀ q k, k < queueSize s.cfg q → (s.queue q).holds k → cellValue (.len q k) t = cellValue (.len q k) s

theorem keepsLens_of_mem (h : t.mem = s.mem) : KeepsLens s t := fun _ _ _ _ => cellValue_of_mem h

/-- Storing to any cell but the length of a buffered slot. -/
theorem keepsLens_of_write {x : CellId} {v : Byte} (hx : cellExists s.cfg x = true)
    (hb : ∀ q k, (s.queue q).holds k → CellId.len q k ≠ x) (h : t.mem = s.mem.write (cellKey x) v) : KeepsLens s t := by
  intro q k hk hh
  rw [cellValue_of_mem (t := s.setMem (s.mem.write (cellKey x) v)) h, cellValue_store (y := .len q k) hx (decide_eq_true hk), if_neg (hb q k hh)]

@[simp] theorem written_setCh (x : CellId) (s : State) (c : Chan) (k : Channel) : written x (s.setCh c k) ↔ written x s := Iff.rfl

/-- A stored cell is written. -/
theorem written_store (x : CellId) (v : Byte) (s : State) : written x (s.setMem (s.mem.write (cellKey x) v)) := by
  simp [written, cellValue, Memory.read_write]

/-! ### The registers of a channel -/

/-- The decoder is enabled outside `TxSending` (`10_state.md` R40(a)). -/
theorem ChannelInv.rxEn_true (h : ChannelInv c s) (hst : (s.ch c).st ≠ .txSending) : (s.ch c).rxEn = true :=
  Bool.eq_true_of_not_eq_false fun hrx => hst (h.rxEn_iff.mp hrx)

/-- The registers the invariant reads unchanged: the pointers may move where the protocol state does not rely on them. -/
theorem channelInv_of_regs (h : ChannelInv c s)
    (hst : (t.ch c).st = (s.ch c).st) (hrx : (t.ch c).rxEn = (s.ch c).rxEn) (hen : (t.ch c).matchEn = (s.ch c).matchEn)
    (hpend : (t.ch c).matchPend = (s.ch c).matchPend) (hd : (t.ch c).drive = (s.ch c).drive)
    (hby : (t.ch c).byteIdx = (s.ch c).byteIdx) (hbi : (t.ch c).bitIdx = (s.ch c).bitIdx)
    (hstop : (s.ch c).st = .receiving → (t.ch c).rxq.stop = (s.ch c).rxq.stop)
    (hne : queueEmpty (.txq c) s = false →
      (s.ch c).st = .txArmed ∨ (s.ch c).st = .txWaitIfs ∨ (s.ch c).st = .txSending → queueEmpty (.txq c) t = false)
    (hm : KeepsWritten s t) : ChannelInv c t := by
  refine ⟨?_, ?_, ?_, ?_, ?_, ?_, ?_, ?_⟩ <;> simp only [hst, hrx, hen, hpend, hd, hby, hbi, queue_rxq]
  · exact h.rxEn_iff
  · exact h.disarmed
  · exact h.armed
  · exact h.released
  · exact fun htx => hne (h.frameHeld htx) htx
  · exact h.byteIdx_le
  · exact h.bitIdx_le
  · intro hr i hi
    rw [hstop hr]
    exact hm _ (h.staged hr i hi)

/-! ### The whole block -/

/-- With every channel's registers and the session as before, the invariant rests on storage, the rings and the filter. -/
theorem BlockInv.frame (h : BlockInv s) (hc : t.cfg = s.cfg) (hwf : t.mem.wf) (hm : KeepsWritten s t) (hl : KeepsLens s t)
    (hch : ∀ c, t.ch c = s.ch c) (hr : ∀ r, RingInv r t) (ha : t.filtActive.length ≤ s.cfg.filterMax)
    (hf : t.filtStage.length ≤ s.cfg.filterMax) (hse : t.sess = s.sess) (hx : t.xferMode = s.xferMode) : BlockInv t := by
  have hq : ∀ q, t.queue q = s.queue q := by
    rintro (c | c) <;> simp [hch]
  exact {
    cfg := by rw [hc, h.cfg]
    mem := hwf
    channels := fun c => channelInv_congr (h.channels c) (hch c) hm
    queues := fun q => queueInv_congr (h.queues q) (hq q) hc hm (hl q)
    rings := hr
    active_le := by rwa [hc]
    stage_le := by rwa [hc]
    session := sessionInv_congr h.session h.queues hse hm (fun d => by rw [hq]) (fun d => by simp only [queueEmpty, hq, imp_self])
      (fun d => by rw [hq]) hl
    xferMode := by rw [hx, h.xferMode] }

/-- The counter, `sdr`, the inputs, the schedule, the returned value and the ghost log are not in the invariant. -/
theorem BlockInv.congr (h : BlockInv s) (hc : t.cfg = s.cfg := by rfl) (hm : t.mem = s.mem := by rfl) (h0 : t.ch0 = s.ch0 := by rfl)
    (h1 : t.ch1 = s.ch1 := by rfl) (hin : t.ringIn = s.ringIn := by rfl) (hout : t.ringOut = s.ringOut := by rfl)
    (ha : t.filtActive = s.filtActive := by rfl) (hf : t.filtStage = s.filtStage := by rfl) (hse : t.sess = s.sess := by rfl)
    (hx : t.xferMode = s.xferMode := by rfl) : BlockInv t := by
  have hch : ∀ c, t.ch c = s.ch c := by
    rintro (_ | _)
    exacts [h0, h1]
  have hr : ∀ r, t.ring r = s.ring r := by
    rintro (_ | _)
    exacts [hin, hout]
  exact h.frame hc (hm ▸ h.mem) (keepsWritten_of_mem hm) (keepsLens_of_mem hm) hch
    (fun r => ringInv_congr (h.rings r) (hr r) hc (keepsWritten_of_mem hm)) (ha ▸ h.active_le) (hf ▸ h.stage_le) hse hx

theorem BlockInv.raiseFault (h : BlockInv s) (e : Raised) : BlockInv (raiseFault e s) := h.congr

/-- The lists of the filter, each within its bound (`10_state.md` R31). -/
theorem BlockInv.setFilter (h : BlockInv s) {xs ys : List Byte} (hx : xs.length ≤ s.cfg.filterMax) (hy : ys.length ≤ s.cfg.filterMax) :
    BlockInv { s with filtActive := xs, filtStage := ys } :=
  h.frame rfl h.mem (keepsWritten_of_mem rfl) (keepsLens_of_mem rfl) (by rintro (_ | _) <;> rfl)
    (fun r => ringInv_congr (h.rings r) (by cases r <;> rfl) rfl (keepsWritten_of_mem rfl)) hx hy rfl rfl

/-- A store to a cell that is not the length of a buffered slot. -/
theorem BlockInv.store (h : BlockInv s) {x : CellId} (v : Byte) (hx : cellExists s.cfg x = true)
    (hb : ∀ q k, (s.queue q).holds k → CellId.len q k ≠ x) : BlockInv (s.setMem (s.mem.write (cellKey x) v)) :=
  have hm : KeepsWritten s (s.setMem (s.mem.write (cellKey x) v)) := keepsWritten_of_write rfl
  h.frame rfl (Memory.write_wf _ _ _ h.mem) hm (keepsLens_of_write hx hb rfl) (setMem_ch s _)
    (fun r => ringInv_congr (h.rings r) (setMem_ring s _ r) rfl hm) h.active_le h.stage_le rfl rfl

/-- The pointers of a ring. -/
theorem BlockInv.setRing (h : BlockInv s) {p : Ptrs} (hr : RingInv r (s.setRing r p)) : BlockInv (s.setRing r p) := by
  refine h.frame rfl h.mem (keepsWritten_of_mem rfl) (keepsLens_of_mem rfl) (setRing_ch s r p) (fun r' => ?_) h.active_le h.stage_le rfl rfl
  by_cases hd : r' = r
  · exact hd ▸ hr
  · exact ringInv_congr (h.rings r') (by rw [setRing_ring, if_neg hd]) rfl (keepsWritten_of_mem rfl)

/-- The session. -/
theorem BlockInv.setSess (h : BlockInv s) {v : Session} (hv : SessionInv (s.setSess v)) : BlockInv (s.setSess v) where
  cfg := h.cfg
  mem := h.mem
  channels c := channelInv_congr (h.channels c) (setSess_ch s v c) (keepsWritten_of_mem rfl)
  queues q := queueInv_congr (h.queues q) (setSess_queue s v q) rfl (keepsWritten_of_mem rfl) (keepsLens_of_mem rfl q)
  rings r := ringInv_congr (h.rings r) (setSess_ring s v r) rfl (keepsWritten_of_mem rfl)
  active_le := h.active_le
  stage_le := h.stage_le
  session := hv
  xferMode := h.xferMode

/-- The registers of a channel, its pointers unmoved. -/
theorem BlockInv.setCh (h : BlockInv s) {k : Channel} (hr : k.rxq = (s.ch c).rxq) (ht : k.txq = (s.ch c).txq)
    (hk : ChannelInv c (s.setCh c k)) : BlockInv (s.setCh c k) := by
  have hm : KeepsWritten s (s.setCh c k) := keepsWritten_of_mem rfl
  have hl : KeepsLens s (s.setCh c k) := keepsLens_of_mem rfl
  have hq : ∀ q, (s.setCh c k).queue q = s.queue q := by
    rintro (d | d) <;> simp only [queue_rxq, queue_txq, setCh_ch] <;> split <;> simp_all
  exact {
    cfg := h.cfg
    mem := h.mem
    channels := fun d => by
      by_cases hd : d = c
      · exact hd ▸ hk
      · exact channelInv_congr (h.channels d) (setCh_ch_other s k hd) hm
    queues := fun q => queueInv_congr (h.queues q) (hq q) rfl hm (hl q)
    rings := fun r => ringInv_congr (h.rings r) (setCh_ring s c k r) rfl hm
    active_le := h.active_le
    stage_le := h.stage_le
    session := sessionInv_congr h.session h.queues rfl hm (fun d => by rw [hq]) (fun d => by simp only [queueEmpty, hq, imp_self])
      (fun d => by rw [hq]) hl
    xferMode := h.xferMode }

/-! ### A channel in each phase of the protocol -/

/-- In `Idle` and `SofWait`: disarmed, the decoder enabled, the bus released. -/
theorem BlockInv.setCh_resting (h : BlockInv s) {k : Channel} (hr : k.rxq = (s.ch c).rxq) (ht : k.txq = (s.ch c).txq)
    (hst : k.st = .idle ∨ k.st = .sofWait) (hrx : k.rxEn = true) (hen : k.matchEn = false) (hpend : k.matchPend = false)
    (hd : k.drive = .passive) (hby : k.byteIdx ≤ 12) (hbi : k.bitIdx ≤ 7) : BlockInv (s.setCh c k) := by
  refine h.setCh hr ht ?_
  rcases hst with hst | hst <;> constructor <;> simp [*]

/-- In `Receiving`: armed, the complete bytes staged. -/
theorem BlockInv.setCh_receiving (h : BlockInv s) {k : Channel} (hr : k.rxq = (s.ch c).rxq) (ht : k.txq = (s.ch c).txq)
    (hst : k.st = .receiving) (hrx : k.rxEn = true) (hen : k.matchEn = true) (hd : k.drive = .passive) (hby : k.byteIdx ≤ 12)
    (hbi : k.bitIdx ≤ 7) (hw : ∀ i, i < k.byteIdx → written (.data (.rxq c) (s.ch c).rxq.stop i) s) : BlockInv (s.setCh c k) := by
  refine h.setCh hr ht ?_
  constructor <;> simp_all

/-- In `TxArmed` and `TxWaitIfs`: armed, the bus released, a frame in the queue. -/
theorem BlockInv.setCh_waiting (h : BlockInv s) {k : Channel} (hr : k.rxq = (s.ch c).rxq) (ht : k.txq = (s.ch c).txq)
    (hst : k.st = .txArmed ∨ k.st = .txWaitIfs) (hrx : k.rxEn = true) (hen : k.matchEn = true) (hd : k.drive = .passive)
    (hne : (s.ch c).txq.isEmpty = false) (hby : k.byteIdx ≤ 12) (hbi : k.bitIdx ≤ 7) : BlockInv (s.setCh c k) := by
  refine h.setCh hr ht ?_
  rcases hst with hst | hst <;> constructor <;> simp [*, queueEmpty]

/-- In `TxSending`: armed, the decoder disabled, a frame in the queue. -/
theorem BlockInv.setCh_sending (h : BlockInv s) {k : Channel} (hr : k.rxq = (s.ch c).rxq) (ht : k.txq = (s.ch c).txq)
    (hst : k.st = .txSending) (hrx : k.rxEn = false) (hen : k.matchEn = true) (hne : (s.ch c).txq.isEmpty = false)
    (hby : k.byteIdx ≤ 12) (hbi : k.bitIdx ≤ 7) : BlockInv (s.setCh c k) := by
  refine h.setCh hr ht ?_
  constructor <;> simp [*, queueEmpty]

/-! ### Pointers of a frame queue -/

/-- A frame is being staged at the end of the queue: by the receiver, or by a session that takes a frame in. -/
def Staging (s : State) : QueueId → Prop
  | .rxq c => (s.ch c).st = .receiving
  | .txq c => ∃ idx len, s.sess = .txData c idx len

/-- The frame at the head of the queue is being read: by a session that sends it, or by the transmitter. -/
def Serving (s : State) : QueueId → Prop
  | .rxq c => ∃ idx rem, s.sess = .popSend c idx rem
  | .txq c => (s.ch c).st = .txArmed ∨ (s.ch c).st = .txWaitIfs ∨ (s.ch c).st = .txSending

/-- The session's invariant where the pointers that the session relies on stay. -/
theorem sessionInv_of_unmoved (h : SessionInv s) (hse : t.sess = s.sess) (hm : t.mem = s.mem)
    (hstart : ∀ d, Serving s (.rxq d) → (t.queue (.rxq d)).start = (s.queue (.rxq d)).start)
    (hne : ∀ d, Serving s (.rxq d) → queueEmpty (.rxq d) s = false → queueEmpty (.rxq d) t = false)
    (hstop : ∀ d, Staging s (.txq d) → (t.queue (.txq d)).stop = (s.queue (.txq d)).stop) : SessionInv t := by
  unfold SessionInv at *
  rw [hse]
  cases hss : s.sess with
  | idle => trivial
  | filterLoad => trivial
  | txLen _ => trivial
  | popSend d idx rem =>
    simp only [hss] at h ⊢
    obtain ⟨hrem, he, v, hv, hn⟩ := h
    have hd : Serving s (.rxq d) := ⟨idx, rem, hss⟩
    exact ⟨hrem, hne d hd he, v, by rw [hstart d hd, cellValue_of_mem hm, hv], hn⟩
  | txData d idx len =>
    simp only [hss] at h ⊢
    obtain ⟨h2, h12, hidx, hw⟩ := h
    have hd : Staging s (.txq d) := ⟨idx, len, hss⟩
    exact ⟨h2, h12, hidx, by rw [hstop d hd]; exact fun i hi => keepsWritten_of_mem hm _ (hw i hi)⟩

/-- Moving a queue's pointers changes no other register of a channel. -/
theorem setQueue_ch (s : State) (q : QueueId) (p : Ptrs) (d : Chan) :
    (s.setQueue q p).ch d =
      { s.ch d with rxq := (s.setQueue q p).queue (.rxq d), txq := (s.setQueue q p).queue (.txq d) } := by
  rcases q with c | c <;> cases c <;> cases d <;> rfl

/-- The pointers of one queue: `start` where its head is being read, `end` where it is being staged to, do not move. -/
theorem BlockInv.setQueue (h : BlockInv s) {p : Ptrs} (hq : QueueInv q (s.setQueue q p))
    (hserve : Serving s q → p.start = (s.queue q).start ∧ p.isEmpty = false) (hstage : Staging s q → p.stop = (s.queue q).stop) :
    BlockInv (s.setQueue q p) := by
  have hc : (s.setQueue q p).cfg = s.cfg := setQueue_cfg s q p
  have hmem : (s.setQueue q p).mem = s.mem := setQueue_mem s q p
  have hse : (s.setQueue q p).sess = s.sess := setQueue_sess s q p
  have hm : KeepsWritten s (s.setQueue q p) := keepsWritten_of_mem hmem
  have start : ∀ r, Serving s r → ((s.setQueue q p).queue r).start = (s.queue r).start := fun r hr => by
    rw [setQueue_queue]
    split
    · subst r
      exact (hserve hr).1
    · rfl
  have nonempty : ∀ r, Serving s r → queueEmpty r s = false → queueEmpty r (s.setQueue q p) = false := fun r hr he => by
    rw [queueEmpty, setQueue_queue]
    split
    · subst r
      exact (hserve hr).2
    · exact he
  have stop : ∀ r, Staging s r → ((s.setQueue q p).queue r).stop = (s.queue r).stop := fun r hr => by
    rw [setQueue_queue]
    split
    · subst r
      exact hstage hr
    · rfl
  exact {
    cfg := by rw [hc, h.cfg]
    mem := by rw [hmem]; exact h.mem
    channels := fun d => channelInv_of_regs (h.channels d) (by rw [setQueue_ch]) (by rw [setQueue_ch]) (by rw [setQueue_ch])
      (by rw [setQueue_ch]) (by rw [setQueue_ch]) (by rw [setQueue_ch]) (by rw [setQueue_ch]) (stop (.rxq d))
      (fun he htx => nonempty (.txq d) htx he) hm
    queues := fun r => by
      by_cases hr : r = q
      · exact hr ▸ hq
      · exact queueInv_congr (h.queues r) (by rw [setQueue_queue, if_neg hr]) hc hm (keepsLens_of_mem hmem r)
    rings := fun r => ringInv_congr (h.rings r) (by cases q <;> simp) hc hm
    active_le := by rw [setQueue_filtActive, hc]; exact h.active_le
    stage_le := by rw [setQueue_filtStage, hc]; exact h.stage_le
    session := sessionInv_of_unmoved h.session hse hmem (fun d => start (.rxq d)) (fun d => nonempty (.rxq d)) (fun d => stop (.txq d))
    xferMode := by rw [setQueue_xferMode, h.xferMode] }

end Sys2Proof.Machine
end

section
/-! PROOFS. The shared operations keep the block's invariant: queues, rings and the two recoveries. -/

namespace Sys2Proof.Machine

variable {s t : State} {c : Chan} {q : QueueId} {r : RingId}

/-! ### Frame queues -/

/-- Staging stores to the slot at `end`, which is no buffered length. -/
theorem qStage_keepsInv {i : Nat} {v : Byte} (h : BlockInv s) (ht : qStage q i v s = .next t) : BlockInv t := by
  obtain ⟨hx, rfl⟩ := qStage_eq_next.mp ht
  exact h.store v hx (by simp)

/-- A staged frame is committed to a queue that nothing goes on staging to. -/
theorem qCommit_keepsInv {n : Nat} {ok : Bool} (h : BlockInv s) (hw : ∀ i, i < n → written (.data q (s.queue q).stop i) s)
    (hstage : ¬ Staging s q) (ht : qCommit q n s = .next (ok, t)) : BlockInv t := by
  obtain ⟨hn, ⟨-, -, rfl⟩ | ⟨hf, -, hx, rfl⟩⟩ := qCommit_eq_next.mp ht
  · exact h.raiseFault _
  · have stored : BlockInv (s.setMem (s.mem.write (cellKey (.len q (s.queue q).stop)) (BitVec.ofNat 8 n))) :=
      h.store _ hx fun q' k hh he => by
        obtain ⟨rfl, rfl⟩ := CellId.len.inj he
        exact not_holds_stop _ hh
    refine stored.setQueue (queueInv_commit (h.queues q) hf hn hw (setQueue_queue_same _ _ _) (setQueue_cfg _ _ _) (setQueue_mem _ _ _))
      (fun _ => ⟨by simp, isEmpty_eq_false.mpr (isFull_eq_false.mp hf).symm⟩) (fun hs => absurd ?_ hstage)
    cases q <;> simpa [Staging] using hs

/-- The oldest frame is released from a queue whose head nothing goes on reading. -/
theorem BlockInv.release (h : BlockInv s) (hne : queueEmpty q s = false) (hserve : ¬ Serving s q) :
    BlockInv (s.setQueue q { s.queue q with start := nextIndex (queueSize s.cfg q) (s.queue q).start }) :=
  h.setQueue (queueInv_release (h.queues q) hne (setQueue_queue_same _ _ _) (setQueue_cfg _ _ _) (setQueue_mem _ _ _))
    (fun hs => absurd hs hserve) (fun _ => rfl)

/-! ### Rings -/

theorem ringStore_keepsInv {b : Byte} (h : BlockInv s) (hf : ringFull r s = false) (ht : ringStore r b s = .next t) : BlockInv t := by
  obtain ⟨hx, rfl⟩ := ringStore_eq_next.mp ht
  exact (h.store b hx (by simp)).setRing (ringInv_push (h.rings r) hf (setRing_ring_same _ _ _) rfl rfl)

/-- The oldest byte of a ring is taken or evicted. -/
theorem BlockInv.take (h : BlockInv s) (hne : ringEmpty r s = false) :
    BlockInv (s.setRing r { s.ring r with start := nextIndex (ringSize s.cfg r) (s.ring r).start }) :=
  h.setRing (ringInv_pop (h.rings r) hne (setRing_ring_same _ _ _) rfl rfl)

theorem pushOut_keepsInv {b : Byte} (h : BlockInv s) (ht : pushOut b s = .next t) : BlockInv t := by
  obtain ⟨-, rfl⟩ | ⟨hf, ht⟩ := pushOut_eq_next.mp ht
  · exact h.raiseFault _
  · exact ringStore_keepsInv h hf ht

/-- A full ring of two or more cells is not empty, and is no longer full when its oldest byte is evicted. -/
theorem room_of_evict {p : Ptrs} {n : Nat} (hn : 2 ≤ n) (hs : p.start < n) (he : p.stop < n) (hf : p.isFull n = true) :
    p.isEmpty = false ∧ ({ p with start := nextIndex n p.start } : Ptrs).isFull n = false := by
  rw [isFull_eq_true, nextIndex_of_lt he] at hf
  rw [isEmpty_eq_false, isFull_eq_false, nextIndex_of_lt he, nextIndex_of_lt hs, hf]
  refine ⟨?_, ?_⟩
  · split at hf <;> omega
  · dsimp only
    split <;> omega

theorem pushIn_keepsInv {b : Byte} (h : BlockInv s) (ht : pushIn b s = .next t) : BlockInv t := by
  obtain ⟨hf, ht⟩ | ⟨-, -, rfl⟩ | ⟨hf, -, ht⟩ := pushIn_eq_next.mp ht
  · exact ringStore_keepsInv h hf ht
  · exact h.raiseFault _
  · obtain ⟨hne, hroom⟩ := room_of_evict (Config.wf_ringSize h.cfg .ringIn) (h.rings .ringIn).start_lt (h.rings .ringIn).stop_lt hf
    exact ringStore_keepsInv ((h.raiseFault _).take (r := .ringIn) hne) hroom ht

theorem ringPop_keepsInv {p : Byte × State} (h : BlockInv s) (ht : ringPop r s = .next p) : BlockInv p.2 := by
  obtain ⟨hne, -, -, hp⟩ := ringPop_eq_next.mp ht
  rw [hp]
  exact h.take hne

theorem reloadSdr_keepsInv (h : BlockInv s) (ht : reloadSdr s = .next t) : BlockInv t := by
  unfold reloadSdr at ht
  split at ht
  · cases ht
    exact h.raiseFault _
  · obtain ⟨p, hp, ht⟩ := andThen_eq_next.mp ht
    cases ht
    exact (ringPop_keepsInv h hp).congr

/-! ### Recoveries -/

/-- A channel that was receiving or waiting for the SOF goes to `Idle`, disarmed. -/
theorem BlockInv.toIdle (h : BlockInv s) (hst : (s.ch c).st ≠ .txSending) :
    BlockInv (s.setCh c { s.ch c with st := .idle, matchEn := false, matchPend := false }) := by
  have hc := h.channels c
  exact h.setCh_resting rfl rfl (.inl rfl) (hc.rxEn_true hst) rfl rfl (hc.released hst) hc.byteIdx_le hc.bitIdx_le

/-- The end of a transmission, normal or not (`44_vpw_transmitter.md` R198, R200): the bus and the frame are released, the channel is idle. -/
theorem BlockInv.endTransmission (h : BlockInv s) (hne : (s.ch c).txq.isEmpty = false) :
    BlockInv (s.setCh c { s.ch c with
      drive := .passive, matchEn := false, matchPend := false, rxEn := true, st := .idle,
      txq := { (s.ch c).txq with start := nextIndex s.cfg.txqSlots (s.ch c).txq.start } }) := by
  have hc := h.channels c
  have idle : BlockInv (s.setCh c { s.ch c with drive := .passive, matchEn := false, matchPend := false, rxEn := true, st := .idle }) :=
    h.setCh_resting rfl rfl (.inl rfl) rfl rfl rfl rfl hc.byteIdx_le hc.bitIdx_le
  simpa [queueSize] using idle.release (q := .txq c) (by simpa [queueEmpty] using hne) (by simp [Serving])

end Sys2Proof.Machine
end

section
/-! PROOFS. Every operation of the block keeps its invariant, and so does every step. -/

namespace Sys2Proof.Machine

variable {s t : State} {c : Chan}

/-! ### The arms of `EDGE` -/

/-- The sensed level and the time stamp are not in the invariant. -/
theorem BlockInv.stampEdge (h : BlockInv s) (c : Chan) (lvl : Level) : BlockInv (stampEdge c lvl s) := by
  refine h.setCh rfl rfl (channelInv_of_regs (h.channels c) ?_ ?_ ?_ ?_ ?_ ?_ ?_ ?_ (fun he _ => ?_) (keepsWritten_of_mem rfl))
  case refine_9 => simpa [queueEmpty] using he
  all_goals simp

/-- The recovery of a timing or length fault: the ghost event, and `RX_ABORT` (`43_vpw_receiver.md` R170). -/
theorem BlockInv.rxAbort (h : BlockInv s) (hst : (s.ch c).st ≠ .txSending) (e : Raised) :
    BlockInv (rxAbort c (Machine.raiseFault e s)) := by
  rw [rxAbort_eq]
  exact (h.raiseFault e).toIdle (by simpa using hst)

theorem edgeIdle_keepsInv {lvl : Level} (h : BlockInv s) (hst : (s.ch c).st = .idle) (ht : edgeIdle c lvl s = .next t) : BlockInv t := by
  have hc := h.channels c
  obtain ⟨hen, hpend⟩ := hc.disarmed (.inl hst)
  unfold edgeIdle at ht
  split at ht
  · rename_i hrx
    cases ht
    exact h.setCh_resting rfl rfl (.inr rfl) hrx.2 hen hpend (hc.released (by simp [hst])) hc.byteIdx_le hc.bitIdx_le
  · cases ht
    exact h

theorem edgeSofWait_keepsInv {lvl : Level} {e : Nat} (h : BlockInv s) (hst : (s.ch c).st = .sofWait)
    (ht : edgeSofWait c lvl e s = .next t) : BlockInv t := by
  have hc := h.channels c
  have hs : (s.ch c).st ≠ .txSending := by simp [hst]
  unfold edgeSofWait at ht
  split at ht
  · obtain ⟨-, rfl⟩ := armUnit_eq_next.mp ht
    simp only [setCh_setCh, setCh_ch_same]
    exact h.setCh_receiving rfl rfl rfl (hc.rxEn_true hs) rfl (hc.released hs) (Nat.zero_le _) (Nat.zero_le _) (by simp)
  · cases ht
    exact h.rxAbort hs _

/-- An accepted bit: the byte it completes is staged, the deadline moves. -/
theorem appendBit_keepsInv {bit : Bool} (h : BlockInv s) (hst : (s.ch c).st = .receiving) (h12 : (s.ch c).byteIdx ≠ 12)
    (ht : appendBit c bit s = .next t) : BlockInv t := by
  have hc := h.channels c
  have hrx := hc.rxEn_true (by simp [hst])
  have hd := hc.released (by simp [hst])
  have hby := hc.byteIdx_le
  have hbi := hc.bitIdx_le
  simp only [appendBit] at ht
  split at ht
  · obtain ⟨u, hu, ht⟩ := andThen_eq_next.mp ht
    obtain ⟨hx, rfl⟩ := qStage_eq_next.mp hu
    obtain ⟨-, rfl⟩ := armUnit_eq_next.mp ht
    simp only [setCh_cfg, queue_rxq, setCh_ch_same] at hx
    have staged := h.store (shiftIn (s.ch c).sh bit) hx (by simp)
    have hw : ∀ i, i < (s.ch c).byteIdx + 1 → written (.data (.rxq c) (s.ch c).rxq.stop i)
        (s.setMem (s.mem.write (cellKey (.data (.rxq c) (s.ch c).rxq.stop (s.ch c).byteIdx)) (shiftIn (s.ch c).sh bit))) := fun i hi => by
      rcases Nat.lt_succ_iff_lt_or_eq.mp hi with hi | rfl
      · exact keepsWritten_of_write rfl _ (hc.staged hst i hi)
      · exact written_store _ _ _
    simp only [setCh_setCh, setMem_setCh, setCh_ch_same, setCh_mem, queue_rxq]
    exact staged.setCh_receiving (by simp) (by simp) hst hrx rfl hd (by dsimp only; omega) (Nat.zero_le _) (by simpa using hw)
  · obtain ⟨-, rfl⟩ := armUnit_eq_next.mp ht
    simp only [setCh_setCh, setCh_ch_same]
    exact h.setCh_receiving rfl rfl hst hrx rfl hd hby (by dsimp only; omega) (hc.staged hst)

theorem edgeReceiving_keepsInv {lvl : Level} {e : Nat} (h : BlockInv s) (hst : (s.ch c).st = .receiving)
    (ht : edgeReceiving c lvl e s = .next t) : BlockInv t := by
  unfold edgeReceiving at ht
  split at ht
  · cases ht
    exact h.rxAbort (by simp [hst]) _
  · split at ht
    · cases ht
      exact h.rxAbort (by simp [hst]) _
    · exact appendBit_keepsInv h hst ‹_› ht

theorem contention_keepsInv (h : BlockInv s) (ht : contention c s = .next t) : BlockInv t := by
  obtain ⟨hne, rfl⟩ := txAbort_eq_next.mp ht
  exact (h.raiseFault _).endTransmission (by simpa [queueEmpty] using hne)

theorem edgeSending_keepsInv {lvl : Level} (h : BlockInv s) (ht : edgeSending c lvl s = .next t) : BlockInv t := by
  unfold edgeSending at ht
  split at ht
  · exact contention_keepsInv h ht
  · cases ht
    exact h

/-- `EDGE`: the stamp, then the arm of each state of the protocol. -/
theorem edgeOp_keepsInv {lvl : Level} (h : BlockInv s) (ht : edgeOp c lvl s = .next t) : BlockInv t := by
  have stamped := h.stampEdge c lvl
  have same : ((stampEdge c lvl s).ch c).st = (s.ch c).st := by simp [stampEdge]
  unfold edgeOp at ht
  split at ht
  · cases hst : (s.ch c).st <;> simp only [hst] at ht same
    case idle => exact edgeIdle_keepsInv stamped same ht
    case sofWait => exact edgeSofWait_keepsInv stamped same ht
    case receiving => exact edgeReceiving_keepsInv stamped same ht
    case txArmed => cases ht; exact stamped
    case txWaitIfs => cases ht; exact stamped
    case txSending => exact edgeSending_keepsInv stamped ht
  · cases ht

/-! ### The arms of `MATCH` -/

/-- End of data: the channel is idle, and the bytes staged until then may be committed. -/
theorem matchReceiving_keepsInv (h : BlockInv s) (hst : (s.ch c).st = .receiving)
    (ht : matchReceiving c (disarmUnit c s) = .next t) : BlockInv t := by
  have idle := h.toIdle (c := c) (by simp [hst])
  have staged := (h.channels c).staged hst
  simp only [matchReceiving, disarmUnit_eq, setCh_setCh, setCh_ch_same] at ht
  split at ht
  · cases ht
    exact idle
  · obtain ⟨ok, -, ht⟩ := andThen_eq_next.mp ht
    split at ht
    · obtain ⟨b, -, ht⟩ := andThen_eq_next.mp ht
      split at ht
      · obtain ⟨r, hr, ht⟩ := andThen_eq_next.mp ht
        cases ht
        exact qCommit_keepsInv idle (by simpa [written] using staged) (by simp [Staging]) hr
      · cases ht
        exact idle
    · cases ht
      exact idle

/-- The end of the inter-frame window: wait another one, or drive the SOF. -/
theorem matchWaiting_keepsInv (h : BlockInv s) (hst : (s.ch c).st = .txArmed ∨ (s.ch c).st = .txWaitIfs)
    (ht : matchWaiting c (disarmUnit c s) = .next t) : BlockInv t := by
  have hc := h.channels c
  have hne : (s.ch c).txq.isEmpty = false := hc.frameHeld (hst.imp id .inl)
  have hs : (s.ch c).st ≠ .txSending := by rcases hst with hst | hst <;> simp [hst]
  unfold matchWaiting at ht
  split at ht
  · obtain ⟨-, rfl⟩ := armUnit_eq_next.mp ht
    simp only [disarmUnit_eq, setCh_setCh, setCh_ch_same]
    exact h.setCh_waiting rfl rfl (.inr rfl) (hc.rxEn_true hs) rfl (hc.released hs) hne hc.byteIdx_le hc.bitIdx_le
  · obtain ⟨u, hu, ht⟩ := andThen_eq_next.mp ht
    obtain ⟨-, rfl⟩ := armUnit_eq_next.mp hu
    cases ht
    simp only [disarmUnit_eq, setCh_setCh, setCh_ch_same]
    exact h.setCh_sending rfl rfl rfl rfl rfl hne hc.byteIdx_le hc.bitIdx_le

/-- The length of the frame at the head of a queue (`10_state.md` R40(f)). -/
theorem BlockInv.readLen_head {q : QueueId} {n : Nat} (h : BlockInv s) (hne : queueEmpty q s = false)
    (hn : readLen q (s.queue q).start s = .next n) : 1 ≤ n ∧ n ≤ 12 := by
  obtain ⟨-, v, hv, rfl⟩ := readLen_eq_next.mp hn
  obtain ⟨w, hw, h1, h12, -⟩ := (h.queues q).frames _ (h.queues q).start_lt (holds_start hne)
  obtain rfl : v = w := Option.some.inj (hv.symm.trans hw)
  exact ⟨h1, h12⟩

/-- The next bit: the unit armed, the cursor moved within the frame. -/
theorem sendBit_keepsInv {lvl : Level} (h : BlockInv s) (hst : (s.ch c).st = .txSending) (hby : (s.ch c).byteIdx < 12)
    (ht : sendBit c (s.setCh c { s.ch c with matchEn := false, matchPend := false, drive := lvl }) = .next t) : BlockInv t := by
  have hc := h.channels c
  have hrx := hc.rxEn_iff.mpr hst
  have hne : (s.ch c).txq.isEmpty = false := hc.frameHeld (.inr (.inr hst))
  have hbi := hc.bitIdx_le
  obtain ⟨b, -, ht⟩ := andThen_eq_next.mp ht
  obtain ⟨u, hu, ht⟩ := andThen_eq_next.mp ht
  obtain ⟨-, rfl⟩ := armUnit_eq_next.mp hu
  simp only [setCh_setCh, setCh_ch_same] at ht
  split at ht <;> cases ht
  · exact h.setCh_sending rfl rfl hst hrx rfl hne hby (Nat.zero_le _)
  · exact h.setCh_sending rfl rfl hst hrx rfl hne hby.le (by dsimp only; omega)

theorem endSend_keepsInv {lvl : Level} (h : BlockInv s) (hst : (s.ch c).st = .txSending)
    (ht : endSend c (s.setCh c { s.ch c with matchEn := false, matchPend := false, drive := lvl }) = .next t) : BlockInv t := by
  have hne : (s.ch c).txq.isEmpty = false := (h.channels c).frameHeld (.inr (.inr hst))
  obtain ⟨u, hu, ht⟩ := andThen_eq_next.mp ht
  obtain ⟨-, rfl⟩ := qRelease_eq_next.mp hu
  cases ht
  simpa [queueSize] using h.endTransmission hne

theorem matchSending_keepsInv (h : BlockInv s) (hst : (s.ch c).st = .txSending)
    (ht : matchSending c (disarmUnit c s) = .next t) : BlockInv t := by
  have hne : (s.ch c).txq.isEmpty = false := (h.channels c).frameHeld (.inr (.inr hst))
  unfold matchSending at ht
  split at ht
  · obtain ⟨-, rfl⟩ := txAbort_eq_next.mp ht
    simpa [raiseFault_setCh] using (h.raiseFault (.contention c)).endTransmission (c := c) (by simpa using hne)
  · simp only [disarmUnit_eq, setCh_setCh, setCh_ch_same] at ht
    obtain ⟨n, hn, ht⟩ := andThen_eq_next.mp ht
    obtain ⟨-, hn12⟩ := h.readLen_head (q := .txq c) hne hn
    split at ht
    · exact sendBit_keepsInv h hst (by omega) ht
    · exact endSend_keepsInv h hst ht

/-- `MATCH`: disarmed, then the arm of each state of the protocol; none is armed in `Idle` and `SofWait`. -/
theorem matchOp_keepsInv (h : BlockInv s) (ht : matchOp c s = .next t) : BlockInv t := by
  unfold matchOp at ht
  split at ht
  · rename_i hpend
    have armed : ¬ ((s.ch c).st = .idle ∨ (s.ch c).st = .sofWait) := fun hst => by
      simp [matchEnabled, ((h.channels c).disarmed hst).2] at hpend
    cases hst : (s.ch c).st <;> simp only [hst] at ht armed
    case idle => simp at armed
    case sofWait => simp at armed
    case receiving => exact matchReceiving_keepsInv h hst ht
    case txArmed => exact matchWaiting_keepsInv h (.inl hst) ht
    case txWaitIfs => exact matchWaiting_keepsInv h (.inr hst) ht
    case txSending => exact matchSending_keepsInv h hst ht
  · cases ht

/-! ### Send requests and the counter -/

theorem startSend_keepsInv (h : BlockInv s) (he : sendreqEnabled c s = true) (ht : startSend c s = .next t) : BlockInv t := by
  have hc := h.channels c
  obtain ⟨hst, hne⟩ : (s.ch c).st = .idle ∧ queueEmpty (.txq c) s = false := by simpa [sendreqEnabled] using he
  obtain ⟨u, hu, ht⟩ := andThen_eq_next.mp ht
  obtain ⟨-, rfl⟩ := armUnit_eq_next.mp hu
  cases ht
  simp only [setCh_setCh, setCh_ch_same]
  exact h.setCh_waiting rfl rfl (.inl rfl) (hc.rxEn_true (by simp [hst])) rfl rfl hne (Nat.zero_le _) (Nat.zero_le _)

theorem execSendreq_keepsInv (h : BlockInv s) (ht : execSendreq c s = .next t) : BlockInv t := by
  unfold execSendreq at ht
  split at ht
  · exact startSend_keepsInv h ‹_› ht
  · cases ht

theorem housekeepChannel_keepsInv (h : BlockInv s) (ht : housekeepChannel c s = .next t) : BlockInv t := by
  unfold housekeepChannel at ht
  split at ht
  · exact startSend_keepsInv h ‹_› ht
  · cases ht
    exact h

theorem execHousekeep_keepsInv (h : BlockInv s) (ht : execHousekeep s = .next t) : BlockInv t := by
  obtain ⟨u, hu, ht⟩ := andThen_eq_next.mp ht
  exact housekeepChannel_keepsInv (housekeepChannel_keepsInv h hu) ht

/-- A match falls due only where one is armed. -/
theorem BlockInv.compareUnit (h : BlockInv s) (c : Chan) (b : Byte) : BlockInv (s.setCh c (compareUnit b (s.ch c))) := by
  unfold Machine.compareUnit
  split
  · rename_i hen
    have hc := h.channels c
    exact h.setCh rfl rfl
      { rxEn_iff := by simpa using hc.rxEn_iff
        disarmed := fun hst => by simp [(hc.disarmed (by simpa using hst)).1] at hen
        armed := by simp
        released := by simpa using hc.released
        frameHeld := by simpa [queueEmpty] using hc.frameHeld
        byteIdx_le := by simpa using hc.byteIdx_le
        bitIdx_le := by simpa using hc.bitIdx_le
        staged := by simpa using hc.staged }
  · rwa [setCh_self]

theorem execTick_keepsInv (h : BlockInv s) (ht : execTick s = .next t) : BlockInv t := by
  unfold execTick at ht
  split at ht
  · cases ht
    exact ((h.congr : BlockInv { s with tcnt := s.tcnt + 1#8 }).compareUnit .ch0 (s.tcnt + 1#8)).compareUnit .ch1 (s.tcnt + 1#8)
  · cases ht

/-! ### The byte exchange and reset -/

theorem execXfer_keepsInv {rx : Byte} (h : BlockInv s) (ht : execXfer rx s = .next t) : BlockInv t := by
  obtain ⟨u, hu, ht⟩ := andThen_eq_next.mp ht
  obtain ⟨v, hv, ht⟩ := andThen_eq_next.mp ht
  cases ht
  have pushed : BlockInv u := pushIn_keepsInv h.congr hu
  exact (reloadSdr_keepsInv pushed hv).congr

/-- A block whose channels are reset, whose buffers and lists are empty and whose session is idle (`70_reset_and_hazards.md` R301). -/
theorem blockInv_of_reset (hc : s.cfg.wf = true) (hm : s.mem.cells = []) (hch : ∀ c, ∃ lastEdge sh ocr, s.ch c = resetChannel lastEdge sh ocr)
    (hr : ∀ r, s.ring r = ⟨0, 0⟩) (ha : s.filtActive = []) (hf : s.filtStage = []) (hse : s.sess = .idle) (hx : s.xferMode = .idleEcho) :
    BlockInv s := by
  have empty : ∀ k, ¬ ({ start := 0, stop := 0 } : Ptrs).holds k := fun k => by simp [Ptrs.holds]
  have hq : ∀ q, s.queue q = ⟨0, 0⟩ := by
    rintro (c | c) <;> obtain ⟨_, _, _, hc⟩ := hch c <;> simp [hc, resetChannel, Channel.reset]
  exact {
    cfg := hc
    mem := by rw [Memory.wf, hm]; exact List.Pairwise.nil
    channels := fun c => by
      obtain ⟨_, _, _, hc⟩ := hch c
      constructor <;> simp [hc, resetChannel, Channel.reset]
    queues := fun q => by
      have := Config.wf_queueSize hc q
      exact ⟨by rw [hq]; exact Nat.zero_lt_of_lt this, by rw [hq]; exact Nat.zero_lt_of_lt this, fun k _ hk => absurd (hq q ▸ hk) (empty k)⟩
    rings := fun r => by
      have := Config.wf_ringSize hc r
      exact ⟨by rw [hr]; exact Nat.zero_lt_of_lt this, by rw [hr]; exact Nat.zero_lt_of_lt this, fun k _ hk => absurd (hr r ▸ hk) (empty k)⟩
    active_le := by simp [ha]
    stage_le := by simp [hf]
    session := by simp [SessionInv, hse]
    xferMode := hx }

/-- Settles O5: the reset state has reset channels and nothing buffered. -/
theorem resetMeetsTheInvariant : Obligations.ResetMeetsTheInvariant :=
  blockInv_of_reset (by decide) rfl (by rintro (_ | _) <;> exact ⟨_, _, _, rfl⟩) (by rintro (_ | _) <;> rfl) rfl rfl rfl rfl

theorem execReset_keepsInv (h : BlockInv s) (ht : execReset s = .next t) : BlockInv t := by
  cases ht
  exact blockInv_of_reset h.cfg rfl (by rintro (_ | _) <;> exact ⟨_, _, _, rfl⟩) (by rintro (_ | _) <;> rfl) rfl rfl rfl rfl

/-! ### Commands -/

/-- Whatever `f` answers from a state of the invariant is a state of the invariant. -/
def KeepsInv (f : State → Res State) : Prop := ∀ s t, BlockInv s → f s = .next t → BlockInv t

/-- A command runs on the state itself, or after the filter that is loaded is committed and the session closed. -/
theorem asCommand_keepsInv {body : State → Res State} (hb : KeepsInv body) : KeepsInv (asCommand body) := by
  intro s t h ht
  unfold asCommand at ht
  split at ht
  · exact hb _ _ h ht
  · have committed : BlockInv (filterCommit s) := h.setFilter h.stage_le h.stage_le
    exact hb _ _ (committed.setSess (v := .idle) trivial) ht
  all_goals cases ht

/-- The session that sends the frame at the head starts with its first byte, all of its bytes remaining. -/
theorem popRx_keepsInv (c : Chan) : KeepsInv (popRx c) := by
  intro s t h ht
  unfold popRx at ht
  split at ht
  · exact pushOut_keepsInv h ht
  · rename_i hne
    obtain ⟨u, hu, ht⟩ := andThen_eq_next.mp ht
    obtain ⟨n, hn, ht⟩ := andThen_eq_next.mp ht
    cases ht
    have pushed := pushOut_keepsInv h hu
    have hne : queueEmpty (.rxq c) u = false := by
      simpa [queueEmpty, (pushOut_ringWrites hu).ch] using hne
    obtain ⟨hn1, -⟩ := pushed.readLen_head hne hn
    obtain ⟨-, v, hv, rfl⟩ := readLen_eq_next.mp hn
    exact pushed.setSess ⟨hn1, by simpa [queueEmpty] using hne, v, by simpa using hv, (Nat.zero_add _).symm⟩

theorem execCmdIgnored_keepsInv (v : Byte) : KeepsInv (execCmdIgnored v) := by
  intro s t h ht
  unfold execCmdIgnored at ht
  split at ht
  · split at ht
    · cases ht
    · cases ht
      exact h
  all_goals cases ht

/-- The command of every byte (`46_dispatcher.md` R241). -/
theorem commandStep_keepsInv (b : Byte) : KeepsInv (commandStep b) := by
  intro s t h ht
  unfold commandStep at ht
  split_ifs at ht
  · exact asCommand_keepsInv (fun _ _ => pushOut_keepsInv) _ _ h ht
  · exact asCommand_keepsInv (fun _ _ => pushOut_keepsInv) _ _ h ht
  · exact asCommand_keepsInv (popRx_keepsInv .ch0) _ _ h ht
  · exact asCommand_keepsInv (popRx_keepsInv .ch1) _ _ h ht
  · refine asCommand_keepsInv ?_ _ _ h ht
    rintro s _ h ⟨⟩
    exact h.setFilter (Nat.zero_le _) (Nat.zero_le _)
  · refine asCommand_keepsInv ?_ _ _ h ht
    rintro s _ h ⟨⟩
    have begun : BlockInv (filterBegin s) := h.setFilter h.active_le (Nat.zero_le _)
    exact begun.setSess trivial
  · refine asCommand_keepsInv ?_ _ _ h ht
    rintro s _ h ⟨⟩
    exact h.setSess trivial
  · refine asCommand_keepsInv ?_ _ _ h ht
    rintro s _ h ⟨⟩
    exact h.setSess trivial
  · exact execCmdIgnored_keepsInv b _ _ h ht

/-! ### The sessions of the dispatcher -/

/-- One byte of the frame at the head is sent; the session is closed with the last, and only then is the frame released. -/
theorem popSendStep_keepsInv {idx rem : Nat} (h : BlockInv s) (hs : s.sess = .popSend c idx rem)
    (ht : popSendStep c idx rem s = .next t) : BlockInv t := by
  obtain ⟨b, -, ht⟩ := andThen_eq_next.mp ht
  obtain ⟨u, hu, ht⟩ := andThen_eq_next.mp ht
  have pushed := pushOut_keepsInv h hu
  have session := pushed.session
  simp only [SessionInv, (pushOut_ringWrites hu).sess, hs] at session
  obtain ⟨hrem, hne, v, hv, hn⟩ := session
  split at ht
  · obtain ⟨w, hw, ht⟩ := andThen_eq_next.mp ht
    obtain ⟨-, rfl⟩ := qRelease_eq_next.mp hw
    cases ht
    have closed : BlockInv (u.setSess .idle) := pushed.setSess trivial
    simpa using closed.release (q := .rxq c) (by simpa [queueEmpty] using hne) (by simp [Serving])
  · cases ht
    exact pushed.setSess ⟨by omega, by simpa [queueEmpty] using hne, v, by simpa using hv, by omega⟩

theorem filterAppend_keepsInv {b : Byte} (h : BlockInv s) : BlockInv (filterAppend b s) := by
  unfold filterAppend
  split
  · exact h.setFilter h.active_le (by simp; omega)
  · exact h

theorem filterLoadStep_keepsInv (b : Byte) : KeepsInv (filterLoadStep b) := by
  intro s t h ht
  unfold filterLoadStep at ht
  split at ht
  · exact commandStep_keepsInv b _ _ h ht
  · cases ht
    exact filterAppend_keepsInv h

/-- A commit does not look at the session. -/
theorem qCommit_setSess {q : QueueId} {n : Nat} {ok : Bool} (v : Session) (h : qCommit q n s = .next (ok, t)) :
    qCommit q n (s.setSess v) = .next (ok, t.setSess v) := by
  obtain ⟨hn, ⟨hf, hok, rfl⟩ | ⟨hf, hok, hx, rfl⟩⟩ := qCommit_eq_next.mp h
  · exact qCommit_eq_next.mpr ⟨hn, .inl ⟨by simpa [queueFull] using hf, hok, rfl⟩⟩
  · refine qCommit_eq_next.mpr ⟨hn, .inr ⟨by simpa [queueFull] using hf, hok, by simpa using hx, ?_⟩⟩
    cases q <;> rfl

/-- The bytes of a frame taken in are those read for its CRC, and the CRC staged behind them. -/
theorem txComplete_keepsInv {len : Nat} (h : BlockInv s) (ht : txComplete c len s = .next t) : BlockInv t := by
  obtain ⟨xs, hxs, ht⟩ := andThen_eq_next.mp ht
  obtain ⟨u, hu, ht⟩ := andThen_eq_next.mp ht
  obtain ⟨r, hr, ht⟩ := andThen_eq_next.mp ht
  cases ht
  have closed : BlockInv (u.setSess .idle) := (qStage_keepsInv h hu).setSess trivial
  obtain ⟨hlen, hget⟩ := readData_eq_next hxs
  obtain ⟨-, rfl⟩ := qStage_eq_next.mp hu
  refine qCommit_keepsInv closed (fun i hi => ?_) (by simp [Staging]) (qCommit_setSess .idle hr)
  rcases Nat.lt_or_ge i (len - 1) with hi' | hi'
  · refine keepsWritten_of_write rfl _ ?_
    rw [written, setSess_queue, setMem_queue, ← (hget i hi').1]
    simp
    omega
  · obtain rfl : i = len - 1 := by omega
    exact written_store _ _ s

theorem txLenStep_keepsInv {b : Byte} (h : BlockInv s) (ht : txLenStep c b s = .next t) : BlockInv t := by
  unfold txLenStep at ht
  split_ifs at ht with h0 h1
  · cases ht
    exact h.setSess trivial
  · exact txComplete_keepsInv h ht
  · cases ht
    exact h.setSess ⟨by omega, by omega, by omega, fun i hi => absurd hi (Nat.not_lt_zero i)⟩

/-- A payload byte is staged behind those before it; the last but one completes the frame. -/
theorem txDataStep_keepsInv {idx len : Nat} {b : Byte} (h : BlockInv s) (hs : s.sess = .txData c idx len)
    (ht : txDataStep c idx len b s = .next t) : BlockInv t := by
  have session := h.session
  simp only [SessionInv, hs] at session
  obtain ⟨h2, h12, hidx, hw⟩ := session
  obtain ⟨u, hu, ht⟩ := andThen_eq_next.mp ht
  have staged := qStage_keepsInv h hu
  obtain ⟨-, rfl⟩ := qStage_eq_next.mp hu
  split at ht
  · exact txComplete_keepsInv staged ht
  · cases ht
    refine staged.setSess ⟨h2, h12, by omega, fun i hi => ?_⟩
    rw [setSess_queue, setMem_queue]
    rcases Nat.lt_succ_iff_lt_or_eq.mp hi with hi | rfl
    · exact keepsWritten_of_write rfl _ (hw i hi)
    · exact written_store _ _ s

/-- The byte is taken from the ring, the session as it was. -/
theorem takeInbound_keepsInv {use : Byte → State → Res State} (h : BlockInv s)
    (huse : ∀ b u, BlockInv u → u.sess = s.sess → use b u = .next t → BlockInv t) (ht : takeInbound use s = .next t) : BlockInv t := by
  unfold takeInbound at ht
  split at ht
  · cases ht
  · obtain ⟨p, hp, ht⟩ := andThen_eq_next.mp ht
    exact huse p.1 p.2 (ringPop_keepsInv h hp) (ringPop_ringWrites hp).sess ht

/-- `DISPATCH`: the step of each session. -/
theorem execDispatch_keepsInv (h : BlockInv s) (ht : execDispatch s = .next t) : BlockInv t := by
  unfold execDispatch at ht
  cases hs : s.sess <;> simp only [hs] at ht
  case popSend c idx rem => exact popSendStep_keepsInv h hs ht
  case idle => exact takeInbound_keepsInv h (fun b u hu _ => commandStep_keepsInv b u t hu) ht
  case filterLoad => exact takeInbound_keepsInv h (fun b u hu _ => filterLoadStep_keepsInv b u t hu) ht
  case txLen c => exact takeInbound_keepsInv h (fun b u hu _ => txLenStep_keepsInv hu) ht
  case txData c idx len => exact takeInbound_keepsInv h (fun b u hu hus => txDataStep_keepsInv hu (hus.trans hs)) ht

/-! ### The step -/

/-- Each of the ten operations keeps the invariant. -/
theorem exec_keepsInv {i : Instr} (hi : isOperation i = true) (h : BlockInv s) (ht : exec i s = .next t) : BlockInv t := by
  cases i
  case tick => exact execTick_keepsInv h ht
  case edge c lvl => exact edgeOp_keepsInv h ht
  case timerMatch c => exact matchOp_keepsInv h ht
  case xfer rx => exact execXfer_keepsInv h ht
  case housekeep => exact execHousekeep_keepsInv h ht
  case sendreq c => exact execSendreq_keepsInv h ht
  case dispatch => exact execDispatch_keepsInv h ht
  case linktimeout => cases ht; exact h.congr
  case setinputs sw acc hp => cases ht; exact h.congr
  case reset => exact execReset_keepsInv h ht
  all_goals cases hi

/-- A tag is one of the ten operations (`30_encoding.md` R106). -/
theorem isOperation_of_decodeOp {bytes rest : List Byte} {i : Instr} (h : decodeOp bytes = .ok (i, rest)) : isOperation i = true := by
  unfold decodeOp at h
  repeat' split at h
  all_goals cases h
  all_goals rfl

/-- What the fetch takes is a tag at the head of the schedule. -/
theorem fetch_eq_some {p : Instr × State} (h : fetch s = .next (some p)) :
    ∃ rest, decodeOp s.sched = .ok (p.1, rest) ∧ p.2 = { s with sched := rest } := by
  unfold fetch at h
  split at h
  · cases h
  · rename_i hs
    split_ifs at h
    split at h
    · rename_i hd
      cases h
      exact ⟨_, hs ▸ hd, rfl⟩
    · cases h

/-- Settles O6: the step is one of the ten operations on the state with its tag taken, or leaves the state as it is. -/
theorem stepKeepsTheInvariant : Obligations.StepKeepsTheInvariant := by
  intro s t h ht
  obtain ⟨o, ho, ht⟩ := andThen_eq_next.mp ht
  cases o with
  | none =>
    cases ht
    exact h
  | some p =>
    obtain ⟨rest, hd, hp⟩ := fetch_eq_some ho
    have fetched : BlockInv p.2 := hp ▸ h.congr
    exact exec_keepsInv (isOperation_of_decodeOp hd) fetched ht

end Sys2Proof.Machine
end

section
/-! PROOFS. The tick counter: no operation but `TICK` and `RESET` writes it. -/

namespace Sys2Proof.Machine

variable {s t : State} {c : Chan}

theorem OwnWrites.tcnt (h : OwnWrites c s t) : t.tcnt = s.tcnt := by rw [h, setCh_tcnt]

/-- Whatever `f` answers has the tick counter of the state it ran on. -/
def KeepsTcnt (f : State → Res State) : Prop := ∀ s t, f s = .next t → t.tcnt = s.tcnt

/-- One part after another, neither of which writes the counter. -/
theorem KeepsTcnt.andThen {f g : State → Res State} (hf : KeepsTcnt f) (hg : KeepsTcnt g) : KeepsTcnt fun s => (f s).andThen g := by
  intro s t h
  obtain ⟨u, hu, ht⟩ := andThen_eq_next.mp h
  exact (hg u t ht).trans (hf s u hu)

theorem WritesOnly.keepsTcnt {f : State → Res State} (h : WritesOnly c f) : KeepsTcnt f := fun s t ht => (h s t ht).tcnt

/-! ### The shared operations -/

theorem pushOut_keepsTcnt (b : Byte) : KeepsTcnt (pushOut b) := fun _ _ h => (pushOut_ringWrites h).tcnt

theorem pushIn_keepsTcnt (b : Byte) : KeepsTcnt (pushIn b) := fun _ _ h => (pushIn_ringWrites h).tcnt

theorem qStage_keepsTcnt (q : QueueId) (i : Nat) (v : Byte) : KeepsTcnt (qStage q i v) := by
  intro s t h
  obtain ⟨-, rfl⟩ := qStage_eq_next.mp h
  rfl

theorem qCommit_tcnt {q : QueueId} {n : Nat} {r : Bool × State} (h : qCommit q n s = .next r) : r.2.tcnt = s.tcnt := by
  obtain ⟨-, ⟨-, -, ht⟩ | ⟨-, -, -, ht⟩⟩ := qCommit_eq_next.mp h
  · rw [ht, raiseFault_tcnt]
  · rw [ht, setQueue_tcnt, setMem_tcnt]

theorem qRelease_keepsTcnt (q : QueueId) : KeepsTcnt (qRelease q) := by
  intro s t h
  obtain ⟨-, rfl⟩ := qRelease_eq_next.mp h
  exact setQueue_tcnt _ _ _

/-! ### The symbols and housekeeping -/

theorem pulseEnds_keepsTcnt (c : Chan) (lvl : Level) (cls : Nat → Bool) : KeepsTcnt (pulseEnds c lvl cls) := by
  intro s t h
  unfold pulseEnds at h
  split at h
  · exact (edgeOp_writesOnly c _).keepsTcnt s t h
  · cases h

theorem execEod_keepsTcnt (c : Chan) : KeepsTcnt (execEod c) := by
  intro s t h
  unfold execEod at h
  split at h
  · split at h
    · exact (matchOp_writesOnly c).keepsTcnt s t h
    all_goals cases h; rfl
  · cases h

theorem execIfs_keepsTcnt (c : Chan) : KeepsTcnt (execIfs c) := by
  intro s t h
  unfold execIfs at h
  split at h
  · split at h
    · exact (matchOp_writesOnly c).keepsTcnt s t h
    · exact (matchOp_writesOnly c).keepsTcnt s t h
    all_goals cases h; rfl
  · cases h

theorem housekeepChannel_keepsTcnt (c : Chan) : KeepsTcnt (housekeepChannel c) := by
  intro s t h
  unfold housekeepChannel at h
  split at h
  · rename_i he
    exact (execSendreq_writesOnly c).keepsTcnt s t (by rw [execSendreq, if_pos he, h])
  · cases h
    rfl

/-! ### The dispatcher and the byte exchange -/

theorem asCommand_keepsTcnt {body : State → Res State} (hb : KeepsTcnt body) : KeepsTcnt (asCommand body) := by
  intro s t h
  unfold asCommand at h
  split at h
  · exact hb s t h
  · exact hb ((filterCommit s).setSess .idle) t h
  all_goals cases h

theorem popRx_keepsTcnt (c : Chan) : KeepsTcnt (popRx c) := by
  intro s t h
  unfold popRx at h
  split at h
  · exact pushOut_keepsTcnt _ _ _ h
  · obtain ⟨u, hu, h⟩ := andThen_eq_next.mp h
    obtain ⟨n, -, h⟩ := andThen_eq_next.mp h
    cases h
    exact pushOut_keepsTcnt _ s u hu

theorem execGetSwitch_keepsTcnt : KeepsTcnt execGetSwitch := asCommand_keepsTcnt fun _ _ h => pushOut_keepsTcnt _ _ _ h

theorem execGetPower_keepsTcnt : KeepsTcnt execGetPower := asCommand_keepsTcnt fun _ _ h => pushOut_keepsTcnt _ _ _ h

theorem execPopRx0_keepsTcnt : KeepsTcnt execPopRx0 := asCommand_keepsTcnt (popRx_keepsTcnt .ch0)

theorem execPopRx1_keepsTcnt : KeepsTcnt execPopRx1 := asCommand_keepsTcnt (popRx_keepsTcnt .ch1)

theorem execClrFilter_keepsTcnt : KeepsTcnt execClrFilter := asCommand_keepsTcnt (by rintro s _ ⟨⟩; rfl)

theorem execSetFilter_keepsTcnt : KeepsTcnt execSetFilter := asCommand_keepsTcnt (by rintro s _ ⟨⟩; rfl)

theorem execTx0_keepsTcnt : KeepsTcnt execTx0 := asCommand_keepsTcnt (by rintro s _ ⟨⟩; rfl)

theorem execTx1_keepsTcnt : KeepsTcnt execTx1 := asCommand_keepsTcnt (by rintro s _ ⟨⟩; rfl)

theorem execCmdIgnored_keepsTcnt (v : Byte) : KeepsTcnt (execCmdIgnored v) := by
  intro s t h
  unfold execCmdIgnored at h
  split at h
  · split at h <;> cases h
    rfl
  all_goals cases h

theorem commandStep_keepsTcnt (b : Byte) : KeepsTcnt (commandStep b) := by
  intro s t h
  unfold commandStep at h
  split_ifs at h
  exacts [execGetSwitch_keepsTcnt s t h, execGetPower_keepsTcnt s t h, execPopRx0_keepsTcnt s t h, execPopRx1_keepsTcnt s t h,
    execClrFilter_keepsTcnt s t h, execSetFilter_keepsTcnt s t h, execTx0_keepsTcnt s t h, execTx1_keepsTcnt s t h,
    execCmdIgnored_keepsTcnt b s t h]

theorem popSendStep_keepsTcnt (c : Chan) (idx rem : Nat) : KeepsTcnt (popSendStep c idx rem) := by
  intro s t h
  obtain ⟨b, -, h⟩ := andThen_eq_next.mp h
  obtain ⟨u, hu, h⟩ := andThen_eq_next.mp h
  have pushed := pushOut_keepsTcnt b s u hu
  split at h
  · obtain ⟨v, hv, h⟩ := andThen_eq_next.mp h
    cases h
    exact (qRelease_keepsTcnt _ u v hv).trans pushed
  · cases h
    exact pushed

theorem filterAppend_tcnt (b : Byte) (s : State) : (filterAppend b s).tcnt = s.tcnt := by
  unfold filterAppend
  split <;> rfl

theorem filterLoadStep_keepsTcnt (b : Byte) : KeepsTcnt (filterLoadStep b) := by
  intro s t h
  unfold filterLoadStep at h
  split at h
  · exact commandStep_keepsTcnt b s t h
  · cases h
    exact filterAppend_tcnt b s

theorem txComplete_keepsTcnt (c : Chan) (len : Nat) : KeepsTcnt (txComplete c len) := by
  intro s t h
  obtain ⟨xs, -, h⟩ := andThen_eq_next.mp h
  obtain ⟨u, hu, h⟩ := andThen_eq_next.mp h
  obtain ⟨r, hr, h⟩ := andThen_eq_next.mp h
  cases h
  exact (qCommit_tcnt hr).trans (qStage_keepsTcnt _ _ _ s u hu)

theorem txLenStep_keepsTcnt (c : Chan) (b : Byte) : KeepsTcnt (txLenStep c b) := by
  intro s t h
  unfold txLenStep at h
  split_ifs at h
  · cases h
    rfl
  · exact txComplete_keepsTcnt c 1 s t h
  · cases h
    rfl

theorem txDataStep_keepsTcnt (c : Chan) (idx len : Nat) (b : Byte) : KeepsTcnt (txDataStep c idx len b) := by
  refine KeepsTcnt.andThen (qStage_keepsTcnt _ _ _) ?_
  intro s t h
  split at h
  · exact txComplete_keepsTcnt c len s t h
  · cases h
    rfl

theorem takeInbound_keepsTcnt {use : Byte → State → Res State} (hu : ∀ b, KeepsTcnt (use b)) : KeepsTcnt (takeInbound use) := by
  intro s t h
  unfold takeInbound at h
  split at h
  · cases h
  · obtain ⟨p, hp, h⟩ := andThen_eq_next.mp h
    exact (hu p.1 p.2 t h).trans (ringPop_ringWrites hp).tcnt

theorem execDispatch_keepsTcnt : KeepsTcnt execDispatch := by
  intro s t h
  unfold execDispatch at h
  split at h
  · exact popSendStep_keepsTcnt _ _ _ s t h
  · exact takeInbound_keepsTcnt commandStep_keepsTcnt s t h
  · exact takeInbound_keepsTcnt filterLoadStep_keepsTcnt s t h
  · exact takeInbound_keepsTcnt (txLenStep_keepsTcnt _) s t h
  · exact takeInbound_keepsTcnt (txDataStep_keepsTcnt _ _ _) s t h

theorem reloadSdr_keepsTcnt : KeepsTcnt reloadSdr := by
  intro s t h
  unfold reloadSdr at h
  split at h
  · cases h
    rfl
  · obtain ⟨p, hp, h⟩ := andThen_eq_next.mp h
    cases h
    exact (ringPop_ringWrites hp).tcnt

theorem execXfer_keepsTcnt (rx : Byte) : KeepsTcnt (execXfer rx) := by
  intro s t h
  obtain ⟨u, hu, h⟩ := andThen_eq_next.mp h
  obtain ⟨v, hv, h⟩ := andThen_eq_next.mp h
  cases h
  exact (reloadSdr_keepsTcnt u v hv).trans (pushIn_ringWrites hu).tcnt

/-! ### Every operation -/

/-- Settles O12: the operations by their shared parts; those that store nothing but a result, an input or a list do so by their definition. -/
theorem onlyTickMovesTheCounter : Obligations.OnlyTickMovesTheCounter := by
  intro i s t hTick hReset h
  cases i
  case tick => exact absurd rfl hTick
  case reset => exact absurd rfl hReset
  case edge c lvl => exact (edgeOp_writesOnly c lvl).keepsTcnt s t h
  case timerMatch c => exact (matchOp_writesOnly c).keepsTcnt s t h
  case sendreq c => exact (execSendreq_writesOnly c).keepsTcnt s t h
  case housekeep => exact (housekeepChannel_keepsTcnt .ch0).andThen (housekeepChannel_keepsTcnt .ch1) s t h
  case xfer rx => exact execXfer_keepsTcnt rx s t h
  case dispatch => exact execDispatch_keepsTcnt s t h
  case getSwitch => exact execGetSwitch_keepsTcnt s t h
  case getPower => exact execGetPower_keepsTcnt s t h
  case popRx0 => exact execPopRx0_keepsTcnt s t h
  case popRx1 => exact execPopRx1_keepsTcnt s t h
  case clrFilter => exact execClrFilter_keepsTcnt s t h
  case setFilter => exact execSetFilter_keepsTcnt s t h
  case tx0 => exact execTx0_keepsTcnt s t h
  case tx1 => exact execTx1_keepsTcnt s t h
  case cmdIgnored v => exact execCmdIgnored_keepsTcnt v s t h
  case pShort c | pLong c | aShort c | aLong c | sof c => exact pulseEnds_keepsTcnt c _ _ s t h
  case eod c => exact execEod_keepsTcnt c s t h
  case ifs c => exact execIfs_keepsTcnt c s t h
  case qStage q k v => exact qStage_keepsTcnt q k v s t h
  case qRelease q => exact qRelease_keepsTcnt q s t h
  case ringPushIn b => exact pushIn_keepsTcnt b s t h
  case ringPushOut b => exact pushOut_keepsTcnt b s t h
  case arm c w => exact (armUnit_writesOnly c w).keepsTcnt s t h
  case qCommit q n =>
    obtain ⟨r, hr, h⟩ := andThen_eq_next.mp h
    cases h
    exact qCommit_tcnt hr
  case qHead q =>
    obtain ⟨r, -, h⟩ := andThen_eq_next.mp h
    cases h
    rfl
  case ringPop r =>
    obtain ⟨p, hp, h⟩ := andThen_eq_next.mp h
    cases h
    exact (ringPop_ringWrites hp).tcnt
  case filterAppend b =>
    cases h
    exact filterAppend_tcnt b s
  all_goals
    cases h
    rfl

end Sys2Proof.Machine
end

section
/-! PROOFS. The cells and pointers that a change of the state touches (`20_memory.md` R61, R67), and those of the shared operations. -/

namespace Sys2Proof.Machine

/-- Settles O11: the key written is that of the one cell. -/
theorem cellsReadAsLastWritten : Obligations.CellsReadAsLastWritten := by
  intro x y v s hx hy
  refine ⟨s.setMem (s.mem.write (cellKey x) v), memWrite_eq_next.mpr ⟨hx, rfl⟩, memRead_eq_next.mpr ⟨hx, ?_⟩, fun hne => ?_⟩
  · rw [cellValue_store hx hx, if_pos rfl]
  · rw [cellValue_store hx hy, if_neg hne]

/-- The pointers of the queues and rings (`10_state.md` R30, R32), each a word of its own (`20_memory.md` R66). -/
inductive PtrId
  | qStart (q : QueueId)
  | qStop (q : QueueId)
  | rStart (r : RingId)
  | rStop (r : RingId)

/-- The value of a pointer. -/
def State.ptr (s : State) : PtrId → Nat
  | .qStart q => (s.queue q).start
  | .qStop q => (s.queue q).stop
  | .rStart r => (s.ring r).start
  | .rStop r => (s.ring r).stop

/-- Going from `s` to `t`, no cell but those of `xs` is stored to and no pointer but those of `ps` moves; storage stays canonical. -/
structure Touches (xs : List CellId) (ps : PtrId → Prop) (s t : State) : Prop where
  cfg : t.cfg = s.cfg
  wf : s.mem.wf → t.mem.wf
  cells : ∀ x, cellExists s.cfg x = true → x ∉ xs → cellValue x t = cellValue x s
  ptrs : ∀ p, ¬ ps p → t.ptr p = s.ptr p

variable {s t u : State} {c : Chan} {q : QueueId} {r : RingId} {xs : List CellId} {ps : PtrId → Prop}

/-! ### One rule for each change of the state -/

theorem touches_refl : Touches xs ps s s := ⟨rfl, id, fun _ _ _ => rfl, fun _ _ => rfl⟩

theorem Touches.trans (h : Touches xs ps s t) (h' : Touches xs ps t u) : Touches xs ps s u where
  cfg := h'.cfg.trans h.cfg
  wf hw := h'.wf (h.wf hw)
  cells x hx hn := (h'.cells x (h.cfg ▸ hx) hn).trans (h.cells x hx hn)
  ptrs p hp := (h'.ptrs p hp).trans (h.ptrs p hp)

/-- Storage and every pointer as before. -/
theorem touches_of_same (hc : t.cfg = s.cfg) (hm : t.mem = s.mem) (hq : ∀ q, t.queue q = s.queue q) (hr : ∀ r, t.ring r = s.ring r) :
    Touches xs ps s t where
  cfg := hc
  wf hw := hm ▸ hw
  cells _ _ _ := cellValue_of_mem hm
  ptrs p _ := by cases p <;> simp only [State.ptr, hq, hr]

/-- The fields that hold storage and the pointers, and the configuration, which says what cells there are. -/
def State.layout (s : State) : Config × Memory × Channel × Channel × Ptrs × Ptrs := (s.cfg, s.mem, s.ch0, s.ch1, s.ringIn, s.ringOut)

/-- The counter, `sdr`, the lists, the inputs, the session, the returned value and the ghost log are neither cells nor pointers. -/
theorem touches_of_layout (h : t.layout = s.layout) : Touches xs ps s t := by
  simp only [State.layout, Prod.mk.injEq] at h
  obtain ⟨hc, hm, h0, h1, hin, hout⟩ := h
  have hch : ∀ c, t.ch c = s.ch c := by
    rintro (_ | _)
    exacts [h0, h1]
  refine touches_of_same hc hm ?_ ?_
  · rintro (c | c) <;> simp only [queue_rxq, queue_txq, hch]
  · rintro (_ | _)
    exacts [hin, hout]

/-- Registers of a channel, its pointers unmoved. -/
theorem touches_setCh {k : Channel} (h : (k.rxq, k.txq) = ((s.ch c).rxq, (s.ch c).txq)) : Touches xs ps s (s.setCh c k) := by
  obtain ⟨hr, ht⟩ := Prod.mk.inj h
  refine touches_of_same rfl rfl ?_ (setCh_ring s c k)
  rintro (d | d) <;> simp only [queue_rxq, queue_txq, setCh_ch] <;> split <;> simp_all

theorem touches_store {x : CellId} {v : Byte} (hx : cellExists s.cfg x = true) (h : x ∈ xs) :
    Touches xs ps s (s.setMem (s.mem.write (cellKey x) v)) where
  cfg := rfl
  wf := Memory.write_wf _ _ _
  cells y hy hn := by rw [cellValue_store hx hy, if_neg (ne_of_mem_of_not_mem h hn).symm]
  ptrs p _ := by cases p <;> simp only [State.ptr, setMem_queue, setMem_ring]

theorem touches_setQueue {p : Ptrs} (hstart : p.start = (s.queue q).start ∨ ps (.qStart q)) (hstop : p.stop = (s.queue q).stop ∨ ps (.qStop q)) :
    Touches xs ps s (s.setQueue q p) where
  cfg := setQueue_cfg s q p
  wf hw := by rwa [setQueue_mem]
  cells x _ _ := cellValue_setQueue x s q p
  ptrs i hi := by
    cases i with
    | qStart q' =>
      by_cases h : q' = q
      · subst h
        simpa only [State.ptr, setQueue_queue_same] using hstart.resolve_right hi
      · simp only [State.ptr, setQueue_queue, if_neg h]
    | qStop q' =>
      by_cases h : q' = q
      · subst h
        simpa only [State.ptr, setQueue_queue_same] using hstop.resolve_right hi
      · simp only [State.ptr, setQueue_queue, if_neg h]
    | rStart r => cases q <;> simp only [State.ptr, setQueue_rxq, setQueue_txq, setCh_ring]
    | rStop r => cases q <;> simp only [State.ptr, setQueue_rxq, setQueue_txq, setCh_ring]

theorem touches_setRing {p : Ptrs} (hstart : p.start = (s.ring r).start ∨ ps (.rStart r)) (hstop : p.stop = (s.ring r).stop ∨ ps (.rStop r)) :
    Touches xs ps s (s.setRing r p) where
  cfg := rfl
  wf := id
  cells _ _ _ := rfl
  ptrs i hi := by
    cases i with
    | qStart q => simp only [State.ptr, setRing_queue]
    | qStop q => simp only [State.ptr, setRing_queue]
    | rStart r' =>
      by_cases h : r' = r
      · subst h
        simpa only [State.ptr, setRing_ring_same] using hstart.resolve_right hi
      · simp only [State.ptr, setRing_ring, if_neg h]
    | rStop r' =>
      by_cases h : r' = r
      · subst h
        simpa only [State.ptr, setRing_ring_same] using hstop.resolve_right hi
      · simp only [State.ptr, setRing_ring, if_neg h]

/-! ### The shared operations -/

theorem armUnit_touches {w : Nat} (h : armUnit c w s = .next t) : Touches xs ps s t := by
  obtain ⟨-, rfl⟩ := armUnit_eq_next.mp h
  exact touches_setCh (by rfl)

theorem qStage_touches {i : Nat} {v : Byte} (h : qStage q i v s = .next t) (hx : .data q (s.queue q).stop i ∈ xs) : Touches xs ps s t := by
  obtain ⟨he, rfl⟩ := qStage_eq_next.mp h
  exact touches_store he hx

theorem qCommit_touches {n : Nat} {a : Bool × State} (h : qCommit q n s = .next a)
    (hx : queueFull q s = false → .len q (s.queue q).stop ∈ xs) (hp : ps (.qStop q)) : Touches xs ps s a.2 := by
  obtain ⟨-, ⟨-, -, ht⟩ | ⟨hf, -, he, ht⟩⟩ := qCommit_eq_next.mp h
  · rw [ht]
    exact touches_of_layout (by rfl)
  · rw [ht]
    exact (touches_store he (hx hf)).trans (touches_setQueue (.inl (by rw [setMem_queue])) (.inr hp))

theorem qRelease_touches (h : qRelease q s = .next t) (hp : ps (.qStart q)) : Touches xs ps s t := by
  obtain ⟨-, rfl⟩ := qRelease_eq_next.mp h
  exact touches_setQueue (.inr hp) (.inl rfl)

theorem ringStore_touches {b : Byte} (h : ringStore r b s = .next t) (hx : .ring r (s.ring r).stop ∈ xs) (hp : ps (.rStop r)) :
    Touches xs ps s t := by
  obtain ⟨he, rfl⟩ := ringStore_eq_next.mp h
  exact (touches_store he hx).trans (touches_setRing (.inl (by rw [setMem_ring])) (.inr hp))

theorem pushOut_touches {b : Byte} (h : pushOut b s = .next t)
    (hx : ringFull .ringOut s = false → .ring .ringOut s.ringOut.stop ∈ xs) (hp : ps (.rStop .ringOut)) : Touches xs ps s t := by
  obtain ⟨-, rfl⟩ | ⟨hf, h⟩ := pushOut_eq_next.mp h
  · exact touches_of_layout (by rfl)
  · exact ringStore_touches h (hx hf) hp

/-- An inbound push moves `start` only where it evicts the oldest byte (`45_transport_ring.md` R221). -/
theorem pushIn_touches {b : Byte} (h : pushIn b s = .next t)
    (hx : ringFull .ringIn s = false ∨ s.cfg.inboundPolicy = .dropOldest → .ring .ringIn s.ringIn.stop ∈ xs)
    (hstop : ps (.rStop .ringIn)) (hstart : ringFull .ringIn s = true ∧ s.cfg.inboundPolicy = .dropOldest → ps (.rStart .ringIn)) :
    Touches xs ps s t := by
  obtain ⟨hf, h⟩ | ⟨-, -, rfl⟩ | ⟨hf, hpol, h⟩ := pushIn_eq_next.mp h
  · exact ringStore_touches h (hx (.inl hf)) hstop
  · exact touches_of_layout (by rfl)
  · have raised : Touches xs ps s (raiseFault (.transportOverflow .ringIn) s) := touches_of_layout (by rfl)
    have evicted := raised.trans (touches_setRing (r := .ringIn)
      (p := { s.ringIn with start := nextIndex s.cfg.ringInSize s.ringIn.start }) (.inr (hstart ⟨hf, hpol⟩)) (.inl rfl))
    exact evicted.trans (ringStore_touches h (by simpa using hx (.inr hpol)) hstop)

theorem ringPop_touches {a : Byte × State} (h : ringPop r s = .next a) (hp : ps (.rStart r)) : Touches xs ps s a.2 := by
  obtain ⟨-, -, -, ht⟩ := ringPop_eq_next.mp h
  rw [ht]
  exact touches_setRing (.inr hp) (.inl rfl)

theorem disarmUnit_touches : Touches xs ps s (disarmUnit c s) := touches_setCh (by rfl)

end Sys2Proof.Machine
end

section
/-! PROOFS. The cells that each operation stores to and the pointers that it moves: canonical storage, its frame, the ownership table. -/

namespace Sys2Proof.Machine

variable {s t u : State} {c : Chan} {q : QueueId} {xs : List CellId} {ps : PtrId → Prop}

/-! ### The interrupt operations of a channel -/

/-- The pointers that the interrupt operations of a channel own: the producer's of its receive queue, the consumer's of its transmit queue
(`20_memory.md` R67). -/
def interruptPtrs (c : Chan) : PtrId → Prop
  | .qStop (.rxq d) => d = c
  | .qStart (.txq d) => d = c
  | _ => False

theorem rxAbort_touches (e : Raised) : Touches xs ps s (rxAbort c (raiseFault e s)) := by
  rw [rxAbort_eq]
  exact .trans (touches_of_layout (by rfl)) (touches_setCh (by rfl))

theorem contention_touches (h : contention c s = .next t) : Touches xs (interruptPtrs c) s t := by
  obtain ⟨u, hu, h⟩ := andThen_eq_next.mp h
  cases h
  have raised : Touches xs (interruptPtrs c) s (raiseFault (.contention c) s) := touches_of_layout (by rfl)
  exact raised.trans (.trans (touches_setCh (by rfl)) (.trans disarmUnit_touches (.trans (qRelease_touches hu rfl) (touches_setCh (by rfl)))))

theorem edgeIdle_touches {lvl : Level} (h : edgeIdle c lvl s = .next t) : Touches xs ps s t := by
  unfold edgeIdle at h
  split at h
  · cases h
    exact touches_setCh (by rfl)
  · cases h
    exact touches_refl

theorem edgeSofWait_touches {lvl : Level} {e : Nat} (h : edgeSofWait c lvl e s = .next t) : Touches xs ps s t := by
  unfold edgeSofWait at h
  split at h
  · exact .trans (touches_setCh (by rfl)) (armUnit_touches h)
  · cases h
    exact rxAbort_touches _

/-- An accepted bit stores the byte it completes at the cursor, in the slot at `end`. -/
theorem appendBit_touches {bit : Bool} (hx : .data (.rxq c) (s.ch c).rxq.stop (s.ch c).byteIdx ∈ xs) (h : appendBit c bit s = .next t) :
    Touches xs ps s t := by
  simp only [appendBit] at h
  split at h
  · obtain ⟨u, hu, h⟩ := andThen_eq_next.mp h
    exact .trans (touches_setCh (by rfl)) (.trans (qStage_touches hu (by simpa using hx)) (.trans (touches_setCh (by rfl)) (armUnit_touches h)))
  · exact .trans (touches_setCh (by rfl)) (armUnit_touches h)

theorem edgeReceiving_touches {lvl : Level} {e : Nat} (hx : .data (.rxq c) (s.ch c).rxq.stop (s.ch c).byteIdx ∈ xs)
    (h : edgeReceiving c lvl e s = .next t) : Touches xs ps s t := by
  unfold edgeReceiving at h
  split at h
  · cases h
    exact rxAbort_touches _
  · split at h
    · cases h
      exact rxAbort_touches _
    · exact appendBit_touches hx h

theorem edgeSending_touches {lvl : Level} (h : edgeSending c lvl s = .next t) : Touches xs (interruptPtrs c) s t := by
  unfold edgeSending at h
  split at h
  · exact contention_touches h
  · cases h
    exact touches_refl

/-- `EDGE` stores a received byte or nothing, and releases a frame on contention. -/
theorem edgeOp_touches {lvl : Level} (h : edgeOp c lvl s = .next t) :
    Touches [.data (.rxq c) (s.ch c).rxq.stop (s.ch c).byteIdx] (interruptPtrs c) s t := by
  have stamp : Touches [.data (.rxq c) (s.ch c).rxq.stop (s.ch c).byteIdx] (interruptPtrs c) s (stampEdge c lvl s) := touches_setCh (by rfl)
  unfold edgeOp at h
  split at h
  · cases hst : (s.ch c).st <;> simp only [hst] at h
    case idle => exact stamp.trans (edgeIdle_touches h)
    case sofWait => exact stamp.trans (edgeSofWait_touches h)
    case receiving => exact stamp.trans (edgeReceiving_touches (by simp [stampEdge]) h)
    case txArmed | txWaitIfs => cases h; exact stamp
    case txSending => exact stamp.trans (edgeSending_touches h)
  · cases h

theorem pulseEnds_touches {lvl : Level} {cls : Nat → Bool} (h : pulseEnds c lvl cls s = .next t) :
    Touches [.data (.rxq c) (s.ch c).rxq.stop (s.ch c).byteIdx] (interruptPtrs c) s t := by
  unfold pulseEnds at h
  split at h
  · exact edgeOp_touches h
  · cases h

/-- The end of data stores the length of the frame it commits. -/
theorem matchReceiving_touches (hx : queueFull (.rxq c) s = false → .len (.rxq c) (s.ch c).rxq.stop ∈ xs)
    (h : matchReceiving c s = .next t) : Touches xs (interruptPtrs c) s t := by
  have idle : Touches xs (interruptPtrs c) s (s.setCh c { s.ch c with st := .idle }) := touches_setCh (by rfl)
  simp only [matchReceiving] at h
  split at h
  · cases h
    exact idle
  · obtain ⟨ok, -, h⟩ := andThen_eq_next.mp h
    split at h
    · obtain ⟨b, -, h⟩ := andThen_eq_next.mp h
      split at h
      · obtain ⟨a, ha, h⟩ := andThen_eq_next.mp h
        cases h
        exact idle.trans (qCommit_touches ha (by simpa [queueFull] using hx) rfl)
      · cases h
        exact idle
    · cases h
      exact idle

theorem matchWaiting_touches (h : matchWaiting c s = .next t) : Touches xs ps s t := by
  unfold matchWaiting at h
  split at h
  · exact .trans (touches_setCh (by rfl)) (armUnit_touches h)
  · obtain ⟨u, hu, h⟩ := andThen_eq_next.mp h
    cases h
    exact .trans (touches_setCh (by rfl)) (.trans (armUnit_touches hu) (touches_setCh (by rfl)))

theorem sendBit_touches (h : sendBit c s = .next t) : Touches xs ps s t := by
  obtain ⟨b, -, h⟩ := andThen_eq_next.mp h
  obtain ⟨u, hu, h⟩ := andThen_eq_next.mp h
  have armed : Touches xs ps s u := armUnit_touches hu
  split at h <;> cases h
  · exact armed.trans (touches_setCh (by rfl))
  · exact armed.trans (touches_setCh (by rfl))

theorem endSend_touches (h : endSend c s = .next t) : Touches xs (interruptPtrs c) s t := by
  obtain ⟨u, hu, h⟩ := andThen_eq_next.mp h
  cases h
  exact .trans (touches_setCh (by rfl)) (.trans (qRelease_touches hu rfl) (touches_setCh (by rfl)))

theorem matchSending_touches (h : matchSending c s = .next t) : Touches xs (interruptPtrs c) s t := by
  unfold matchSending at h
  split at h
  · exact contention_touches h
  · obtain ⟨n, -, h⟩ := andThen_eq_next.mp h
    split at h
    · exact .trans (touches_setCh (by rfl)) (sendBit_touches h)
    · exact .trans (touches_setCh (by rfl)) (endSend_touches h)

/-- `MATCH` stores a length in `Receiving`, and nothing elsewhere. -/
theorem matchOp_touches (hx : (s.ch c).st = .receiving → queueFull (.rxq c) s = false → .len (.rxq c) (s.ch c).rxq.stop ∈ xs)
    (h : matchOp c s = .next t) : Touches xs (interruptPtrs c) s t := by
  have disarm : Touches xs (interruptPtrs c) s (disarmUnit c s) := touches_setCh (by rfl)
  unfold matchOp at h
  split at h
  · cases hst : (s.ch c).st <;> simp only [hst] at h
    case idle | sofWait => cases h; exact disarm
    case receiving => exact disarm.trans (matchReceiving_touches (by simpa [queueFull] using hx hst) h)
    case txArmed | txWaitIfs => exact disarm.trans (matchWaiting_touches h)
    case txSending => exact disarm.trans (matchSending_touches h)
  · cases h

theorem execEod_touches (hx : queueFull (.rxq c) s = false → .len (.rxq c) (s.ch c).rxq.stop ∈ xs) (h : execEod c s = .next t) :
    Touches xs (interruptPtrs c) s t := by
  unfold execEod at h
  split at h
  · split at h
    · exact matchOp_touches (fun _ => hx) h
    all_goals
      cases h
      exact touches_refl
  · cases h

/-- `IFS` is a match in a waiting state only, and so stores nothing. -/
theorem execIfs_touches (h : execIfs c s = .next t) : Touches xs (interruptPtrs c) s t := by
  unfold execIfs at h
  split at h
  · cases hst : (s.ch c).st <;> simp only [hst] at h
    case txArmed | txWaitIfs => exact matchOp_touches (by simp [hst]) h
    all_goals
      cases h
      exact touches_refl
  · cases h

/-! ### Send requests and the counter -/

theorem startSend_touches (h : startSend c s = .next t) : Touches xs ps s t := by
  obtain ⟨u, hu, h⟩ := andThen_eq_next.mp h
  cases h
  exact .trans (touches_setCh (by rfl)) (.trans (armUnit_touches hu) (touches_setCh (by rfl)))

theorem execSendreq_touches (h : execSendreq c s = .next t) : Touches xs ps s t := by
  unfold execSendreq at h
  split at h
  · exact startSend_touches h
  · cases h

theorem housekeepChannel_touches (h : housekeepChannel c s = .next t) : Touches xs ps s t := by
  unfold housekeepChannel at h
  split at h
  · exact startSend_touches h
  · cases h
    exact touches_refl

theorem execHousekeep_touches (h : execHousekeep s = .next t) : Touches xs ps s t := by
  obtain ⟨u, hu, h⟩ := andThen_eq_next.mp h
  exact (housekeepChannel_touches hu).trans (housekeepChannel_touches h)

/-- A compare unit has no pointer. -/
theorem touches_compareUnit (b : Byte) : Touches xs ps s (s.setCh c (compareUnit b (s.ch c))) := by
  unfold compareUnit
  split
  · exact touches_setCh (by rfl)
  · exact touches_setCh (by rfl)

theorem execTick_touches (h : execTick s = .next t) : Touches xs ps s t := by
  unfold execTick at h
  split at h
  · cases h
    have counted : Touches xs ps s { s with tcnt := s.tcnt + 1#8 } := touches_of_layout (by rfl)
    exact (counted.trans (touches_compareUnit (c := .ch0) (s.tcnt + 1#8))).trans (touches_compareUnit (c := .ch1) (s.tcnt + 1#8))
  · cases h

/-! ### The dispatcher -/

/-- The pointers that the dispatcher owns (`20_memory.md` R67). -/
def dispatcherPtrs : PtrId → Prop
  | .qStart (.rxq _) => True
  | .qStop (.txq _) => True
  | .rStart .ringIn => True
  | .rStop .ringOut => True
  | _ => False

/-- `f` is a part of the dispatcher that stores at most a response byte, at the end of `ring_out`. -/
def Responds (f : State → Res State) : Prop :=
  ∀ xs s t, (ringFull .ringOut s = false → .ring .ringOut s.ringOut.stop ∈ xs) → f s = .next t → Touches xs dispatcherPtrs s t

theorem pushOut_responds (b : State → Byte) : Responds fun s => pushOut (b s) s := fun _ _ _ hx h => pushOut_touches h hx trivial

/-- A command runs on the state itself, or after the filter that is loaded is committed and the session closed. -/
theorem asCommand_eq_next {body : State → Res State} (h : asCommand body s = .next t) :
    ∃ u, (u = s ∨ u = (filterCommit s).setSess .idle) ∧ body u = .next t := by
  unfold asCommand at h
  split at h
  · exact ⟨s, .inl rfl, h⟩
  · exact ⟨_, .inr rfl, h⟩
  all_goals cases h

theorem asCommand_responds {body : State → Res State} (hb : Responds body) : Responds (asCommand body) := by
  intro xs s t hx h
  obtain ⟨u, rfl | rfl, hu⟩ := asCommand_eq_next h
  · exact hb xs _ t hx hu
  · exact .trans (touches_of_layout (by rfl)) (hb xs ((filterCommit s).setSess .idle) t hx hu)

/-- A command that answers on no ring. -/
theorem asCommand_touches {f : State → State} (hf : ∀ u, Touches xs ps u (f u)) (h : asCommand (fun u => .next (f u)) s = .next t) :
    Touches xs ps s t := by
  obtain ⟨u, rfl | rfl, hu⟩ := asCommand_eq_next h <;> cases hu
  · exact hf _
  · exact .trans (touches_of_layout (by rfl)) (hf _)

theorem popRx_responds (c : Chan) : Responds (popRx c) := by
  intro xs s t hx h
  unfold popRx at h
  split at h
  · exact pushOut_touches h hx trivial
  · obtain ⟨u, hu, h⟩ := andThen_eq_next.mp h
    obtain ⟨n, -, h⟩ := andThen_eq_next.mp h
    cases h
    exact .trans (pushOut_touches hu hx trivial) (touches_of_layout (by rfl))

theorem execGetSwitch_responds : Responds execGetSwitch := asCommand_responds (pushOut_responds _)

theorem execGetPower_responds : Responds execGetPower := asCommand_responds (pushOut_responds _)

theorem execPopRx0_responds : Responds execPopRx0 := asCommand_responds (popRx_responds .ch0)

theorem execPopRx1_responds : Responds execPopRx1 := asCommand_responds (popRx_responds .ch1)

theorem execClrFilter_touches (h : execClrFilter s = .next t) : Touches xs ps s t := asCommand_touches (fun _ => touches_of_layout (by rfl)) h

theorem execSetFilter_touches (h : execSetFilter s = .next t) : Touches xs ps s t := asCommand_touches (fun _ => touches_of_layout (by rfl)) h

theorem execTx0_touches (h : execTx0 s = .next t) : Touches xs ps s t := asCommand_touches (fun _ => touches_of_layout (by rfl)) h

theorem execTx1_touches (h : execTx1 s = .next t) : Touches xs ps s t := asCommand_touches (fun _ => touches_of_layout (by rfl)) h

theorem execCmdIgnored_touches {v : Byte} (h : execCmdIgnored v s = .next t) : Touches xs ps s t := by
  unfold execCmdIgnored at h
  split at h
  · split at h <;> cases h
    exact touches_refl
  all_goals cases h

/-- The command of every byte (`46_dispatcher.md` R241). -/
theorem commandStep_responds (b : Byte) : Responds (commandStep b) := by
  intro xs s t hx h
  unfold commandStep at h
  split_ifs at h
  exacts [execGetSwitch_responds xs s t hx h, execGetPower_responds xs s t hx h, execPopRx0_responds xs s t hx h,
    execPopRx1_responds xs s t hx h, execClrFilter_touches h, execSetFilter_touches h, execTx0_touches h, execTx1_touches h,
    execCmdIgnored_touches h]

theorem filterAppend_touches (b : Byte) : Touches xs ps s (filterAppend b s) := by
  unfold filterAppend
  split
  · exact touches_of_layout (by rfl)
  · exact touches_refl

theorem filterLoadStep_responds (b : Byte) : Responds (filterLoadStep b) := by
  intro xs s t hx h
  unfold filterLoadStep at h
  split at h
  · exact commandStep_responds b xs s t hx h
  · cases h
    exact filterAppend_touches b

theorem popSendStep_responds (c : Chan) (idx rem : Nat) : Responds (popSendStep c idx rem) := by
  intro xs s t hx h
  obtain ⟨b, -, h⟩ := andThen_eq_next.mp h
  obtain ⟨u, hu, h⟩ := andThen_eq_next.mp h
  have pushed : Touches xs dispatcherPtrs s u := pushOut_touches hu hx trivial
  split at h
  · obtain ⟨v, hv, h⟩ := andThen_eq_next.mp h
    cases h
    exact pushed.trans (.trans (qRelease_touches hv trivial) (touches_of_layout (by rfl)))
  · cases h
    exact pushed.trans (touches_of_layout (by rfl))

/-- A completed frame has its CRC stored behind its bytes, and its length where the queue has room. -/
theorem txComplete_touches {len : Nat} (hcrc : .data (.txq c) (s.ch c).txq.stop (len - 1) ∈ xs)
    (hlen : queueFull (.txq c) s = false → .len (.txq c) (s.ch c).txq.stop ∈ xs) (h : txComplete c len s = .next t) :
    Touches xs dispatcherPtrs s t := by
  obtain ⟨ys, -, h⟩ := andThen_eq_next.mp h
  obtain ⟨u, hu, h⟩ := andThen_eq_next.mp h
  obtain ⟨a, ha, h⟩ := andThen_eq_next.mp h
  cases h
  have staged : Touches xs dispatcherPtrs s u := qStage_touches hu hcrc
  obtain ⟨-, rfl⟩ := qStage_eq_next.mp hu
  exact staged.trans (.trans (qCommit_touches ha (by simpa [queueFull] using hlen) trivial) (touches_of_layout (by rfl)))

theorem txLenStep_touches {b : Byte} (hcrc : .data (.txq c) (s.ch c).txq.stop 0 ∈ xs)
    (hlen : queueFull (.txq c) s = false → .len (.txq c) (s.ch c).txq.stop ∈ xs) (h : txLenStep c b s = .next t) :
    Touches xs dispatcherPtrs s t := by
  unfold txLenStep at h
  split_ifs at h
  · cases h
    exact touches_of_layout (by rfl)
  · exact txComplete_touches hcrc hlen h
  · cases h
    exact touches_of_layout (by rfl)

theorem txDataStep_touches {idx len : Nat} {b : Byte} (hx : .data (.txq c) (s.ch c).txq.stop idx ∈ xs)
    (hcrc : .data (.txq c) (s.ch c).txq.stop (len - 1) ∈ xs)
    (hlen : queueFull (.txq c) s = false → .len (.txq c) (s.ch c).txq.stop ∈ xs) (h : txDataStep c idx len b s = .next t) :
    Touches xs dispatcherPtrs s t := by
  obtain ⟨u, hu, h⟩ := andThen_eq_next.mp h
  have staged : Touches xs dispatcherPtrs s u := qStage_touches hu hx
  obtain ⟨-, rfl⟩ := qStage_eq_next.mp hu
  split at h
  · exact staged.trans (txComplete_touches (by simpa using hcrc) (by simpa [queueFull] using hlen) h)
  · cases h
    exact staged.trans (touches_of_layout (by rfl))

/-- The byte is taken, then used on a state that differs in `ring_in.start` alone. -/
theorem takeInbound_touches {use : Byte → State → Res State}
    (hu : ∀ b p, use b (s.setRing .ringIn p) = .next t → Touches xs dispatcherPtrs (s.setRing .ringIn p) t)
    (h : takeInbound use s = .next t) : Touches xs dispatcherPtrs s t := by
  unfold takeInbound at h
  split at h
  · cases h
  · obtain ⟨a, ha, h⟩ := andThen_eq_next.mp h
    have taken : Touches xs dispatcherPtrs s a.2 := ringPop_touches ha trivial
    obtain ⟨-, -, -, hs⟩ := ringPop_eq_next.mp ha
    rw [hs] at h taken
    exact taken.trans (hu _ _ h)

/-- An outbound push has a cell to store to unless it drops the byte. -/
theorem ringOut_stop_mem_storedCells (b : Byte) (h : ringFull .ringOut s = false) :
    .ring .ringOut s.ringOut.stop ∈ storedCells (.ringPushOut b) s := by
  simp [storedCells, h]

/-- A commit has a cell to store to unless it drops the frame. -/
theorem len_stop_mem_storedCells (n : Nat) (h : queueFull q s = false) : .len q (s.queue q).stop ∈ storedCells (.qCommit q n) s := by
  simp [storedCells, h]

theorem queueFull_setRing (q : QueueId) (s : State) (r : RingId) (p : Ptrs) : queueFull q (s.setRing r p) = queueFull q s := by
  rw [queueFull, setRing_queue, setRing_cfg, queueFull]

/-- `DISPATCH`: a response byte, or the bytes and the length of a frame taken in, by the session. -/
theorem execDispatch_touches (h : execDispatch s = .next t) : Touches (storedCells .dispatch s) dispatcherPtrs s t := by
  have response : ∀ f, Responds f → storedCells .dispatch s = storedCells (.ringPushOut 0#8) s → ∀ p, f (s.setRing .ringIn p) = .next t →
      Touches (storedCells .dispatch s) dispatcherPtrs (s.setRing .ringIn p) t := fun f hf he p hfp => by
    rw [he]
    exact hf _ _ _ (ringOut_stop_mem_storedCells 0#8) hfp
  unfold execDispatch at h
  cases hs : s.sess <;> simp only [hs] at h
  case popSend c idx rem => exact popSendStep_responds c idx rem _ s t (fun hf => by simp [storedCells, hs, hf]) h
  case idle => exact takeInbound_touches (fun b p => response _ (commandStep_responds b) (by simp [storedCells, hs]) p) h
  case filterLoad => exact takeInbound_touches (fun b p => response _ (filterLoadStep_responds b) (by simp [storedCells, hs]) p) h
  case txLen c =>
    refine takeInbound_touches (fun b p => txLenStep_touches ?_ ?_) h <;> rw [setRing_ch]
    · simp [storedCells, hs]
    · rw [queueFull_setRing]
      exact fun hf => by simp [storedCells, hs, hf]
  case txData c idx len =>
    refine takeInbound_touches (fun b p => txDataStep_touches ?_ ?_ ?_) h <;> rw [setRing_ch]
    · simp [storedCells, hs]
    · simp [storedCells, hs]
    · rw [queueFull_setRing]
      exact fun hf => by simp [storedCells, hs, hf]

/-! ### The byte exchange -/

/-- The pointers that the exchange owns, and `ring_in.start` when it evicts a byte (`20_memory.md` R67, `90_conflicts.md` C12). -/
def exchangePtrs (s : State) : PtrId → Prop
  | .rStop .ringIn => True
  | .rStart .ringOut => True
  | .rStart .ringIn => ringFull .ringIn s = true ∧ s.cfg.inboundPolicy = .dropOldest
  | _ => False

/-- An inbound push has a cell to store to unless it drops the byte. -/
theorem ringIn_stop_mem_storedCells (b : Byte) (h : ringFull .ringIn s = false ∨ s.cfg.inboundPolicy = .dropOldest) :
    .ring .ringIn s.ringIn.stop ∈ storedCells (.ringPushIn b) s := by
  cases hp : s.cfg.inboundPolicy with
  | dropOldest => simp [storedCells, hp]
  | dropNewest => simp [storedCells, hp, h.resolve_right (by simp [hp])]

theorem reloadSdr_touches (h : reloadSdr s = .next t) (hp : ps (.rStart .ringOut)) : Touches xs ps s t := by
  unfold reloadSdr at h
  split at h
  · cases h
    exact touches_of_layout (by rfl)
  · obtain ⟨a, ha, h⟩ := andThen_eq_next.mp h
    cases h
    exact .trans (ringPop_touches ha hp) (touches_of_layout (by rfl))

theorem execXfer_touches {rx : Byte} (h : execXfer rx s = .next t) : Touches (storedCells (.ringPushIn rx) s) (exchangePtrs s) s t := by
  obtain ⟨u, hu, h⟩ := andThen_eq_next.mp h
  obtain ⟨v, hv, h⟩ := andThen_eq_next.mp h
  cases h
  have pushed : Touches (storedCells (.ringPushIn rx) s) (exchangePtrs s) { s with linkActive := true } u :=
    pushIn_touches hu (ringIn_stop_mem_storedCells rx) trivial id
  exact .trans (touches_of_layout (by rfl)) (pushed.trans (.trans (reloadSdr_touches hv trivial) (touches_of_layout (by rfl))))

/-! ### Every operation -/

/-- The pointers an operation may move, by the ownership table (`20_memory.md` R67); for a primitive, the pointer it is about. -/
def movedPtrs (i : Instr) (s : State) : PtrId → Prop :=
  match i with
  | .edge c _ => interruptPtrs c
  | .timerMatch c => interruptPtrs c
  | .pShort c => interruptPtrs c
  | .pLong c => interruptPtrs c
  | .aShort c => interruptPtrs c
  | .aLong c => interruptPtrs c
  | .sof c => interruptPtrs c
  | .eod c => interruptPtrs c
  | .ifs c => interruptPtrs c
  | .xfer _ => exchangePtrs s
  | .ringPushIn _ => exchangePtrs s
  | .qCommit q _ => (· = .qStop q)
  | .qRelease q => (· = .qStart q)
  | .ringPop r => (· = .rStart r)
  | .dispatch => dispatcherPtrs
  | .getSwitch => dispatcherPtrs
  | .getPower => dispatcherPtrs
  | .popRx0 => dispatcherPtrs
  | .popRx1 => dispatcherPtrs
  | .ringPushOut _ => dispatcherPtrs
  | _ => fun _ => False

/-- Every operation but `RESET` stores to its own cells and moves its own pointers only. -/
theorem exec_touches {i : Instr} (hi : i ≠ .reset) (h : exec i s = .next t) : Touches (storedCells i s) (movedPtrs i s) s t := by
  cases i
  case reset => exact absurd rfl hi
  case tick => exact execTick_touches h
  case edge c lvl => exact edgeOp_touches h
  case timerMatch c => exact matchOp_touches (fun _ => len_stop_mem_storedCells (q := .rxq c) 0) h
  case xfer rx => exact execXfer_touches h
  case housekeep => exact execHousekeep_touches h
  case sendreq c => exact execSendreq_touches h
  case dispatch => exact execDispatch_touches h
  case getSwitch => exact execGetSwitch_responds _ s t (ringOut_stop_mem_storedCells 0#8) h
  case getPower => exact execGetPower_responds _ s t (ringOut_stop_mem_storedCells 0#8) h
  case popRx0 => exact execPopRx0_responds _ s t (ringOut_stop_mem_storedCells 0#8) h
  case popRx1 => exact execPopRx1_responds _ s t (ringOut_stop_mem_storedCells 0#8) h
  case clrFilter => exact execClrFilter_touches h
  case setFilter => exact execSetFilter_touches h
  case tx0 => exact execTx0_touches h
  case tx1 => exact execTx1_touches h
  case cmdIgnored v => exact execCmdIgnored_touches h
  case pShort c | pLong c | aShort c | aLong c | sof c => exact pulseEnds_touches h
  case eod c => exact execEod_touches (len_stop_mem_storedCells (q := .rxq c) 0) h
  case ifs c => exact execIfs_touches h
  case arm c w => exact armUnit_touches h
  case disarm c => cases h; exact touches_setCh (by rfl)
  case ringPushIn b => exact pushIn_touches h (ringIn_stop_mem_storedCells b) trivial id
  case ringPushOut b => exact pushOut_touches h (ringOut_stop_mem_storedCells b) trivial
  case qStage q k v => exact qStage_touches h (by simp [storedCells])
  case qRelease q => exact qRelease_touches h rfl
  case filterAppend b => cases h; exact filterAppend_touches b
  case qCommit q n =>
    obtain ⟨a, ha, h⟩ := andThen_eq_next.mp h
    cases h
    exact .trans (qCommit_touches ha (len_stop_mem_storedCells n) rfl) (touches_of_layout (by rfl))
  case ringPop r =>
    obtain ⟨a, ha, h⟩ := andThen_eq_next.mp h
    cases h
    exact .trans (ringPop_touches ha rfl) (touches_of_layout (by rfl))
  case qHead q =>
    obtain ⟨a, -, h⟩ := andThen_eq_next.mp h
    cases h
    exact touches_of_layout (by rfl)
  all_goals
    cases h
    exact touches_of_layout (by rfl)

/-- Settles O9: every write of storage is by `Memory.write`, and `RESET` empties it. -/
theorem storageStaysCanonical : Obligations.StorageStaysCanonical := by
  intro i s t hw h
  by_cases hi : i = .reset
  · subst hi
    cases h
    exact reset_mem_wf
  · exact (exec_touches hi h).wf hw

/-- Settles O10: no cell outside those an operation stores to is touched. -/
theorem storesOnlyItsOwnCells : Obligations.StoresOnlyItsOwnCells := fun _ _ _ x hi hx hn h => (exec_touches hi h).cells x hx hn

/-! ### The ownership table -/

theorem OwnWrites.ringIn (h : OwnWrites c s t) : t.ringIn = s.ringIn := by rw [h, setCh_ringIn]

theorem OwnWrites.ringOut (h : OwnWrites c s t) : t.ringOut = s.ringOut := by rw [h, setCh_ringOut]

theorem OwnWrites.filtActive (h : OwnWrites c s t) : t.filtActive = s.filtActive := by rw [h, setCh_filtActive]

theorem OwnWrites.filtStage (h : OwnWrites c s t) : t.filtStage = s.filtStage := by rw [h, setCh_filtStage]

/-- An interrupt operation of a channel writes what that channel owns, and moves only the pointers it owns. -/
theorem OwnWrites.owned (h : OwnWrites c s t) (ht : Touches xs (interruptPtrs c) s t) :
    (t.ch c).rxq.start = (s.ch c).rxq.start ∧ (t.ch c).txq.stop = (s.ch c).txq.stop ∧ t.ringIn = s.ringIn ∧ t.ringOut = s.ringOut ∧
      t.filtActive = s.filtActive ∧ t.filtStage = s.filtStage :=
  ⟨ht.ptrs (.qStart (.rxq c)) id, ht.ptrs (.qStop (.txq c)) id, h.ringIn, h.ringOut, h.filtActive, h.filtStage⟩

/-- The exchange writes, beside the rings, `link_active`, `sdr` and the returned value. -/
theorem execXfer_ringWrites {rx : Byte} (h : execXfer rx s = .next t) :
    RingWrites { s with linkActive := true, sdr := t.sdr, result := t.result } t := by
  obtain ⟨u, hu, h⟩ := andThen_eq_next.mp h
  obtain ⟨v, hv, h⟩ := andThen_eq_next.mp h
  cases h
  have pushed := pushIn_ringWrites hu
  unfold reloadSdr at hv
  split at hv
  · cases hv
    rw [pushed]
    rfl
  · obtain ⟨a, ha, hv⟩ := andThen_eq_next.mp hv
    cases hv
    have popped := ringPop_ringWrites ha
    rw [RingWrites, popped, pushed]
    rfl

/-- Settles O14: an owner's pointers are all that its operations move. -/
theorem pointersHaveOneWriter : Obligations.PointersHaveOneWriter := by
  intro c s t
  refine ⟨?_, fun h => ?_, fun rx h => ?_⟩
  · rintro (⟨lvl, h⟩ | h)
    · exact (edgeOp_writesOnly c lvl s t h).owned (edgeOp_touches h)
    · exact (matchOp_writesOnly c s t h).owned (exec_touches (i := .timerMatch c) (by simp) h)
  · have ht := execDispatch_touches h
    exact ⟨ht.ptrs (.qStop (.rxq c)) id, ht.ptrs (.qStart (.txq c)) id, ht.ptrs (.rStop .ringIn) id, ht.ptrs (.rStart .ringOut) id⟩
  · have ht := execXfer_touches h
    have hw := execXfer_ringWrites h
    have hch : t.ch c = s.ch c := (hw.ch c).trans (by cases c <;> rfl)
    refine ⟨by rw [hch], by rw [hch], ht.ptrs (.rStop .ringOut) id, by rw [hw], by rw [hw], fun hkeep => ht.ptrs (.rStart .ringIn) ?_⟩
    rintro ⟨hfull, hpolicy⟩
    simp [hfull, hpolicy] at hkeep

end Sys2Proof.Machine
end

section
/-! PROOFS. No step faults: every cell an operation reads is written, every cell it accesses exists (`20_memory.md` R61, R72). -/

namespace Sys2Proof.Machine

variable {s t : State} {c : Chan} {q : QueueId} {r : RingId}

/-! ### Answers that are no fault -/

/-- The answer is a value or a refusal. -/
def NoFault {α : Type} (x : Res α) : Prop := ∀ f, x ≠ .fault f

theorem noFault_next {α : Type} (a : α) : NoFault (.next a) := fun _ => nofun

theorem noFault_refused {α : Type} (e : Refusal) : NoFault (α := α) (.refused e) := fun _ => nofun

/-- A sequence does not fault when its first part does not, nor the second after what the first answers. -/
theorem NoFault.andThen {α β : Type} {x : Res α} {f : α → Res β} (hx : NoFault x) (hf : ∀ a, x = .next a → NoFault (f a)) :
    NoFault (x.andThen f) := fun e h => by
  obtain h | ⟨a, ha, h⟩ := andThen_eq_fault.mp h
  · exact hx e h
  · exact hf a ha e h

/-- A sequence whose second part only packs what the first answers. -/
theorem NoFault.map {α β : Type} {x : Res α} {f : α → β} (hx : NoFault x) : NoFault (x.andThen fun a => .next (f a)) :=
  hx.andThen fun _ _ => noFault_next _

/-! ### Storage -/

theorem memWrite_noFault {x : CellId} {v : Byte} (hx : cellExists s.cfg x = true) : NoFault (memWrite x v s) := by
  rw [memWrite, if_pos hx]
  exact noFault_next _

theorem memRead_noFault {x : CellId} (hx : cellExists s.cfg x = true) (hw : written x s) : NoFault (memRead x s) := fun f h => by
  rcases memRead_eq_fault h with he | hn
  · simp [hx] at he
  · simp [written, hn] at hw

theorem cellExists_data {g : Config} {k i : Nat} (hk : k < queueSize g q) (hi : i < 12) : cellExists g (.data q k i) = true := by
  simp [cellExists, hk, hi]

theorem cellExists_len {g : Config} {k : Nat} (hk : k < queueSize g q) : cellExists g (.len q k) = true := decide_eq_true hk

theorem cellExists_ring {g : Config} {k : Nat} (hk : k < ringSize g r) : cellExists g (.ring r k) = true := decide_eq_true hk

theorem readLen_noFault {k : Nat} (hk : k < queueSize s.cfg q) (hw : written (.len q k) s) : NoFault (readLen q k s) :=
  (memRead_noFault (cellExists_len hk) hw).map

theorem readData_noFault {k n : Nat} (hk : k < queueSize s.cfg q) (hn : n ≤ 12) (hw : ∀ i, i < n → written (.data q k i) s) :
    NoFault (readData q k n s) := by
  obtain ⟨xs, hxs⟩ := readData_of_written hk hn hw
  rw [hxs]
  exact noFault_next xs

/-! ### Frame queues -/

theorem qStage_noFault {i : Nat} {v : Byte} (hq : QueueInv q s) (hi : i < 12) : NoFault (qStage q i v s) :=
  memWrite_noFault (cellExists_data hq.stop_lt hi)

theorem qCommit_noFault {n : Nat} (hq : QueueInv q s) : NoFault (qCommit q n s) := by
  unfold qCommit
  split
  · split
    · exact noFault_next _
    · exact (memWrite_noFault (cellExists_len hq.stop_lt)).map
  · exact noFault_refused _

theorem qRelease_noFault (q : QueueId) (s : State) : NoFault (qRelease q s) := by
  unfold qRelease
  split
  · exact noFault_refused _
  · exact noFault_next _

/-- The length of the frame at the head is there to read. -/
theorem QueueInv.readLen_noFault (hq : QueueInv q s) (hne : queueEmpty q s = false) : NoFault (readLen q (s.queue q).start s) := by
  obtain ⟨v, hv, -⟩ := hq.frames _ hq.start_lt (holds_start hne)
  exact Machine.readLen_noFault hq.start_lt (by simp [written, hv])

/-- Every byte of the frame at the head is written, as far as its length says (`10_state.md` R40(f)). -/
theorem QueueInv.written_head (hq : QueueInv q s) (hne : queueEmpty q s = false) {v : Byte}
    (hv : cellValue (.len q (s.queue q).start) s = some v) {i : Nat} (hi : i < v.toNat) :
    i < 12 ∧ written (.data q (s.queue q).start i) s := by
  obtain ⟨w, hw, -, h12, hdata⟩ := hq.frames _ hq.start_lt (holds_start hne)
  obtain rfl : v = w := Option.some.inj (hv.symm.trans hw)
  exact ⟨by omega, hdata i hi⟩

/-! ### Rings -/

theorem ringStore_noFault {b : Byte} (hk : (s.ring r).stop < ringSize s.cfg r) : NoFault (ringStore r b s) :=
  (memWrite_noFault (cellExists_ring hk)).map

theorem pushOut_noFault {b : Byte} (hr : RingInv .ringOut s) : NoFault (pushOut b s) := by
  unfold pushOut
  split
  · exact noFault_next _
  · exact ringStore_noFault hr.stop_lt

theorem pushIn_noFault {b : Byte} (hr : RingInv .ringIn s) : NoFault (pushIn b s) := by
  unfold pushIn
  split
  · split
    · exact ringStore_noFault (by simpa using hr.stop_lt)
    · exact noFault_next _
  · exact ringStore_noFault hr.stop_lt

/-- The byte at `start` of a ring that is not empty is there to read. -/
theorem ringPop_noFault (hr : RingInv r s) : NoFault (ringPop r s) := by
  unfold ringPop
  split
  · exact noFault_refused _
  · rename_i hne
    exact (memRead_noFault (cellExists_ring hr.start_lt) (hr.cells _ hr.start_lt (holds_start (Bool.eq_false_iff.mpr hne)))).map

/-! ### The arms of `EDGE` -/

theorem contention_noFault (c : Chan) (s : State) : NoFault (contention c s) := (qRelease_noFault _ _).map

theorem edgeIdle_noFault {lvl : Level} : NoFault (edgeIdle c lvl s) := by
  unfold edgeIdle
  split
  · exact noFault_next _
  · exact noFault_next _

theorem edgeSofWait_noFault {lvl : Level} {e : Nat} : NoFault (edgeSofWait c lvl e s) := by
  unfold edgeSofWait
  split
  · exact armUnit_ne_fault
  · exact noFault_next _

/-- The cursor is within the slot at `end`. -/
theorem appendBit_noFault {bit : Bool} (h : BlockInv s) (h12 : (s.ch c).byteIdx ≠ 12) : NoFault (appendBit c bit s) := by
  have hby := (h.channels c).byteIdx_le
  have hstop := (h.queues (.rxq c)).stop_lt
  simp only [appendBit]
  split
  · refine NoFault.andThen (memWrite_noFault (cellExists_data ?_ (by omega))) fun _ _ => armUnit_ne_fault
    simpa using hstop
  · exact armUnit_ne_fault

theorem edgeReceiving_noFault {lvl : Level} {e : Nat} (h : BlockInv s) : NoFault (edgeReceiving c lvl e s) := by
  unfold edgeReceiving
  split
  · exact noFault_next _
  · split
    · exact noFault_next _
    · exact appendBit_noFault h ‹_›

theorem edgeSending_noFault {lvl : Level} : NoFault (edgeSending c lvl s) := by
  unfold edgeSending
  split
  · exact contention_noFault c s
  · exact noFault_next _

theorem edgeOp_noFault {lvl : Level} (h : BlockInv s) : NoFault (edgeOp c lvl s) := by
  unfold edgeOp
  split
  · split
    · exact edgeIdle_noFault
    · exact edgeSofWait_noFault
    · exact edgeReceiving_noFault (h.stampEdge c lvl)
    · exact noFault_next _
    · exact noFault_next _
    · exact edgeSending_noFault
  · exact noFault_refused _

/-! ### The arms of `MATCH` -/

/-- The bytes below the cursor are staged (`43_vpw_receiver.md` R166), and so can be checked. -/
theorem rxCrcPasses_noFault {n : Nat} (hq : QueueInv (.rxq c) s) (h1 : 1 ≤ n) (hn : n ≤ 12)
    (hw : ∀ i, i < n → written (.data (.rxq c) (s.ch c).rxq.stop i) s) : NoFault (rxCrcPasses c n s) := by
  have hstop := hq.stop_lt
  unfold rxCrcPasses
  split
  · refine (readData_noFault hstop (by omega) fun i hi => hw i (by omega)).andThen fun _ _ => ?_
    exact (memRead_noFault (cellExists_data hstop (by omega)) (hw _ (by omega))).map
  · exact noFault_next _

theorem matchReceiving_noFault (h : BlockInv s) (hst : (s.ch c).st = .receiving) : NoFault (matchReceiving c (disarmUnit c s)) := by
  have idle := h.toIdle (c := c) (by simp [hst])
  have hw := (h.channels c).staged hst
  have h12 := (h.channels c).byteIdx_le
  have hq := idle.queues (.rxq c)
  simp only [matchReceiving, disarmUnit_eq, setCh_setCh, setCh_ch_same]
  split
  · exact noFault_next _
  · rename_i hn
    have h1 : 1 ≤ (s.ch c).byteIdx := Nat.one_le_iff_ne_zero.mpr hn
    have hstop := (h.queues (.rxq c)).stop_lt
    refine (rxCrcPasses_noFault hq h1 h12 (by simpa using hw)).andThen fun ok _ => ?_
    split
    · refine (memRead_noFault (cellExists_data hstop (by omega)) (hw 0 h1)).andThen fun b _ => ?_
      split
      · exact (qCommit_noFault hq).map
      · exact noFault_next _
    · exact noFault_next _

theorem matchWaiting_noFault : NoFault (matchWaiting c s) := by
  unfold matchWaiting
  split
  · exact armUnit_ne_fault
  · exact NoFault.map armUnit_ne_fault

theorem sendBit_noFault (hk : (s.ch c).txq.start < queueSize s.cfg (.txq c)) (hby : (s.ch c).byteIdx < 12)
    (hw : written (.data (.txq c) (s.ch c).txq.start (s.ch c).byteIdx) s) : NoFault (sendBit c s) := by
  refine (memRead_noFault (cellExists_data hk hby) hw).andThen fun b _ => NoFault.andThen armUnit_ne_fault fun u _ => ?_
  split
  · exact noFault_next _
  · exact noFault_next _

theorem endSend_noFault : NoFault (endSend c s) := (qRelease_noFault _ _).map

/-- The frame at the head of the transmit queue is sent no further than its length. -/
theorem matchSending_noFault (h : BlockInv s) (hst : (s.ch c).st = .txSending) : NoFault (matchSending c (disarmUnit c s)) := by
  have hq := h.queues (.txq c)
  have hne : queueEmpty (.txq c) s = false := (h.channels c).frameHeld (.inr (.inr hst))
  unfold matchSending
  split
  · exact contention_noFault _ _
  · simp only [disarmUnit_eq, setCh_setCh, setCh_ch_same, readLen_setCh]
    refine (hq.readLen_noFault hne).andThen fun n hn => ?_
    obtain ⟨-, v, hv, rfl⟩ := readLen_eq_next.mp hn
    split
    · obtain ⟨h12, hw⟩ := hq.written_head hne hv ‹_›
      exact sendBit_noFault (by simpa using hq.start_lt) (by simpa using h12) (by simpa using hw)
    · exact endSend_noFault

theorem matchOp_noFault (h : BlockInv s) : NoFault (matchOp c s) := by
  unfold matchOp
  split
  · split
    · exact noFault_next _
    · exact noFault_next _
    · exact matchReceiving_noFault h ‹_›
    · exact matchWaiting_noFault
    · exact matchWaiting_noFault
    · exact matchSending_noFault h ‹_›
  · exact noFault_refused _

/-! ### Send requests, the counter and the byte exchange -/

theorem startSend_noFault : NoFault (startSend c s) := NoFault.map armUnit_ne_fault

theorem execSendreq_noFault : NoFault (execSendreq c s) := by
  unfold execSendreq
  split
  · exact startSend_noFault
  · exact noFault_refused _

theorem housekeepChannel_noFault : NoFault (housekeepChannel c s) := by
  unfold housekeepChannel
  split
  · exact startSend_noFault
  · exact noFault_next _

theorem execTick_noFault : NoFault (execTick s) := by
  unfold execTick
  split
  · exact noFault_next _
  · exact noFault_refused _

theorem reloadSdr_noFault (hr : RingInv .ringOut s) : NoFault (reloadSdr s) := by
  unfold reloadSdr
  split
  · exact noFault_next _
  · exact (ringPop_noFault hr).map

theorem execXfer_noFault {rx : Byte} (h : BlockInv s) : NoFault (execXfer rx s) := by
  have linked : BlockInv { s with linkActive := true } := h.congr
  refine (pushIn_noFault (linked.rings .ringIn)).andThen fun u hu => ?_
  exact (reloadSdr_noFault ((pushIn_keepsInv linked hu).rings .ringOut)).map

/-! ### Commands -/

/-- `f` does not fault from any state of the invariant. -/
def NeverFaults (f : State → Res State) : Prop := ∀ s, BlockInv s → NoFault (f s)

theorem neverFaults_next (f : State → State) : NeverFaults fun s => .next (f s) := fun _ _ => noFault_next _

theorem pushOut_neverFaults (b : State → Byte) : NeverFaults fun s => pushOut (b s) s := fun _ h => pushOut_noFault (h.rings .ringOut)

theorem asCommand_neverFaults {body : State → Res State} (hb : NeverFaults body) : NeverFaults (asCommand body) := by
  intro s h
  unfold asCommand
  split
  · exact hb s h
  · have committed : BlockInv (filterCommit s) := h.setFilter h.stage_le h.stage_le
    exact hb _ (committed.setSess (v := .idle) trivial)
  all_goals exact noFault_refused _

/-- The length read is that of the frame at the head, which a response does not move. -/
theorem popRx_neverFaults (c : Chan) : NeverFaults (popRx c) := by
  intro s h
  unfold popRx
  split
  · exact pushOut_noFault (h.rings .ringOut)
  · rename_i hne
    refine (pushOut_noFault (h.rings .ringOut)).andThen fun u hu => ?_
    have hne : queueEmpty (.rxq c) u = false := by simpa [queueEmpty, (pushOut_ringWrites hu).ch] using hne
    exact (((pushOut_keepsInv h hu).queues (.rxq c)).readLen_noFault hne).map

theorem execCmdIgnored_neverFaults (v : Byte) : NeverFaults (execCmdIgnored v) := by
  intro s _
  unfold execCmdIgnored
  split
  · split
    · exact noFault_refused _
    · exact noFault_next _
  all_goals exact noFault_refused _

/-- The command of every byte (`46_dispatcher.md` R241). -/
theorem commandStep_neverFaults (b : Byte) : NeverFaults (commandStep b) := by
  intro s h
  unfold commandStep
  split_ifs
  · exact asCommand_neverFaults (pushOut_neverFaults _) s h
  · exact asCommand_neverFaults (pushOut_neverFaults _) s h
  · exact asCommand_neverFaults (popRx_neverFaults .ch0) s h
  · exact asCommand_neverFaults (popRx_neverFaults .ch1) s h
  · exact asCommand_neverFaults (neverFaults_next _) s h
  · exact asCommand_neverFaults (neverFaults_next _) s h
  · exact asCommand_neverFaults (neverFaults_next _) s h
  · exact asCommand_neverFaults (neverFaults_next _) s h
  · exact execCmdIgnored_neverFaults b s h

/-! ### The sessions of the dispatcher -/

/-- The next byte of the frame being popped is one of the bytes remaining. -/
theorem popSendStep_noFault {idx rem : Nat} (h : BlockInv s) (hs : s.sess = .popSend c idx rem) : NoFault (popSendStep c idx rem s) := by
  have hq := h.queues (.rxq c)
  have session := h.session
  simp only [SessionInv, hs] at session
  obtain ⟨hrem, hne, v, hv, hn⟩ := session
  obtain ⟨h12, hw⟩ := hq.written_head hne hv (show idx < v.toNat by omega)
  refine (memRead_noFault (cellExists_data hq.start_lt h12) hw).andThen fun b _ => ?_
  refine (pushOut_noFault (h.rings .ringOut)).andThen fun u _ => ?_
  split
  · exact (qRelease_noFault _ _).map
  · exact noFault_next _

theorem filterLoadStep_neverFaults (b : Byte) : NeverFaults (filterLoadStep b) := by
  intro s h
  unfold filterLoadStep
  split
  · exact commandStep_neverFaults b s h
  · exact noFault_next _

/-- A frame taken in is complete when all of its bytes but the CRC are staged. -/
theorem txComplete_noFault {len : Nat} (h : BlockInv s) (h1 : 1 ≤ len) (h12 : len ≤ 12)
    (hw : ∀ i, i < len - 1 → written (.data (.txq c) (s.queue (.txq c)).stop i) s) : NoFault (txComplete c len s) := by
  have hq := h.queues (.txq c)
  refine (readData_noFault hq.stop_lt (by omega) hw).andThen fun xs _ => ?_
  refine (qStage_noFault hq (by omega)).andThen fun u hu => ?_
  exact (qCommit_noFault ((qStage_keepsInv h hu).queues (.txq c))).map

theorem txLenStep_neverFaults (c : Chan) (b : Byte) : NeverFaults (txLenStep c b) := by
  intro s h
  unfold txLenStep
  split_ifs
  · exact noFault_next _
  · exact txComplete_noFault h le_rfl (by omega) (by simp)
  · exact noFault_next _

/-- The payload byte goes behind those staged; with the last one all are staged. -/
theorem txDataStep_noFault {idx len : Nat} {b : Byte} (h : BlockInv s) (hs : s.sess = .txData c idx len) :
    NoFault (txDataStep c idx len b s) := by
  have session := h.session
  simp only [SessionInv, hs] at session
  obtain ⟨h2, h12, hidx, hw⟩ := session
  refine (qStage_noFault (h.queues (.txq c)) (by omega)).andThen fun u hu => ?_
  have staged := qStage_keepsInv h hu
  obtain ⟨-, rfl⟩ := qStage_eq_next.mp hu
  split
  · refine txComplete_noFault staged (by omega) h12 fun i hi => ?_
    rw [setMem_queue]
    obtain hi | rfl : i < idx ∨ i = idx := by omega
    · exact keepsWritten_of_write rfl _ (hw i hi)
    · exact written_store _ _ s
  · exact noFault_next _

theorem takeInbound_noFault {use : Byte → State → Res State} (h : BlockInv s)
    (huse : ∀ b u, BlockInv u → u.sess = s.sess → NoFault (use b u)) : NoFault (takeInbound use s) := by
  unfold takeInbound
  split
  · exact noFault_refused _
  · exact (ringPop_noFault (h.rings .ringIn)).andThen fun p hp => huse p.1 p.2 (ringPop_keepsInv h hp) (ringPop_ringWrites hp).sess

/-- `DISPATCH`: the step of each session. -/
theorem execDispatch_noFault (h : BlockInv s) : NoFault (execDispatch s) := by
  unfold execDispatch
  split
  · exact popSendStep_noFault h ‹_›
  · exact takeInbound_noFault h fun b u hu _ => commandStep_neverFaults b u hu
  · exact takeInbound_noFault h fun b u hu _ => filterLoadStep_neverFaults b u hu
  · exact takeInbound_noFault h fun b u hu _ => txLenStep_neverFaults _ b u hu
  · exact takeInbound_noFault h fun b u hu hus => txDataStep_noFault hu (hus.trans ‹_›)

/-! ### The step -/

/-- None of the ten operations faults. -/
theorem exec_noFault {i : Instr} (hi : isOperation i = true) (h : BlockInv s) : NoFault (exec i s) := by
  cases i
  case tick => exact execTick_noFault
  case edge c lvl => exact edgeOp_noFault h
  case timerMatch c => exact matchOp_noFault h
  case xfer rx => exact execXfer_noFault h
  case housekeep => exact housekeepChannel_noFault.andThen fun _ _ => housekeepChannel_noFault
  case sendreq c => exact execSendreq_noFault
  case dispatch => exact execDispatch_noFault h
  case linktimeout | setinputs sw acc hp | reset => exact noFault_next _
  all_goals cases hi

theorem fetch_noFault : NoFault (fetch s) := by
  unfold fetch
  split
  · exact noFault_next _
  · split
    · split
      · exact noFault_next _
      · exact noFault_refused _
    · exact noFault_refused _

/-- Settles O7: the fetch never faults, and the operation it takes is one of the ten, on a state of the invariant. -/
theorem stepNeverFaults : Obligations.StepNeverFaults := by
  intro s f h
  refine fetch_noFault.andThen (fun o ho => ?_) f
  cases o with
  | none => exact noFault_next s
  | some p =>
    obtain ⟨rest, hd, hp⟩ := fetch_eq_some ho
    have fetched : BlockInv p.2 := hp ▸ h.congr
    exact exec_noFault (isOperation_of_decodeOp hd) fetched

end Sys2Proof.Machine
end

section
/-! PROOFS. The decoders and the encoder undo each other, in each of the three code spaces (`30_encoding.md` R98, R103, R106). -/

namespace Sys2Proof

/-! ### The fields of a tag -/

/-- The code of a channel read from a bit is that bit. -/
theorem chanBit_chanOfBit (b : Bool) : chanBit (chanOfBit b) = boolBit b := by cases b <;> rfl

/-- The code of a level read from a bit is that bit. -/
theorem levelBit_levelOfBit (b : Bool) : levelBit (levelOfBit b) = boolBit b := by cases b <;> rfl

theorem getLsbD_boolBit (b : Bool) (k : Nat) : (boolBit b).getLsbD k = (decide (k = 0) && b) := by
  cases b <;> cases k <;> simp [boolBit]

/-- A tag with one field is its fixed bits 7..1 and the field in bit 0. -/
theorem or_bit_of_upper7 {t p : Byte} (h : t &&& 0xFE#8 = p) : p ||| boolBit (t.getLsbD 0) = t := by
  subst h
  apply BitVec.eq_of_getLsbD_eq
  intro k hk
  rw [BitVec.getLsbD_or, BitVec.getLsbD_and, getLsbD_boolBit]
  interval_cases k <;> simp

/-- A tag with two fields is its fixed bits 7..2 and the fields in bits 1 and 0. -/
theorem or_bits_of_upper6 {t p : Byte} (h : t &&& 0xFC#8 = p) :
    p ||| (boolBit (t.getLsbD 1) <<< 1) ||| boolBit (t.getLsbD 0) = t := by
  subst h
  apply BitVec.eq_of_getLsbD_eq
  intro k hk
  rw [BitVec.getLsbD_or, BitVec.getLsbD_or, BitVec.getLsbD_and, BitVec.getLsbD_shiftLeft, getLsbD_boolBit, getLsbD_boolBit]
  interval_cases k <;> simp

/-! ### Operation tags (R106) -/

/-- The tag of an operation decodes to it and leaves the bytes after it: no tag begins another. -/
theorem decodeOp_append_of_encode {i : Instr} {bytes : List Byte} (rest : List Byte) (h : encode i = some (.tag bytes)) :
    decodeOp (bytes ++ rest) = .ok (i, rest) := by
  cases i
  case tick | xfer | housekeep | dispatch | linktimeout | reset => cases h; rfl
  case edge c lvl => cases h; cases c <;> cases lvl <;> rfl
  case timerMatch c | sendreq c => cases h; cases c <;> rfl
  case setinputs sw acc hp => cases h; cases acc <;> cases hp <;> rfl
  all_goals cases h

/-- Bytes that decode begin with the tag of the operation they decode to. -/
theorem exists_tag_of_decodeOp {i : Instr} {bytes rest : List Byte} (h : decodeOp bytes = .ok (i, rest)) :
    ∃ tag, encode i = some (.tag tag) ∧ bytes = tag ++ rest := by
  cases bytes with
  | nil => cases h
  | cons t after =>
    simp only [decodeOp] at h
    by_cases tick : t = 0x00#8
    · rw [if_pos tick] at h
      cases h; exact ⟨_, rfl, by rw [tick]; rfl⟩
    rw [if_neg tick] at h
    by_cases edge : t &&& 0xFC#8 = 0x10#8
    · rw [if_pos edge] at h
      cases h; exact ⟨_, rfl, by rw [chanBit_chanOfBit, levelBit_levelOfBit, or_bits_of_upper6 edge]; rfl⟩
    rw [if_neg edge] at h
    by_cases timerMatch : t &&& 0xFE#8 = 0x20#8
    · rw [if_pos timerMatch] at h
      cases h; exact ⟨_, rfl, by rw [chanBit_chanOfBit, or_bit_of_upper7 timerMatch]; rfl⟩
    rw [if_neg timerMatch] at h
    by_cases xfer : t = 0x30#8
    · rw [if_pos xfer] at h
      cases after with
      | nil => cases h
      | cons rx after => cases h; exact ⟨_, rfl, by rw [xfer]; rfl⟩
    rw [if_neg xfer] at h
    by_cases housekeep : t = 0x40#8
    · rw [if_pos housekeep] at h
      cases h; exact ⟨_, rfl, by rw [housekeep]; rfl⟩
    rw [if_neg housekeep] at h
    by_cases sendreq : t &&& 0xFE#8 = 0x50#8
    · rw [if_pos sendreq] at h
      cases h; exact ⟨_, rfl, by rw [chanBit_chanOfBit, or_bit_of_upper7 sendreq]; rfl⟩
    rw [if_neg sendreq] at h
    by_cases dispatch : t = 0x60#8
    · rw [if_pos dispatch] at h
      cases h; exact ⟨_, rfl, by rw [dispatch]; rfl⟩
    rw [if_neg dispatch] at h
    by_cases linktimeout : t = 0x70#8
    · rw [if_pos linktimeout] at h
      cases h; exact ⟨_, rfl, by rw [linktimeout]; rfl⟩
    rw [if_neg linktimeout] at h
    by_cases setinputs : t &&& 0xFC#8 = 0x80#8
    · rw [if_pos setinputs] at h
      cases after with
      | nil => cases h
      | cons sw after => cases h; exact ⟨_, rfl, by rw [or_bits_of_upper6 setinputs]; rfl⟩
    rw [if_neg setinputs] at h
    by_cases reset : t = 0xF0#8
    · rw [if_pos reset] at h
      cases h; exact ⟨_, rfl, by rw [reset]; rfl⟩
    rw [if_neg reset] at h
    cases h

/-- Every operand of an operation is well formed. -/
theorem wf_of_isOperation {i : Instr} (h : Machine.isOperation i = true) : i.wf = true := by
  cases i
  case qStage | qCommit | arm | cmdIgnored => cases h
  all_goals rfl

/-! ### Command bytes (R98, R103) -/

/-- A byte outside 0x01..0x08 is ignored. -/
theorem decodeCommand_of_not_commandByte {b : Byte} (h : isCommandByte b = false) : decodeCommand b = .cmdIgnored b := by
  unfold decodeCommand
  split_ifs with h1 h2 h3 h4 h5 h6 h7 h8
  case neg => rfl
  all_goals subst b; cases h

/-- The command of a byte has that byte as its code, and is well formed. -/
theorem encode_decodeCommand (b : Byte) : encode (decodeCommand b) = some (.command b) ∧ (decodeCommand b).wf = true := by
  unfold decodeCommand
  split_ifs with h1 h2 h3 h4 h5 h6 h7 h8
  case neg =>
    refine ⟨rfl, ?_⟩
    simp only [Instr.wf, isCommandByte, Bool.not_eq_true', Bool.and_eq_false_iff, decide_eq_false_iff_not]
    bv_omega
  all_goals subst b; exact ⟨rfl, rfl⟩

/-- The code of a well-formed command decodes to it. -/
theorem decodeCommand_of_encode {i : Instr} {b : Byte} (hw : i.wf = true) (h : encode i = some (.command b)) :
    decodeCommand b = i := by
  cases i
  case cmdIgnored v =>
    cases h
    exact decodeCommand_of_not_commandByte (by simpa [Instr.wf] using hw)
  case getSwitch | getPower | popRx0 | popRx1 | clrFilter | setFilter | tx0 | tx1 => cases h; rfl
  all_goals cases h

/-! ### Symbol labels (R106) -/

theorem decodeSymbol_of_encode {i : Instr} {c : Chan} {l : BitVec 3} (h : encode i = some (.label c l)) :
    decodeSymbol c l = .ok i := by
  cases i
  case pShort | pLong | eod | ifs | aShort | aLong | sof => cases h; rfl
  all_goals cases h

/-- The symbol of a label has that label as its code, and is well formed. -/
theorem encode_of_decodeSymbol {i : Instr} {c : Chan} {l : BitVec 3} (h : decodeSymbol c l = .ok i) :
    encode i = some (.label c l) ∧ i.wf = true := by
  unfold decodeSymbol at h
  split_ifs at h with hl hl hl hl hl hl hl
  all_goals
    subst hl
    cases h
    exact ⟨rfl, rfl⟩

/-! ### Every code -/

/-- A code of tag bytes is one complete tag. -/
theorem decode_tag_eq_ok {i : Instr} {bytes : List Byte} : decode (.tag bytes) = .ok i ↔ decodeOp bytes = .ok (i, []) := by
  simp only [decode]
  split <;> simp_all

/-- Settles O2: the code is a tag, a command byte or a label, and that space's decoder undoes the encoder. -/
theorem decodeOfEncodeIsTheInstruction : Obligations.DecodeOfEncodeIsTheInstruction := by
  intro i code hw h
  cases code with
  | tag bytes =>
    have hd := decodeOp_append_of_encode [] h
    rw [List.append_nil] at hd
    exact decode_tag_eq_ok.mpr hd
  | command b => exact congrArg Except.ok (decodeCommand_of_encode hw h)
  | label c l => exact decodeSymbol_of_encode h

/-- Settles O3: the code is a tag, a command byte or a label, and the encoder undoes that space's decoder. -/
theorem encodeOfDecodeIsTheCode : Obligations.EncodeOfDecodeIsTheCode := by
  intro i code h
  cases code with
  | tag bytes =>
    have hd := decode_tag_eq_ok.mp h
    obtain ⟨tag, he, ht⟩ := exists_tag_of_decodeOp hd
    rw [ht, List.append_nil]
    exact ⟨he, wf_of_isOperation (Machine.isOperation_of_decodeOp hd)⟩
  | command b =>
    cases h
    exact encode_decodeCommand b
  | label c l => exact encode_of_decodeSymbol h

/-- Settles O1: each word listed with an operation is the code of that operation; the two rejected words are evaluated. -/
theorem decodesTheSpecsWords : Obligations.DecodesTheSpecsWords :=
  ⟨decodeOfEncodeIsTheInstruction _ _ rfl rfl, decodeOfEncodeIsTheInstruction _ _ rfl rfl, decodeOfEncodeIsTheInstruction _ _ rfl rfl,
    decodeOfEncodeIsTheInstruction _ _ rfl rfl, decodeOfEncodeIsTheInstruction _ _ rfl rfl, decodeOfEncodeIsTheInstruction _ _ rfl rfl,
    decodeOfEncodeIsTheInstruction _ _ rfl rfl, decodeOfEncodeIsTheInstruction _ _ rfl rfl, decodeOfEncodeIsTheInstruction _ _ rfl rfl, rfl, rfl⟩

end Sys2Proof
end

section
/-! PROOFS. The line-code symbols as the `EDGE` or the `MATCH` that they are (`30_encoding.md` R90 to R93; log 11). -/

namespace Sys2Proof.Machine

variable {c : Chan} {lvl : Level} {s : State} {cls : Nat → Bool}

/-! ### A symbol that an edge ends -/

/-- A pulse that the wire carries ends with the edge to the other level. -/
theorem pulseEnds_of_carried (hb : (s.ch c).busIn = lvl) (he : cls (elapsed s c) = true) :
    pulseEnds c lvl cls s = exec (.edge c (otherLevel lvl)) s := if_pos ⟨hb, he⟩

/-- A pulse of another level or of another width is not on the wire. -/
theorem pulseEnds_of_absent (h : (s.ch c).busIn ≠ lvl ∨ cls (elapsed s c) = false) :
    pulseEnds c lvl cls s = .refused .symbolAbsent := by
  refine if_neg fun ⟨hb, he⟩ => ?_
  rcases h with h | h
  · exact h hb
  · rw [he] at h; cases h

/-- The test of a width class (`00_scope.md` R7), tied to `ofClass` by `widthTest_eq_true`. -/
def widthTest (t : Timing) : PulseWidth → Nat → Bool
  | .short => t.isShort
  | .long => t.isLong

theorem widthTest_eq_true {t : Timing} {w : PulseWidth} {e : Nat} : widthTest t w e = true ↔ ofClass t w e := by
  cases w <;> simp [widthTest, Timing.isShort, Timing.isLong, ofClass]

theorem isSof_eq_true {t : Timing} {e : Nat} : t.isSof e = true ↔ t.rxSofMin ≤ e ∧ e < t.rxSofMax := by
  simp [Timing.isSof]

theorem isSof_eq_false {t : Timing} {e : Nat} : t.isSof e = false ↔ e < t.rxSofMin ∨ t.rxSofMax ≤ e := by
  rw [← Bool.not_eq_true, isSof_eq_true]
  omega

/-- A data symbol is the end of a pulse of its level and its width. -/
theorem exec_dataSymbol (c : Chan) (lvl : Level) (w : PulseWidth) (s : State) :
    exec (dataSymbol c lvl w) s = pulseEnds c lvl (widthTest s.cfg.timing w) s := by
  cases lvl <;> cases w <;> rfl

theorem exec_sof (c : Chan) (s : State) : exec (.sof c) s = pulseEnds c .active s.cfg.timing.isSof s := rfl

/-- Settles O36: the wire carries the symbol's pulse, or it does not. -/
theorem dataSymbolsAreTheEdgesThatEndThem : Obligations.DataSymbolsAreTheEdgesThatEndThem := by
  intro c lvl w s
  rw [exec_dataSymbol]
  refine ⟨fun hb he => pulseEnds_of_carried hb (widthTest_eq_true.mpr he), fun h => pulseEnds_of_absent (h.imp_right fun he => ?_)⟩
  rwa [← Bool.not_eq_true, widthTest_eq_true]

/-! ### The silences -/

/-- A silence is absent on an Active bus. -/
theorem exec_eod_of_active (hb : (s.ch c).busIn = .active) : exec (.eod c) s = .refused .symbolAbsent := by
  show execEod c s = _
  simp [execEod, hb]

theorem exec_ifs_of_active (hb : (s.ch c).busIn = .active) : exec (.ifs c) s = .refused .symbolAbsent := by
  show execIfs c s = _
  simp [execIfs, hb]

/-- `EOD` in `Receiving` is the match. -/
theorem exec_eod_of_receiving (hb : (s.ch c).busIn = .passive) (hst : (s.ch c).st = .receiving) :
    exec (.eod c) s = exec (.timerMatch c) s := by
  show execEod c s = matchOp c s
  simp [execEod, hb, hst]

/-- `EOD` is no event outside `Receiving` (`43_vpw_receiver.md` R177). -/
theorem exec_eod_of_not_receiving (hb : (s.ch c).busIn = .passive) (hst : (s.ch c).st ≠ .receiving) : exec (.eod c) s = .next s := by
  show execEod c s = _
  rw [execEod, if_pos hb]
  split
  · exact absurd ‹_› hst
  all_goals rfl

/-- `IFS` of a channel that waits to send is the match. -/
theorem exec_ifs_of_waiting (hb : (s.ch c).busIn = .passive) (hst : (s.ch c).st = .txArmed ∨ (s.ch c).st = .txWaitIfs) :
    exec (.ifs c) s = exec (.timerMatch c) s := by
  show execIfs c s = matchOp c s
  rcases hst with hst | hst <;> simp [execIfs, hb, hst]

/-- `IFS` is no event of a channel that does not wait to send. -/
theorem exec_ifs_of_not_waiting (hb : (s.ch c).busIn = .passive) (ha : (s.ch c).st ≠ .txArmed) (hw : (s.ch c).st ≠ .txWaitIfs) :
    exec (.ifs c) s = .next s := by
  show execIfs c s = _
  rw [execIfs, if_pos hb]
  split
  · exact absurd ‹_› ha
  · exact absurd ‹_› hw
  all_goals rfl

/-! ### The match of a silence -/

/-- `MATCH` is refused when none is pending (`60_exceptions.md` R288). -/
theorem exec_match_of_not_pending (hp : (s.ch c).matchPend = false) : exec (.timerMatch c) s = .refused .matchNotEnabled := by
  show matchOp c s = _
  simp [matchOp, matchEnabled, hp]

/-- A deadline as the sum of the counter's value and a width, modulo 256 (`60_exceptions.md` R286). -/
theorem add_ofNat_eq (b : Byte) (w : Nat) : b + BitVec.ofNat 8 w = BitVec.ofNat 8 (b.toNat + w) := by
  rw [BitVec.ofNat_add, BitVec.ofNat_toNat, BitVec.setWidth_eq]

/-- The SOF has a width that can be armed (`00_scope.md` R8). -/
theorem Timing.wf_txSof_arm {t : Timing} (h : t.wf = true) : 1 ≤ t.txSof ∧ t.txSof ≤ 255 := by
  simp only [Timing.wf, Timing.isSof, Bool.and_eq_true, decide_eq_true_eq] at h
  omega

/-- `MATCH` of a channel that waits to send, on a Passive bus: the SOF is driven (`44_vpw_transmitter.md` R194). -/
theorem exec_match_waiting_passive (hw : s.cfg.wf = true) (hb : (s.ch c).busIn = .passive) (hp : (s.ch c).matchPend = true)
    (hst : (s.ch c).st = .txArmed ∨ (s.ch c).st = .txWaitIfs) :
    exec (.timerMatch c) s = .next (s.setCh c { s.ch c with
      st := .txSending, drive := .active, rxEn := false
      ocr := s.tcnt + BitVec.ofNat 8 s.cfg.timing.txSof, matchEn := true, matchPend := false }) := by
  have arm := Timing.wf_txSof_arm (Config.wf_timing hw)
  have waiting : exec (.timerMatch c) s = matchWaiting c (disarmUnit c s) := by
    show matchOp c s = _
    rcases hst with hst | hst <;> simp [matchOp, matchEnabled, hp, hst]
  rw [waiting]
  simp [matchWaiting, hb, armUnit, arm]

/-- Settles O37: `SOF` is the edge that ends it or is absent; a silence is the match of its channel, no event, or absent. -/
theorem boundarySymbolsAreTheEventsOfTheWire : Obligations.BoundarySymbolsAreTheEventsOfTheWire := by
  intro c s hw
  rw [exec_sof]
  refine ⟨fun hb h1 h2 => pulseEnds_of_carried hb (isSof_eq_true.mpr ⟨h1, h2⟩), fun hb hst h1 h2 => ?_, fun h => ?_,
    fun hb hp hst => ?_, fun hb hp hst => ?_, fun hb hp hst => ?_, exec_eod_of_not_receiving, exec_ifs_of_not_waiting,
    fun hb => ⟨exec_eod_of_active hb, exec_ifs_of_active hb⟩⟩
  · have he := isSof_eq_true.mpr ⟨h1, h2⟩
    rw [pulseEnds_of_carried hb he, ← add_ofNat_eq]
    exact exec_edge_sof hw hst hb he
  · refine pulseEnds_of_absent (h.imp (fun hb => ?_) isSof_eq_false.mpr)
    rw [hb]; decide
  · rw [exec_ifs_of_waiting hb hst, ← add_ofNat_eq]
    exact exec_match_waiting_passive hw hb hp hst
  · rw [exec_eod_of_receiving hb hst]
    exact exec_match_of_not_pending hp
  · rw [exec_ifs_of_waiting hb hst]
    exact exec_match_of_not_pending hp

end Sys2Proof.Machine
end

section
/-! PROOFS. The CRC engine: its register as the remainder of a polynomial division, and its primitives (`40_crc.md` R120 to R126). -/

namespace Sys2Proof.Machine

/-! ### One step of the register -/

/-- What the shifted register is XORed with: the generator `0x1D` when a set bit falls out at the top (`40_crc.md` R126). The two steps of the
register are tied to it by `crcBitStep_eq` and `crcShift_eq`. -/
def crcFeedback (out : Bool) : Byte := if out then 0x1D#8 else 0x00#8

/-- The bit that the shift leaves clear is set by an XOR as by an OR. -/
theorem shiftLeft_one_or_one (r : Byte) : (r <<< 1) ||| 0x01#8 = (r <<< 1) ^^^ 0x01#8 := by
  refine BitVec.eq_of_getLsbD_eq fun i _ => ?_
  cases i <;> simp

/-- The four cases of R121 are one: the bit that falls out is the XOR of the incoming bit and the top bit. -/
theorem crcBitStep_eq (r : Byte) (b : Bool) : crcBitStep r b = (r <<< 1) ^^^ crcFeedback (r.getLsbD 7 ^^ b) := by
  unfold crcBitStep crcFeedback
  rw [shiftLeft_one_or_one]
  cases b <;> cases r.getLsbD 7 <;> simp [BitVec.xor_assoc]

theorem crcShift_eq (r : Byte) : crcShift r = (r <<< 1) ^^^ crcFeedback (r.getLsbD 7) := by
  unfold crcShift crcFeedback
  cases r.getLsbD 7 <;> simp

/-! ### The bit-serial and the byte-wise form -/

/-- A byte XORed in ahead of the shift gives its top bit to the step; its other bits move up by one. -/
theorem crcShift_xor (r y : Byte) : crcShift (r ^^^ y) = crcBitStep r (y.getLsbD 7) ^^^ (y <<< 1) := by
  rw [crcShift_eq, crcBitStep_eq, BitVec.getLsbD_xor, BitVec.shiftLeft_xor_distrib, BitVec.xor_assoc, BitVec.xor_assoc,
    BitVec.xor_comm (y <<< 1)]

/-- The low `n` bits of `x`, fed one by one, are those bits XORed in at the top ahead of `n` shifts. -/
theorem crcBits_eq_iterate (x : Byte) {n : Nat} (hn : n ≤ 8) (r : Byte) : crcBits x n r = crcShift^[n] (r ^^^ (x <<< (8 - n))) := by
  induction n generalizing r with
  | zero => simp [crcBits]
  | succ n ih =>
    have top : (x <<< (8 - (n + 1))).getLsbD 7 = x.getLsbD n := by
      rw [BitVec.getLsbD_shiftLeft, show 7 - (8 - (n + 1)) = n by omega]
      simp
    have rest : x <<< (8 - (n + 1)) <<< 1 = x <<< (8 - n) := by
      rw [← BitVec.shiftLeft_add, show 8 - (n + 1) + 1 = 8 - n by omega]
    calc crcBits x (n + 1) r
        = crcShift^[n] (crcBitStep r (x.getLsbD n) ^^^ (x <<< (8 - n))) := ih (by omega) _
      _ = crcShift^[n] (crcShift (r ^^^ (x <<< (8 - (n + 1))))) := by rw [crcShift_xor, top, rest]
      _ = crcShift^[n + 1] (r ^^^ (x <<< (8 - (n + 1)))) := (Function.iterate_succ_apply _ _ _).symm

theorem crcByteStep_eq_iterate (r x : Byte) : crcByteStep r x = crcShift^[8] (r ^^^ x) := by
  rw [crcByteStep, crcBits_eq_iterate x (Nat.le_refl 8), Nat.sub_self, BitVec.shiftLeft_zero]

/-! ### The residue -/

/-- A register that takes in its own complement ends in the residue: the XOR of the two is `0xFF`, whatever the register was. -/
theorem crcByteStep_crcFinish (r : Byte) : crcByteStep r (crcFinish r) = 0xC4#8 := by
  have ones : r ^^^ ~~~r = 0xFF#8 := by simp [BitVec.not_def]
  rw [crcByteStep_eq_iterate, crcFinish, ones]
  decide

theorem crcRegister_append_crc8 (data : List Byte) : crcRegister (data ++ [crc8 data]) = 0xC4#8 := by
  rw [crcRegister, List.foldl_append]
  exact crcByteStep_crcFinish (crcRegister data)

/-- Settles O39: each incoming bit is the top bit of what the byte-wise form shifts, and a frame's CRC byte is the complement of the register that
takes it in. -/
theorem crcIsByteWiseAndHasAResidue : Obligations.CrcIsByteWiseAndHasAResidue := by
  refine ⟨crcByteStep_eq_iterate, fun data => ⟨crcRegister_append_crc8 data, ?_⟩⟩
  rw [crc8, crcRegister_append_crc8]
  decide

/-! ### The primitives -/

theorem crcBitStep_eq_crcCase (r : Byte) (b : Bool) : crcBitStep r b = crcCase r b (r.getLsbD 7) := by
  unfold crcBitStep
  cases b <;> cases r.getLsbD 7 <;> rfl

/-- `CRC_BYTE` feeds the bits of the byte in wire order (`40_crc.md` R122). -/
theorem crcByteStep_eq_foldl (r x : Byte) : crcByteStep r x = (byteBits x).foldl crcBitStep r := rfl

/-- A byte sequence into the register is its bits in wire order. -/
theorem foldl_crcByteStep (xs : List Byte) (r : Byte) :
    xs.foldl crcByteStep r = (wireBits xs).foldl (fun r b => crcCase r b (r.getLsbD 7)) r := by
  simp only [← crcBitStep_eq_crcCase]
  induction xs generalizing r with
  | nil => rfl
  | cons x xs ih => rw [List.foldl_cons, ih, wireBits_cons, List.foldl_append, crcByteStep_eq_foldl]

/-- Settles O38: a bit by the four cases of R121; a byte and a byte sequence as their bits in wire order. -/
theorem crcPrimitivesReturnTheRegister : Obligations.CrcPrimitivesReturnTheRegister := by
  intro crc x b bytes s
  refine ⟨rfl, ?_, ?_, rfl, ?_⟩
  · rw [← crcBitStep_eq_crcCase]; rfl
  · rw [← foldl_crcByteStep [x]]; rfl
  · rw [← foldl_crcByteStep bytes]; rfl

end Sys2Proof.Machine
end

section
/-! PROOFS. The frame queues: their predicates, and what staging, commit and release do to the buffered frames (`41_frame_queue.md` R130 to R138). -/

namespace Sys2Proof.Machine

/-! ### The circular buffer (R130 to R132, R138) -/

section

variable {n : Nat} {p : Ptrs}

theorem count_eq_zero_iff (hs : p.start < n) (he : p.stop < n) : p.count n = 0 ↔ p.isEmpty = true := by
  rw [count_of_lt hs he, isEmpty_eq_true]
  split <;> omega

theorem count_lt (hs : p.start < n) : p.count n < n := Nat.mod_lt _ (by omega)

/-- The last count below the size is reached when `start` is the place after `end`. -/
theorem count_eq_pred_iff (hs : p.start < n) (he : p.stop < n) : p.count n = n - 1 ↔ p.isFull n = true := by
  rw [count_of_lt hs he, isFull_eq_true, nextIndex_of_lt he]
  split <;> split <;> omega

/-- Settles O44: the count is a remainder of the size, so `N` itself is out of its reach. -/
theorem capacityIsOneLessThanTheSize : Obligations.CapacityIsOneLessThanTheSize := fun _ _ _ hs he =>
  ⟨Nat.le_sub_one_of_lt (count_lt hs), (count_eq_zero_iff hs he).symm, (count_eq_pred_iff hs he).symm⟩

end

variable {s t : State} {q r : QueueId}

theorem queueFull_eq_true : queueFull q s = true ↔ ((s.queue q).stop + 1) % queueSize s.cfg q = (s.queue q).start := isFull_eq_true

theorem queueFull_eq_false : queueFull q s = false ↔ ((s.queue q).stop + 1) % queueSize s.cfg q ≠ (s.queue q).start := isFull_eq_false

/-- Settles O40: the two predicates are tests of the pointers, and only the returned value changes. -/
theorem queuePredicatesReadThePointers : Obligations.QueuePredicatesReadThePointers := fun _ _ => ⟨rfl, rfl⟩

/-! ### What leaves the buffered frames alone -/

/-- The frames of a queue are read from its pointers and the storage alone. -/
theorem queueFrames_of_mem (hp : t.queue r = s.queue r) (hc : t.cfg = s.cfg) (hm : t.mem = s.mem) : queueFrames r t = queueFrames r s := by
  have slot : ∀ k, slotFrame r k t = slotFrame r k s := fun k =>
    slotFrame_congr (cellValue_of_mem hm) fun _ _ _ _ => cellValue_of_mem hm
  simp only [queueFrames, queueCount, hp, hc, slot]

@[simp] theorem queueFrames_setResult (r : QueueId) (s : State) (v : Result) : queueFrames r (s.setResult v) = queueFrames r s :=
  queueFrames_of_mem (setResult_queue s v r) rfl rfl

@[simp] theorem queueFrames_raiseFault (r : QueueId) (s : State) (e : Raised) : queueFrames r (raiseFault e s) = queueFrames r s :=
  queueFrames_of_mem (raiseFault_queue s e r) rfl rfl

theorem queueFrames_setQueue_other (h : r ≠ q) (s : State) (p : Ptrs) : queueFrames r (s.setQueue q p) = queueFrames r s :=
  queueFrames_of_mem (by rw [setQueue_queue, if_neg h]) (setQueue_cfg s q p) (setQueue_mem s q p)

/-- The cell is the length or a byte of the slot `k` of queue `q`. -/
def InSlot (q : QueueId) (k : Nat) (x : CellId) : Prop := x = .len q k ∨ ∃ i, x = .data q k i

/-- Two slots share no cell. -/
theorem InSlot.unique {k j : Nat} {x : CellId} (hq : InSlot q k x) (hr : InSlot r j x) : q = r ∧ k = j := by
  rcases hq with rfl | ⟨i, rfl⟩ <;> rcases hr with h | ⟨_, h⟩ <;> cases h <;> exact ⟨rfl, rfl⟩

/-- A store into the slot at `end` of any queue is invisible: no buffered frame of any queue lies there (R133). -/
theorem queueFrames_store_at_end {x : CellId} {v : Byte} (hQ : QueueInv r s) (hx : cellExists s.cfg x = true)
    (hslot : InSlot q (s.queue q).stop x) : queueFrames r (s.setMem (s.mem.write (cellKey x) v)) = queueFrames r s := by
  refine queueFrames_congr hQ.start_lt hQ.stop_lt (setMem_queue _ _ _) rfl fun k hk held => ?_
  have kept : ∀ y, cellExists s.cfg y = true → InSlot r k y →
      cellValue y (s.setMem (s.mem.write (cellKey x) v)) = cellValue y s := fun y hy hin => by
    rw [cellValue_store hx hy, if_neg]
    rintro rfl
    obtain ⟨rfl, rfl⟩ := hslot.unique hin
    exact not_holds_stop _ held
  obtain ⟨w, hw, -, w_le, -⟩ := hQ.frames k hk held
  refine slotFrame_congr (kept _ (cellExists_len hk) (.inl rfl)) fun w' hw' i hi => ?_
  obtain rfl : w = w' := Option.some.inj (hw.symm.trans hw')
  exact kept _ (cellExists_data hk (by omega)) (.inr ⟨i, rfl⟩)

/-! ### `Q_STAGE` (R133) -/

/-- Settles O41: the byte goes into the slot at `end`, which holds no buffered frame. -/
theorem stagingIsInvisible : Obligations.StagingIsInvisible := by
  intro q i v s hQ hi
  have cell : cellExists s.cfg (.data q (s.queue q).stop i) = true := cellExists_data (hQ q).stop_lt (by omega)
  refine ⟨_, qStage_eq_next.mpr ⟨cell, rfl⟩, rfl, ?_, fun r => queueFrames_store_at_end (hQ r) cell (.inr ⟨i, rfl⟩)⟩
  rw [cellValue_store cell cell, if_pos rfl]

/-! ### `Q_COMMIT` (R134, R137) -/

theorem exec_qCommit {n : Nat} {ok : Bool} (h : qCommit q n s = .next (ok, t)) : exec (.qCommit q n) s = .next (t.setResult (.commit ok)) := by
  show (qCommit q n s).andThen _ = _
  rw [h, andThen_next]

/-- A commit changes the frames of its own queue only. -/
theorem qCommit_frames_other {n : Nat} {ok : Bool} (h : qCommit q n s = .next (ok, t)) (hQ : QueueInv r s) (hr : r ≠ q) :
    queueFrames r t = queueFrames r s := by
  obtain ⟨-, ⟨-, -, rfl⟩ | ⟨-, -, cell, rfl⟩⟩ := qCommit_eq_next.mp h
  · exact queueFrames_raiseFault r s _
  · rw [queueFrames_setQueue_other hr, queueFrames_store_at_end hQ cell (.inl rfl)]

theorem setQueue_setResult (s : State) (q : QueueId) (p : Ptrs) (v : Result) : (s.setQueue q p).setResult v = (s.setResult v).setQueue q p := by
  cases q <;> rfl

/-- Settles O42: the commit of what is staged since the state itself. -/
theorem commitAppendsTheFrameOrDropsIt : Obligations.CommitAppendsTheFrameOrDropsIt := by
  intro q s xs hQ h1 h12 _ hslot
  have staged : StagedSince q s xs s := ⟨rfl, rfl, hslot, fun _ _ _ => rfl⟩
  obtain ⟨⟨ok, t⟩, run, -, frames⟩ := staged.commit (hQ q) ⟨h1, h12⟩
  refine ⟨_, exec_qCommit run, by rw [queueFrames_setResult, frames],
    fun r hr => by rw [queueFrames_setResult, qCommit_frames_other run (hQ r) hr], ?_⟩
  obtain ⟨-, ⟨full, rfl, rfl⟩ | ⟨room, rfl, -, rfl⟩⟩ := qCommit_eq_next.mp run
  · rw [if_pos (queueFull_eq_true.mp full)]
    rfl
  · rw [if_neg (queueFull_eq_false.mp room)]
    exact setQueue_setResult _ _ _ _

/-! ### `Q_HEAD` and `Q_RELEASE` (R135, R136) -/

theorem qHead_of_empty (he : queueEmpty q s = true) : qHead q s = .refused .emptyQueue := if_pos he

theorem qRelease_of_empty (he : queueEmpty q s = true) : qRelease q s = .refused .emptyQueue := if_pos he

theorem exec_qHead (q : QueueId) (s : State) : exec (.qHead q) s = (qHead q s).andThen fun a => .next (s.setResult (.frame a.1 a.2)) := rfl

/-- The head of a queue that holds a frame is the frame of the slot at `start`. -/
theorem QueueInv.qHead_eq (hQ : QueueInv q s) (hne : queueEmpty q s = false) :
    ∃ xs, slotFrame q (s.queue q).start s = some xs ∧ qHead q s = .next (xs.length, xs) := by
  obtain ⟨v, hv, -, v_le, hw⟩ := hQ.frames _ hQ.start_lt (holds_start hne)
  obtain ⟨xs, hxs⟩ := readData_of_written hQ.start_lt v_le hw
  obtain ⟨len, get⟩ := readData_eq_next hxs
  refine ⟨xs, slotFrame_of_cells ?_ (by omega) fun i hi => (get i (by omega)).1.symm,
    qHead_eq_next.mpr ⟨hne, readLen_eq_next.mpr ⟨cellExists_len hQ.start_lt, v, hv, len⟩, by rwa [len]⟩⟩
  rw [hv, len, BitVec.ofNat_toNat, BitVec.setWidth_eq]

/-- Settles O43: head and release both go by the slot at `start`, which holds the oldest frame. -/
theorem headAndReleaseServeTheOldestFrame : Obligations.HeadAndReleaseServeTheOldestFrame := by
  intro q s hQ
  refine ⟨fun he => ⟨by rw [exec_qHead, qHead_of_empty he, andThen_refused], qRelease_of_empty he⟩, fun hne => ?_⟩
  obtain ⟨xs, oldest, head⟩ := (hQ q).qHead_eq hne
  obtain ⟨tail, first⟩ := queueFrames_pop (hQ q).start_lt (hQ q).stop_lt hne (setQueue_cfg s q _) (setQueue_mem s q _)
    (setQueue_queue_same s q _)
  exact ⟨⟨xs, by rw [first, oldest], by rw [exec_qHead, head]; rfl⟩,
    _, qRelease_eq_next.mpr ⟨hne, rfl⟩, tail, fun r hr => queueFrames_setQueue_other hr s _, rfl⟩

end Sys2Proof.Machine
end

section
/-! PROOFS. The header filter: its test of a byte by the entries, its staged list after an append, and its primitives (`42_header_filter.md` R150 to R154). -/

namespace Sys2Proof.Machine

/-- The test of the active list as R150 writes it, by the length and the entries. -/
theorem filterMatches_eq_decide (b : Byte) (s : State) :
    filterMatches b s = decide (s.filtActive.length = 0 ∨ ∃ k, ∃ h : k < s.filtActive.length, s.filtActive[k] = b) := by
  rw [Bool.eq_iff_iff, filterMatches_eq_true, decide_eq_true_eq, List.length_eq_zero_iff, List.mem_iff_getElem]

/-- An append writes the staged list and nothing else, whether or not there is room (R153). -/
theorem filterAppend_eq (b : Byte) (s : State) :
    filterAppend b s = { s with filtStage := if s.filtStage.length < s.cfg.filterMax then s.filtStage ++ [b] else s.filtStage } := by
  unfold filterAppend
  split <;> rfl

theorem exec_filterMatch (b : Byte) (s : State) : exec (.filterMatch b) s = .next (s.setResult (.flag (filterMatches b s))) := rfl

theorem exec_filterAppend (b : Byte) (s : State) : exec (.filterAppend b) s = .next (filterAppend b s) := rfl

/-- Settles O45: the match and the append by their lemmas; the other three primitives are single assignments of the lists. -/
theorem filterPrimitivesDoAsStated : Obligations.FilterPrimitivesDoAsStated := by
  intro b s
  refine ⟨?filterMatch, ?filterClear, ?filterBegin, ?filterAppend, ?filterCommit⟩
  case filterMatch => rw [exec_filterMatch, filterMatches_eq_decide, State.setResult]
  case filterAppend => rw [exec_filterAppend, filterAppend_eq]
  case filterClear | filterBegin | filterCommit => rfl

end Sys2Proof.Machine
end

section
/-! PROOFS. The receiver: what an edge and the end of data do in each of its states (`43_vpw_receiver.md` R160 to R175). -/

namespace Sys2Proof.Machine

variable {c : Chan} {lvl : Level} {s : State} {q : QueueId} {n : Nat}

/-! ### End of data (R171 to R175) -/

/-- A commit to a full queue drops the frame and leaves the overflow in the ghost log (`41_frame_queue.md` R134). -/
theorem qCommit_of_full (hn : 1 ≤ n ∧ n ≤ 12) (hf : queueFull q s = true) :
    qCommit q n s = .next (false, raiseFault (.queueOverflow q) s) :=
  qCommit_eq_next.mpr ⟨hn, .inl ⟨hf, rfl, rfl⟩⟩

/-- A commit to a receive queue with room writes the length of the slot at `end` and advances `end` (`41_frame_queue.md` R134). -/
theorem qCommit_rxq_of_room (hn : 1 ≤ n ∧ n ≤ 12) (hf : queueFull (.rxq c) s = false) (hq : (s.ch c).rxq.stop < s.cfg.rxqSlots) :
    qCommit (.rxq c) n s = .next (true,
      (s.setMem (s.mem.write (cellKey (.len (.rxq c) (s.ch c).rxq.stop)) (BitVec.ofNat 8 n))).setCh c
        { s.ch c with rxq := { (s.ch c).rxq with stop := nextIndex s.cfg.rxqSlots (s.ch c).rxq.stop } }) :=
  qCommit_eq_next.mpr ⟨hn, .inr ⟨hf, rfl, cellExists_len hq, by simp [queueSize]⟩⟩

theorem queueFull_atRest : queueFull (.rxq c) (atRest c s) = queueFull (.rxq c) s := by
  simp [queueFull, atRest]

/-- The commit of a frame at the end of data, on a full queue and on one with room (R175). -/
theorem commit_atRest (hn : 1 ≤ n ∧ n ≤ 12) (hq : (s.ch c).rxq.stop < s.cfg.rxqSlots) :
    (qCommit (.rxq c) n (atRest c s)).andThen (fun r => .next r.2) = .next
      (if ((s.ch c).rxq.stop + 1) % s.cfg.rxqSlots = (s.ch c).rxq.start then
        { atRest c s with raised := .queueOverflow (.rxq c) :: s.raised }
      else
        ((atRest c s).setMem (s.mem.write (cellKey (.len (.rxq c) (s.ch c).rxq.stop)) (BitVec.ofNat 8 n))).setCh c
          { s.ch c with
            st := .idle, matchEn := false, matchPend := false
            rxq := { (s.ch c).rxq with stop := ((s.ch c).rxq.stop + 1) % s.cfg.rxqSlots } }) := by
  split
  · rename_i full
    rw [qCommit_of_full hn (queueFull_atRest.trans (queueFull_eq_true.mpr full))]
    rfl
  · rename_i room
    rw [qCommit_rxq_of_room hn (queueFull_atRest.trans (queueFull_eq_false.mpr room)) (by simpa [atRest] using hq)]
    simp [atRest, nextIndex]

/-- Settles O25: the symbol `EOD` is the match, which drops the frame or commits it. -/
theorem endOfDataFinalisesTheFrame : Obligations.EndOfDataFinalisesTheFrame := by
  intro c i s xs hi hp hst hn hx hq hslot
  have isMatch : exec i s = exec (.timerMatch c) s := by
    rcases hi with rfl | ⟨rfl, hb⟩
    · rfl
    · exact exec_eod_of_receiving hb hst
  obtain ⟨drop, keep⟩ := exec_match_receiving hp hst hn.symm hx hq hslot
  refine ⟨_, atRest c s, rfl, rfl, isMatch.trans ?_⟩
  split
  · rename_i hd
    exact drop hd
  · rename_i hd
    have pos : 1 ≤ xs.length := List.length_pos_iff.mpr fun hnil => hd (.inl hnil)
    rw [keep hd, commit_atRest ⟨pos, hx⟩ hq]

/-! ### The arm of `EDGE` in each state of the receiver (R160) -/

theorem edgeEnabled_of_ne (hb : (s.ch c).busIn ≠ lvl) : edgeEnabled c lvl s = true := decide_eq_true hb.symm

theorem exec_edge_of_idle (hb : (s.ch c).busIn ≠ lvl) (hst : (s.ch c).st = .idle) :
    exec (.edge c lvl) s = edgeIdle c lvl (stampEdge c lvl s) := by
  show edgeOp c lvl s = _
  rw [edgeOp, if_pos (edgeEnabled_of_ne hb), hst]

theorem exec_edge_of_sofWait (hb : (s.ch c).busIn ≠ lvl) (hst : (s.ch c).st = .sofWait) :
    exec (.edge c lvl) s = edgeSofWait c lvl (elapsed s c) (stampEdge c lvl s) := by
  show edgeOp c lvl s = _
  rw [edgeOp, if_pos (edgeEnabled_of_ne hb), hst]

theorem exec_edge_of_receiving (hb : (s.ch c).busIn ≠ lvl) (hst : (s.ch c).st = .receiving) :
    exec (.edge c lvl) s = edgeReceiving c lvl (elapsed s c) (stampEdge c lvl s) := by
  show edgeOp c lvl s = _
  rw [edgeOp, if_pos (edgeEnabled_of_ne hb), hst]

/-- The abort of a reception at an edge: the edge is stamped, the fault recorded, the channel idle and disarmed (R170). -/
theorem rxAbort_raiseFault_stampEdge (c : Chan) (lvl : Level) (e : Raised) (s : State) :
    rxAbort c (raiseFault e (stampEdge c lvl s)) =
      ({ s with raised := e :: s.raised } : State).setCh c { s.ch c with
        busIn := lvl, lastEdge := s.tcnt, st := .idle, matchEn := false, matchPend := false } := by
  simp only [rxAbort_eq, stampEdge, raiseFault_setCh, setCh_ch_same, setCh_setCh]
  rfl

/-- The level an edge leaves is the other one. -/
theorem eq_otherLevel_of_ne {old new : Level} (h : old ≠ new) : otherLevel new = old := by
  revert h
  cases old <;> cases new <;> decide

/-! ### `Idle` and `SofWait` (R161, R162) -/

/-- Settles O20: the edge starts the SOF wait, or is stamped only. -/
theorem edgeInIdleStartsTheSofWait : Obligations.EdgeInIdleStartsTheSofWait := by
  intro c lvl s hb hst
  rw [exec_edge_of_idle hb hst]
  by_cases h : lvl = .active ∧ (s.ch c).rxEn = true
  · rw [edgeIdle, if_pos (by simpa [stampEdge] using h), if_pos h]
    simp [stampEdge]
  · rw [edgeIdle, if_neg (by simpa [stampEdge] using h), if_neg h, stampEdge, ← hst]

/-- Settles O21: the edge ends a SOF, or is a timing fault. -/
theorem edgeInSofWaitQualifiesTheSof : Obligations.EdgeInSofWaitQualifiesTheSof := by
  intro c lvl s hw hb hst
  refine ⟨fun ⟨hl, hsof⟩ => ?_, fun h => ?_⟩
  · subst hl
    have active : (s.ch c).busIn = .active := (eq_otherLevel_of_ne hb).symm
    rw [← add_ofNat_eq]
    exact exec_edge_sof hw hst active (isSof_eq_true.mpr hsof)
  · have fault : edgeSofWait c lvl (elapsed s c) (stampEdge c lvl s) = timingFault c (stampEdge c lvl s) :=
      if_neg fun ⟨hl, hsof⟩ => h ⟨hl, isSof_eq_true.mp hsof⟩
    rw [exec_edge_of_sofWait hb hst, fault, timingFault, rxAbort_raiseFault_stampEdge]

/-! ### `Receiving` (R163 to R170) -/

theorem classify_eq_some {t : Timing} {e : Nat} {w : PulseWidth} : classify t e = some w ↔ ofClass t w e := by
  simp only [classify, Timing.isShort, Timing.isLong, ofClass, Bool.and_eq_true, decide_eq_true_eq]
  split
  · cases w <;> simp <;> omega
  · split <;> cases w <;> simp <;> omega

theorem classify_eq_none {t : Timing} {e : Nat} : classify t e = none ↔ ∀ w, ¬ ofClass t w e := by
  simp only [Option.eq_none_iff_forall_ne_some, ne_eq, classify_eq_some]

/-- A long Passive or a short Active pulse is a one (R164). -/
theorem dataBit_eq (lvl : Level) (w : PulseWidth) : dataBit lvl w = decide (lvl = .passive ↔ w = .long) := by
  cases lvl <;> cases w <;> rfl

theorem shiftIn_decide (sh : Byte) (p : Prop) [Decidable p] : shiftIn sh (decide p) = (sh <<< 1) ||| (if p then 1#8 else 0#8) := by
  simp only [shiftIn, decide_eq_true_eq]

/-- A data pulse, as the `EDGE` that ends it or as its symbol, is the bit of its level and width (R163, R164; log 11). -/
theorem exec_dataPulse {w : PulseWidth} {i : Instr} (hb : (s.ch c).busIn ≠ lvl) (hst : (s.ch c).st = .receiving)
    (hc : ofClass s.cfg.timing w (elapsed s c)) (h12 : (s.ch c).byteIdx ≠ 12) (hi : i = .edge c lvl ∨ i = dataSymbol c (s.ch c).busIn w) :
    exec i s = appendBit c (decide ((s.ch c).busIn = .passive ↔ w = .long)) (stampEdge c lvl s) := by
  have level : otherLevel lvl = (s.ch c).busIn := eq_otherLevel_of_ne hb
  have isEdge : exec i s = exec (.edge c lvl) s := by
    rcases hi with rfl | rfl
    · rfl
    · rw [exec_dataSymbol, pulseEnds_of_carried rfl (widthTest_eq_true.mpr hc), ← level, otherLevel_otherLevel]
  have cls : classify (stampEdge c lvl s).cfg.timing (elapsed s c) = some w := classify_eq_some.mpr hc
  have room : ((stampEdge c lvl s).ch c).byteIdx ≠ 12 := by simpa [stampEdge] using h12
  rw [isEdge, exec_edge_of_receiving hb hst, edgeReceiving, cls]
  simp only [if_neg room, level, dataBit_eq]

/-- Settles O22: the bit goes into the register, not into a byte of the slot. -/
theorem edgeInReceivingAppendsABit : Obligations.EdgeInReceivingAppendsABit := by
  intro c lvl w i s hw hb hst hc h12 h7 hi
  rw [exec_dataPulse hb hst hc h12 hi, appendBit_bit (s := stampEdge c lvl s) hw (by simpa [stampEdge] using h7), shiftIn_decide, add_ofNat_eq]
  simp [stampEdge]

/-- Settles O23: with its eighth bit the register is stored as the byte at the cursor. -/
theorem eighthBitStoresTheByte : Obligations.EighthBitStoresTheByte := by
  intro c lvl w i s hw hb hst hc h12 h7 hq hi
  refine ⟨_, rfl, ?_⟩
  rw [exec_dataPulse hb hst hc (by omega) hi, appendBit_byte (s := stampEdge c lvl s) hw (by simpa [stampEdge] using h7)
    (by simpa [stampEdge] using h12) (by simpa [stampEdge] using hq), shiftIn_decide, add_ofNat_eq]
  simp [stampEdge]

/-- Settles O24: a width of neither class, or a bit with no byte left for it. -/
theorem edgeInReceivingAborts : Obligations.EdgeInReceivingAborts := by
  intro c lvl s hb hst
  rw [exec_edge_of_receiving hb hst]
  refine ⟨fun hnone => ?_, fun w hc h12 => ?_⟩
  · have cls : classify (stampEdge c lvl s).cfg.timing (elapsed s c) = none := classify_eq_none.mpr hnone
    rw [edgeReceiving, cls]
    simp only [timingFault, rxAbort_raiseFault_stampEdge]
  · have cls : classify (stampEdge c lvl s).cfg.timing (elapsed s c) = some w := classify_eq_some.mpr hc
    have full : ((stampEdge c lvl s).ch c).byteIdx = 12 := by simpa [stampEdge] using h12
    rw [edgeReceiving, cls]
    simp only [if_pos full, lengthFault, rxAbort_raiseFault_stampEdge]

end Sys2Proof.Machine
end

section
/-! PROOFS. The refusals of operations that are not enabled (log 7), and of command bytes in a session that takes payload (log 13). -/

namespace Sys2Proof.Machine

variable {c : Chan} {s : State}

theorem exec_tick_of_pending (h : s.ch0.matchPend = true ∨ s.ch1.matchPend = true) : exec .tick s = .refused .tickNotEnabled := by
  refine if_neg fun enabled => ?_
  have quiet := tickEnabled_iff.mp enabled
  rcases h with h | h
  · exact Bool.false_ne_true ((quiet .ch0).symm.trans h)
  · exact Bool.false_ne_true ((quiet .ch1).symm.trans h)

/-- An edge to the level the bus has is none (`43_vpw_receiver.md` R160). -/
theorem exec_edge_of_busIn (c : Chan) (s : State) : exec (.edge c (s.ch c).busIn) s = .refused .edgeNotEnabled :=
  if_neg (by simp [edgeEnabled])

theorem sendreqEnabled_eq_true : sendreqEnabled c s = true ↔ (s.ch c).st = .idle ∧ (s.ch c).txq.start ≠ (s.ch c).txq.stop := by
  simp [sendreqEnabled, queueEmpty, isEmpty_eq_false]

theorem takeInbound_of_empty (use : Byte → State → Res State) (h : s.ringIn.start = s.ringIn.stop) :
    takeInbound use s = .refused .dispatchNotEnabled := if_pos (isEmpty_eq_true.mpr h)

/-- Every session but the one that sends a popped frame takes an inbound byte (`46_dispatcher.md` R240). -/
theorem exec_dispatch_of_empty (hs : ∀ d idx rem, s.sess ≠ .popSend d idx rem) (h : s.ringIn.start = s.ringIn.stop) :
    exec .dispatch s = .refused .dispatchNotEnabled := by
  show execDispatch s = _
  unfold execDispatch
  split
  · exact absurd ‹_› (hs _ _ _)
  all_goals exact takeInbound_of_empty _ h

theorem asCommand_of_payload (body : State → Res State) (hi : s.sess ≠ .idle) (hf : s.sess ≠ .filterLoad) :
    asCommand body s = .refused .sessionOpen := by
  unfold asCommand
  split
  · exact absurd ‹_› hi
  · exact absurd ‹_› hf
  all_goals rfl

/-- The eight commands are recognised by the session alone (`30_encoding.md` R98). -/
theorem exec_eq_asCommand {i : Instr} (h : i ∈ commands) : ∃ body, ∀ s, exec i s = asCommand body s := by
  simp only [commands, List.mem_cons, List.not_mem_nil, or_false] at h
  rcases h with rfl | rfl | rfl | rfl | rfl | rfl | rfl | rfl <;> exact ⟨_, fun _ => rfl⟩

/-- Settles O16: each operation by the rule that enables it. -/
theorem disabledOperationsAreRefused : Obligations.DisabledOperationsAreRefused := by
  intro c s
  refine ⟨exec_tick_of_pending, exec_edge_of_busIn c s, exec_match_of_not_pending, fun h => ?_, exec_dispatch_of_empty,
    fun i hi hidle hload => ?_⟩
  · refine if_neg fun enabled => ?_
    obtain ⟨idle, frame⟩ := sendreqEnabled_eq_true.mp enabled
    exact h.elim (absurd idle) frame
  · obtain ⟨body, isCommand⟩ := exec_eq_asCommand hi
    rw [isCommand, asCommand_of_payload body hidle hload]

end Sys2Proof.Machine
end

section
/-! PROOFS. The transmitter: send requests, and what a match and an edge do in each of its states (`44_vpw_transmitter.md` R190 to R204). -/

namespace Sys2Proof.Machine

variable {c : Chan} {lvl : Level} {s t : State}

/-! ### Transmit widths (`00_scope.md` R8; R196) -/

/-- The inter-frame window has a width that can be armed. -/
theorem Timing.wf_txIfs_arm {t : Timing} (h : t.wf = true) : 1 ≤ t.txIfs ∧ t.txIfs ≤ 255 := by
  simp only [Timing.wf, decide_eq_true_eq] at h
  omega

/-- Data pulses have widths that can be armed. -/
theorem Timing.wf_txTicks_arm {t : Timing} (h : t.wf = true) (w : PulseWidth) : 1 ≤ txTicks t w ∧ txTicks t w ≤ 255 := by
  have below := Timing.wf_txTicks_lt h w
  have deadline := Timing.wf_rxEodMin h
  refine ⟨?_, by omega⟩
  simp only [Timing.wf, Timing.isShort, Timing.isLong, Bool.and_eq_true, decide_eq_true_eq] at h
  cases w <;> simp only [txTicks] <;> omega

/-- A one on Active and a zero on Passive are short, the others long (R196). -/
theorem txTicks_sendWidth (t : Timing) (lvl : Level) (b : Bool) :
    txTicks t (sendWidth lvl b) = if (lvl = .active ↔ b = true) then t.txShort else t.txLong := by
  cases lvl <;> cases b <;> rfl

/-! ### Send requests (R190, R191) -/

/-- A send request releases the bus, resets the cursor and arms the inter-frame window. -/
theorem startSend_eq_next :
    startSend c s = .next t ↔ (1 ≤ s.cfg.timing.txIfs ∧ s.cfg.timing.txIfs ≤ 255) ∧
      t = s.setCh c { s.ch c with
        drive := .passive, byteIdx := 0, bitIdx := 0, st := .txArmed
        ocr := s.tcnt + BitVec.ofNat 8 s.cfg.timing.txIfs, matchEn := true, matchPend := false } := by
  simp only [startSend, andThen_eq_next, armUnit_eq_next]
  constructor
  · rintro ⟨u, ⟨arm, rfl⟩, h⟩
    cases h
    exact ⟨arm, by simp⟩
  · rintro ⟨arm, rfl⟩
    exact ⟨_, ⟨arm, rfl⟩, by simp⟩

/-- Settles O29: the request is enabled, and its window can be armed. -/
theorem sendRequestArmsTheIfsWait : Obligations.SendRequestArmsTheIfsWait := by
  intro c s hw hst hne
  have enabled : exec (.sendreq c) s = startSend c s := if_pos (sendreqEnabled_eq_true.mpr ⟨hst, hne⟩)
  rw [enabled, ← add_ofNat_eq]
  exact startSend_eq_next.mpr ⟨Timing.wf_txIfs_arm (Config.wf_timing hw), rfl⟩

theorem housekeepChannel_eq (hw : s.cfg.wf = true) (c : Chan) :
    housekeepChannel c s = .next (s.setCh c (afterHousekeeping s (s.ch c))) := by
  unfold housekeepChannel afterHousekeeping
  simp only [sendreqEnabled_eq_true]
  split
  · rw [← add_ofNat_eq]
    exact startSend_eq_next.mpr ⟨Timing.wf_txIfs_arm (Config.wf_timing hw), rfl⟩
  · rw [setCh_self]

/-- Settles O30: channel 0, then channel 1, which sees of the first one's request only the same counter and configuration. -/
theorem housekeepingRequestsOnIdleChannels : Obligations.HousekeepingRequestsOnIdleChannels := by
  intro s hw
  show (housekeepChannel .ch0 s).andThen (housekeepChannel .ch1) = _
  rw [housekeepChannel_eq hw, andThen_next]
  exact housekeepChannel_eq (s := s.setCh .ch0 (afterHousekeeping s s.ch0)) hw .ch1

/-! ### The arms of `MATCH` and `EDGE` -/

theorem exec_match_of_waiting (hp : (s.ch c).matchPend = true) (hst : (s.ch c).st = .txArmed ∨ (s.ch c).st = .txWaitIfs) :
    exec (.timerMatch c) s = matchWaiting c (disarmUnit c s) := by
  show matchOp c s = _
  rcases hst with hst | hst <;> simp only [matchOp, matchEnabled, hp, if_true, hst]

theorem exec_match_of_sending (hp : (s.ch c).matchPend = true) (hst : (s.ch c).st = .txSending) :
    exec (.timerMatch c) s = matchSending c (disarmUnit c s) := by
  show matchOp c s = _
  simp only [matchOp, matchEnabled, hp, if_true, hst]

theorem exec_edge_of_sending (hb : (s.ch c).busIn ≠ lvl) (hst : (s.ch c).st = .txSending) :
    exec (.edge c lvl) s = edgeSending c lvl (stampEdge c lvl s) := by
  show edgeOp c lvl s = _
  rw [edgeOp, if_pos (edgeEnabled_of_ne hb), hst]

@[simp] theorem stampEdge_ch (c : Chan) (lvl : Level) (s : State) :
    (stampEdge c lvl s).ch c = { s.ch c with busIn := lvl, lastEdge := s.tcnt } := setCh_ch_same s c _

/-- Settles O34: neither state has an arm of its own. -/
theorem strayMatchOnlyClearsTheUnit : Obligations.StrayMatchOnlyClearsTheUnit := by
  intro c s hp hst
  show matchOp c s = .next (disarmUnit c s)
  rcases hst with hst | hst <;> simp only [matchOp, matchEnabled, hp, if_true, hst]

/-- Settles O27: neither state has an arm of its own. -/
theorem edgeWhileWaitingIsStampedOnly : Obligations.EdgeWhileWaitingIsStampedOnly := by
  intro c lvl s hb hst
  show edgeOp c lvl s = .next (stampEdge c lvl s)
  rcases hst with hst | hst <;> rw [edgeOp, if_pos (edgeEnabled_of_ne hb), hst]

/-! ### The wait for the inter-frame window (R192 to R194) -/

/-- On an Active bus another window is waited for (R193). -/
theorem exec_match_waiting_active (hw : s.cfg.wf = true) (hb : (s.ch c).busIn = .active) (hp : (s.ch c).matchPend = true)
    (hst : (s.ch c).st = .txArmed ∨ (s.ch c).st = .txWaitIfs) :
    exec (.timerMatch c) s = .next (s.setCh c { s.ch c with
      st := .txWaitIfs
      ocr := s.tcnt + BitVec.ofNat 8 s.cfg.timing.txIfs, matchEn := true, matchPend := false }) := by
  have arm := Timing.wf_txIfs_arm (Config.wf_timing hw)
  rw [exec_match_of_waiting hp hst]
  simp [matchWaiting, hb, armUnit, arm]

/-- Settles O31: by the level of the bus. -/
theorem matchWhileWaitingTestsTheBus : Obligations.MatchWhileWaitingTestsTheBus := by
  intro c s hw hp hst
  rw [← add_ofNat_eq, ← add_ofNat_eq]
  cases hb : (s.ch c).busIn with
  | active => exact exec_match_waiting_active hw hb hp hst
  | passive => exact exec_match_waiting_passive hw hb hp hst

/-! ### Contention (R199, R200, R202) -/

/-- Contention with the registers `k` in the channel (R200). -/
theorem contention_setCh {k : Channel} (hne : k.txq.start ≠ k.txq.stop) :
    contention c (s.setCh c k) = .next (({ s with raised := .contention c :: s.raised } : State).setCh c (afterContention s k)) := by
  refine txAbort_eq_next.mpr ⟨isEmpty_eq_false.mpr (by simpa using hne), ?_⟩
  rw [raiseFault_ch, setCh_ch_same, raiseFault_setCh, setCh_setCh]
  rfl

/-- Settles O28: an echo is only stamped; a foreign edge and a foreign level at a match are contention. -/
theorem contentionAbortsTheTransmission : Obligations.ContentionAbortsTheTransmission := by
  intro c lvl s hst hne
  refine ⟨fun hb echo => ?_, fun hb foreign => ?_, fun hp sample foreign => ?_⟩
  · rw [exec_edge_of_sending hb hst]
    exact if_neg (by simpa using echo)
  · rw [exec_edge_of_sending hb hst, edgeSending, if_pos (by simpa using foreign)]
    exact contention_setCh hne
  · rw [exec_match_of_sending hp hst, matchSending, if_pos (by simpa using ⟨sample, foreign⟩)]
    exact contention_setCh hne

/-! ### The frame on the bus (R195 to R198) -/

/-- The level sample finds no contention (R202). -/
def SampleAgrees (c : Chan) (s : State) : Prop := ¬ (s.cfg.contentionSampleAtMatch = true ∧ (s.ch c).busIn ≠ (s.ch c).drive)

/-- `MATCH` in `TxSending` without contention: the level toggles, and the length of the frame at the head decides. -/
theorem exec_match_sending {v : Byte} (hp : (s.ch c).matchPend = true) (hst : (s.ch c).st = .txSending) (hc : SampleAgrees c s)
    (hk : (s.ch c).txq.start < s.cfg.txqSlots) (hv : cellValue (.len (.txq c) (s.ch c).txq.start) s = some v) :
    exec (.timerMatch c) s =
      if (s.ch c).byteIdx < v.toNat then
        sendBit c (s.setCh c { s.ch c with matchEn := false, matchPend := false, drive := otherLevel (s.ch c).drive })
      else endSend c (s.setCh c { s.ch c with matchEn := false, matchPend := false, drive := otherLevel (s.ch c).drive }) := by
  have len : readLen (.txq c) (s.ch c).txq.start s = .next v.toNat := readLen_eq_next.mpr ⟨cellExists_len hk, v, hv, rfl⟩
  rw [exec_match_of_sending hp hst, matchSending, if_neg (by simpa [SampleAgrees] using hc)]
  simp only [disarmUnit_eq, setCh_setCh, setCh_ch_same, readLen_setCh, len, andThen_next]

/-- With bits left, the next one is driven on the other level for its width, and the cursor moves (R195 to R197). -/
theorem exec_match_bit {v b : Byte} (hw : s.cfg.wf = true) (hp : (s.ch c).matchPend = true) (hst : (s.ch c).st = .txSending)
    (hc : SampleAgrees c s) (hk : (s.ch c).txq.start < s.cfg.txqSlots)
    (hv : cellValue (.len (.txq c) (s.ch c).txq.start) s = some v) (hby : (s.ch c).byteIdx < v.toNat) (h12 : (s.ch c).byteIdx < 12)
    (hb : cellValue (.data (.txq c) (s.ch c).txq.start (s.ch c).byteIdx) s = some b) :
    exec (.timerMatch c) s = .next (s.setCh c { s.ch c with
      drive := otherLevel (s.ch c).drive
      ocr := s.tcnt + BitVec.ofNat 8
        (txTicks s.cfg.timing (sendWidth (otherLevel (s.ch c).drive) (b.getLsbD (7 - (s.ch c).bitIdx))))
      matchEn := true, matchPend := false
      bitIdx := if (s.ch c).bitIdx = 7 then 0 else (s.ch c).bitIdx + 1
      byteIdx := if (s.ch c).bitIdx = 7 then (s.ch c).byteIdx + 1 else (s.ch c).byteIdx }) := by
  have byte : memRead (.data (.txq c) (s.ch c).txq.start (s.ch c).byteIdx) s = .next b := memRead_eq_next.mpr ⟨cellExists_data hk h12, hb⟩
  have arm := Timing.wf_txTicks_arm (Config.wf_timing hw)
  rw [exec_match_sending hp hst hc hk hv, if_pos hby]
  simp only [sendBit, setCh_ch_same, memRead_setCh, byte, andThen_next, armUnit, setCh_cfg, setCh_tcnt, arm, and_self, if_true,
    setCh_setCh, Nat.reduceEqDiff]
  split <;> rfl

/-- With the frame exhausted, bus and frame are released (R198). -/
theorem exec_match_end {v : Byte} (hp : (s.ch c).matchPend = true) (hst : (s.ch c).st = .txSending) (hc : SampleAgrees c s)
    (hk : (s.ch c).txq.start < s.cfg.txqSlots) (hne : (s.ch c).txq.start ≠ (s.ch c).txq.stop)
    (hv : cellValue (.len (.txq c) (s.ch c).txq.start) s = some v) (hby : v.toNat ≤ (s.ch c).byteIdx) :
    exec (.timerMatch c) s = .next (s.setCh c { s.ch c with
      drive := .passive, matchEn := false, matchPend := false, rxEn := true, st := .idle
      txq := { (s.ch c).txq with start := ((s.ch c).txq.start + 1) % s.cfg.txqSlots } }) := by
  rw [exec_match_sending hp hst hc hk hv, if_neg (by omega)]
  refine andThen_eq_next.mpr ⟨_, qRelease_eq_next.mpr ⟨isEmpty_eq_false.mpr (by simpa using hne), rfl⟩, ?_⟩
  simp [queueSize, nextIndex]

/-- Settles O32: the level that is not driven is the other one. -/
theorem matchInSendingDrivesTheNextBit : Obligations.MatchInSendingDrivesTheNextBit := by
  intro c s n b lvl hw hp hst hc hk hn hby h12 _ hb hlvl
  obtain rfl := eq_otherLevel_of_ne hlvl
  rw [← txTicks_sendWidth, ← add_ofNat_eq]
  exact exec_match_bit hw hp hst hc hk hn hby h12 hb

/-- Settles O33: the cursor has reached the length of the frame. -/
theorem matchInSendingEndsTheFrame : Obligations.MatchInSendingEndsTheFrame :=
  fun _ _ _ hp hst hc hk hne hn hby => exec_match_end hp hst hc hk hne hn hby

end Sys2Proof.Machine
end

section
/-! PROOFS. The pulse train of a frame: every match between the SOF and the end drives the next bit in wire order (`44_vpw_transmitter.md` R198, R202, R203). -/

namespace Sys2Proof.Machine

variable {c : Chan} {echo : Bool} {lvl : Level} {s u : State} {xs : List Byte} {n : Nat}

/-! ### The bits of a frame (`20_memory.md` R63) -/

theorem wireBits_length (xs : List Byte) : (wireBits xs).length = 8 * xs.length := by
  induction xs with
  | nil => rfl
  | cons y ys ih =>
    rw [wireBits_cons, List.length_append, byteBits_length, ih, List.length_cons]
    omega

/-- Bit `n` on the wire is bit `7 − n mod 8` of byte `n / 8`. -/
theorem getElem?_wireBits (xs : List Byte) (n : Nat) : (wireBits xs)[n]? = (xs[n / 8]?).map (·.getLsbD (7 - n % 8)) := by
  induction xs generalizing n with
  | nil => rfl
  | cons y ys ih =>
    rw [wireBits_cons]
    by_cases hn : n < 8
    · rw [List.getElem?_append_left (by rwa [byteBits_length]), byteBits, List.getElem?_map, List.getElem?_range hn,
        Nat.div_eq_of_lt hn, Nat.mod_eq_of_lt hn]
      rfl
    · obtain ⟨m, rfl⟩ : ∃ m, n = m + 8 := ⟨n - 8, by omega⟩
      rw [List.getElem?_append_right (by rw [byteBits_length]; omega), byteBits_length, Nat.add_sub_cancel, ih,
        Nat.add_div_right _ (by omega), Nat.add_mod_right, List.getElem?_cons_succ]

/-! ### A deadline reached -/

@[simp] theorem atDeadline_ch (c : Chan) (echo : Bool) (s : State) : (atDeadline c echo s).ch c =
    { s.ch c with matchPend := true, busIn := if echo then (s.ch c).drive else (s.ch c).busIn } := setCh_ch_same _ c _

@[simp] theorem atDeadline_tcnt (c : Chan) (echo : Bool) (s : State) : (atDeadline c echo s).tcnt = (s.ch c).ocr := rfl

@[simp] theorem atDeadline_cfg (c : Chan) (echo : Bool) (s : State) : (atDeadline c echo s).cfg = s.cfg := rfl

@[simp] theorem cellValue_atDeadline (x : CellId) (c : Chan) (echo : Bool) (s : State) :
    cellValue x (atDeadline c echo s) = cellValue x s := rfl

/-- The level sample finds the driven level where the bus follows it, and is not taken where it is off (R202). -/
theorem sampleAgrees_atDeadline (h : echo = true ∨ s.cfg.contentionSampleAtMatch = false) : SampleAgrees c (atDeadline c echo s) := by
  rintro ⟨sample, foreign⟩
  rcases h with rfl | off
  · simp at foreign
  · exact Bool.false_ne_true (off.symm.trans sample)

/-! ### A transmission under way -/

/-- In state `u`, channel `c` has driven `n` bits of the frame `xs`, which is at the head of its queue since state `s`, and drives the level `lvl`. -/
structure Sending (c : Chan) (s : State) (xs : List Byte) (n : Nat) (lvl : Level) (u : State) : Prop where
  st : (u.ch c).st = .txSending
  drive : (u.ch c).drive = lvl
  byteIdx : (u.ch c).byteIdx = n / 8
  bitIdx : (u.ch c).bitIdx = n % 8
  txq : (u.ch c).txq = (s.ch c).txq
  cfg : u.cfg = s.cfg
  len : cellValue (.len (.txq c) (s.ch c).txq.start) u = some (BitVec.ofNat 8 xs.length)
  bytes : slotHolds (.txq c) (s.ch c).txq.start xs u

/-- The match at the next deadline drives the next bit on the other level, for its width. -/
theorem Sending.bit {b : Bool} (h : Sending c s xs n lvl u) (hw : s.cfg.wf = true)
    (hs : echo = true ∨ s.cfg.contentionSampleAtMatch = false) (hx : xs.length ≤ 12) (hk : (s.ch c).txq.start < s.cfg.txqSlots)
    (hb : (wireBits xs)[n]? = some b) :
    ∃ v, exec (.timerMatch c) (atDeadline c echo u) = .next v ∧ Sending c s xs (n + 1) (otherLevel lvl) v ∧
      (v.ch c).ocr = v.tcnt + BitVec.ofNat 8 (txTicks s.cfg.timing (sendWidth (otherLevel lvl) b)) := by
  rw [getElem?_wireBits, Option.map_eq_some_iff] at hb
  obtain ⟨y, hy, rfl⟩ := hb
  obtain ⟨hn, -⟩ := List.getElem?_eq_some_iff.mp hy
  have byte : cellValue (.data (.txq c) (s.ch c).txq.start (n / 8)) u = some y := (h.bytes _ hn).trans hy
  have left : n / 8 < (BitVec.ofNat 8 xs.length).toNat := by
    rw [BitVec.toNat_ofNat]
    omega
  have run := exec_match_bit (c := c) (s := atDeadline c echo u) (v := BitVec.ofNat 8 xs.length) (b := y)
    (by simpa [h.cfg] using hw) (by simp) (by simpa using h.st) (sampleAgrees_atDeadline (by rwa [h.cfg]))
    (by simpa [h.txq, h.cfg] using hk) (by simpa [h.txq] using h.len) (by simpa [h.byteIdx] using left)
    (by simp [h.byteIdx]; omega) (by simpa [h.txq, h.byteIdx] using byte)
  refine ⟨_, run, ?_, by simp [h.drive, h.bitIdx, h.cfg]⟩
  exact {
    st := by simpa using h.st
    drive := by simp [h.drive]
    byteIdx := by
      simp only [setCh_ch_same, atDeadline_ch, h.byteIdx, h.bitIdx]
      split <;> omega
    bitIdx := by
      simp only [setCh_ch_same, atDeadline_ch, h.bitIdx]
      split <;> omega
    txq := by simpa using h.txq
    cfg := h.cfg
    len := h.len
    bytes := h.bytes }

/-- The matches drive the bits that are left, as pulses of alternating levels at the transmit widths (R203). -/
theorem Sending.pulses {bs : List Bool} (h : Sending c s xs n lvl u) (hw : s.cfg.wf = true)
    (hs : echo = true ∨ s.cfg.contentionSampleAtMatch = false) (hx : xs.length ≤ 12) (hk : (s.ch c).txq.start < s.cfg.txqSlots)
    (hb : (wireBits xs).drop n = bs) :
    ∃ v lvl', sentPulses c echo bs.length u = .next (linePulses s.cfg.timing (otherLevel lvl) bs, v) ∧
      Sending c s xs (n + bs.length) lvl' v := by
  induction bs generalizing n lvl u with
  | nil => exact ⟨u, lvl, rfl, h⟩
  | cons b bs ih =>
    have here : (wireBits xs)[n]? = some b := by rw [← List.head?_drop, hb, List.head?_cons]
    have rest : (wireBits xs).drop (n + 1) = bs := by rw [← List.tail_drop, hb, List.tail_cons]
    obtain ⟨v, run, hv, deadline⟩ := h.bit hw hs hx hk here
    obtain ⟨w, lvl', train, hw'⟩ := ih hv rest
    have width := Timing.wf_txTicks_arm (Config.wf_timing hw) (sendWidth (otherLevel lvl) b)
    have ticks : ((v.ch c).ocr - v.tcnt).toNat = txTicks s.cfg.timing (sendWidth (otherLevel lvl) b) := by
      rw [deadline, add_sub_cancel_left, BitVec.toNat_ofNat]
      omega
    refine ⟨w, lvl', ?_, by rwa [List.length_cons, Nat.add_comm bs.length, ← Nat.add_assoc]⟩
    simp only [List.length_cons, sentPulses, run, train, andThen_next, linePulses, hv.drive, ticks]

/-- Settles O35: the bits one by one, and then the match that finds the frame exhausted. -/
theorem transmitterSendsThePulseTrain : Obligations.TransmitterSendsThePulseTrain := by
  intro c echo xs s hw hs hst hdrive hby hbi _ hx hk hne hlen hbytes
  have start : Sending c s xs 0 .active s := ⟨hst, hdrive, hby, hbi, rfl, rfl, hlen, hbytes⟩
  obtain ⟨t, lvl, train, ht⟩ := start.pulses hw hs hx hk rfl
  rw [List.drop_zero, Nat.zero_add, wireBits_length] at ht
  rw [List.drop_zero, wireBits_length] at train
  have done : (BitVec.ofNat 8 xs.length).toNat ≤ (t.ch c).byteIdx := by
    rw [ht.byteIdx, BitVec.toNat_ofNat]
    omega
  have last := exec_match_end (c := c) (s := atDeadline c echo t) (by simp) (by simpa using ht.st)
    (sampleAgrees_atDeadline (by rwa [ht.cfg])) (by simpa [ht.txq, ht.cfg] using hk) (by simpa [ht.txq] using hne)
    (by simpa [ht.txq] using ht.len) (by simpa using done)
  exact ⟨t, _, train, last, by simp, by simp, by simp [ht.txq, ht.cfg]⟩

end Sys2Proof.Machine
end

section
/-! PROOFS. The protocol state of a channel: which operations write it, and the moves they make (`44_vpw_transmitter.md` R206). -/

namespace Sys2Proof.Machine

variable {c d : Chan} {lvl : Level} {s t u : State}

/-! ### What does not write a register of a channel -/

/-- Going from `s` to `t`, no register of a channel is written but the pointers of its queues. -/
def SameRegs (s t : State) : Prop := ∀ c, t.ch c = { s.ch c with rxq := (t.ch c).rxq, txq := (t.ch c).txq }

theorem SameRegs.st (h : SameRegs s t) (c : Chan) : (t.ch c).st = (s.ch c).st := by rw [h c]

theorem sameRegs_of_ch (h : ∀ c, t.ch c = s.ch c) : SameRegs s t := fun c => by rw [h c]

theorem SameRegs.trans (h : SameRegs s t) (h' : SameRegs t u) : SameRegs s u := fun c => by rw [h' c, h c]

theorem sameRegs_setQueue (s : State) (q : QueueId) (p : Ptrs) : SameRegs s (s.setQueue q p) := setQueue_ch s q p

theorem RingWrites.sameRegs (h : RingWrites s t) : SameRegs s t := sameRegs_of_ch h.ch

theorem qStage_sameRegs {q : QueueId} {i : Nat} {v : Byte} (h : qStage q i v s = .next t) : SameRegs s t := by
  obtain ⟨-, rfl⟩ := qStage_eq_next.mp h
  exact sameRegs_of_ch (setMem_ch s _)

theorem qCommit_sameRegs {q : QueueId} {n : Nat} {r : Bool × State} (h : qCommit q n s = .next r) : SameRegs s r.2 := by
  obtain ⟨-, ⟨-, -, ht⟩ | ⟨-, -, -, ht⟩⟩ := qCommit_eq_next.mp h
  · rw [ht]
    exact sameRegs_of_ch (raiseFault_ch s _)
  · rw [ht]
    exact (sameRegs_of_ch (setMem_ch s _)).trans (sameRegs_setQueue _ q _)

theorem sameRegs_setSess (s : State) (v : Session) : SameRegs s (s.setSess v) := sameRegs_of_ch (setSess_ch s v)

/-! ### The dispatcher writes no register of a channel -/

/-- Whatever `f` answers has the registers of the channels as they were. -/
def KeepsRegs (f : State → Res State) : Prop := ∀ s t, f s = .next t → SameRegs s t

theorem pushOut_keepsRegs (b : Byte) : KeepsRegs (pushOut b) := fun _ _ h => (pushOut_ringWrites h).sameRegs

theorem asCommand_keepsRegs {body : State → Res State} (hb : KeepsRegs body) : KeepsRegs (asCommand body) := by
  intro s t h
  have committed : SameRegs s ((filterCommit s).setSess .idle) := sameRegs_of_ch (by rintro (_ | _) <;> rfl)
  unfold asCommand at h
  split at h
  · exact hb s t h
  · exact committed.trans (hb _ t h)
  all_goals cases h

theorem popRx_keepsRegs (c : Chan) : KeepsRegs (popRx c) := by
  intro s t h
  unfold popRx at h
  split at h
  · exact pushOut_keepsRegs _ s t h
  · obtain ⟨u, hu, h⟩ := andThen_eq_next.mp h
    obtain ⟨n, -, h⟩ := andThen_eq_next.mp h
    cases h
    exact (pushOut_keepsRegs _ s u hu).trans (sameRegs_setSess u _)

theorem execCmdIgnored_keepsRegs (v : Byte) : KeepsRegs (execCmdIgnored v) := by
  intro s t h
  unfold execCmdIgnored at h
  split at h
  · split at h <;> cases h
    exact sameRegs_of_ch fun _ => rfl
  all_goals cases h

/-- A command answers a byte, opens a session, or changes a filter list. -/
theorem commandStep_keepsRegs (b : Byte) : KeepsRegs (commandStep b) := by
  have silent : ∀ {f : State → State}, (∀ s c, (f s).ch c = s.ch c) → KeepsRegs (asCommand fun s => .next (f s)) := fun hf =>
    asCommand_keepsRegs (by rintro s _ ⟨⟩; exact sameRegs_of_ch (hf s))
  intro s t h
  unfold commandStep at h
  split_ifs at h
  · exact asCommand_keepsRegs (fun _ _ => pushOut_keepsRegs _ _ _) s t h
  · exact asCommand_keepsRegs (fun _ _ => pushOut_keepsRegs _ _ _) s t h
  · exact asCommand_keepsRegs (popRx_keepsRegs .ch0) s t h
  · exact asCommand_keepsRegs (popRx_keepsRegs .ch1) s t h
  · exact silent (f := filterClear) (by rintro s (_ | _) <;> rfl) s t h
  · exact silent (f := fun s => (filterBegin s).setSess .filterLoad) (by rintro s (_ | _) <;> rfl) s t h
  · exact silent (f := fun s => s.setSess (.txLen .ch0)) (fun s => setSess_ch s _) s t h
  · exact silent (f := fun s => s.setSess (.txLen .ch1)) (fun s => setSess_ch s _) s t h
  · exact execCmdIgnored_keepsRegs b s t h

theorem popSendStep_keepsRegs (c : Chan) (idx rem : Nat) : KeepsRegs (popSendStep c idx rem) := by
  intro s t h
  obtain ⟨b, -, h⟩ := andThen_eq_next.mp h
  obtain ⟨u, hu, h⟩ := andThen_eq_next.mp h
  have pushed := pushOut_keepsRegs b s u hu
  split at h
  · obtain ⟨v, hv, h⟩ := andThen_eq_next.mp h
    obtain ⟨-, rfl⟩ := qRelease_eq_next.mp hv
    cases h
    exact pushed.trans ((sameRegs_setQueue u _ _).trans (sameRegs_setSess _ _))
  · cases h
    exact pushed.trans (sameRegs_setSess u _)

theorem filterLoadStep_keepsRegs (b : Byte) : KeepsRegs (filterLoadStep b) := by
  intro s t h
  unfold filterLoadStep at h
  split at h
  · exact commandStep_keepsRegs b s t h
  · cases h
    rw [filterAppend_eq]
    exact sameRegs_of_ch (by rintro (_ | _) <;> rfl)

theorem txComplete_keepsRegs (c : Chan) (len : Nat) : KeepsRegs (txComplete c len) := by
  intro s t h
  obtain ⟨xs, -, h⟩ := andThen_eq_next.mp h
  obtain ⟨u, hu, h⟩ := andThen_eq_next.mp h
  obtain ⟨r, hr, h⟩ := andThen_eq_next.mp h
  cases h
  exact (qStage_sameRegs hu).trans ((qCommit_sameRegs hr).trans (sameRegs_setSess _ _))

theorem txLenStep_keepsRegs (c : Chan) (b : Byte) : KeepsRegs (txLenStep c b) := by
  intro s t h
  unfold txLenStep at h
  split_ifs at h
  · cases h
    exact sameRegs_setSess s _
  · exact txComplete_keepsRegs c 1 s t h
  · cases h
    exact sameRegs_setSess s _

theorem txDataStep_keepsRegs (c : Chan) (idx len : Nat) (b : Byte) : KeepsRegs (txDataStep c idx len b) := by
  intro s t h
  obtain ⟨u, hu, h⟩ := andThen_eq_next.mp h
  have staged := qStage_sameRegs hu
  split at h
  · exact staged.trans (txComplete_keepsRegs c len u t h)
  · cases h
    exact staged.trans (sameRegs_setSess u _)

theorem takeInbound_keepsRegs {use : Byte → State → Res State} (hu : ∀ b, KeepsRegs (use b)) : KeepsRegs (takeInbound use) := by
  intro s t h
  unfold takeInbound at h
  split at h
  · cases h
  · obtain ⟨p, hp, h⟩ := andThen_eq_next.mp h
    exact (ringPop_ringWrites hp).sameRegs.trans (hu p.1 p.2 t h)

/-- `DISPATCH`: the step of each session. -/
theorem execDispatch_keepsRegs : KeepsRegs execDispatch := by
  intro s t h
  unfold execDispatch at h
  split at h
  · exact popSendStep_keepsRegs _ _ _ s t h
  · exact takeInbound_keepsRegs commandStep_keepsRegs s t h
  · exact takeInbound_keepsRegs filterLoadStep_keepsRegs s t h
  · exact takeInbound_keepsRegs (txLenStep_keepsRegs _) s t h
  · exact takeInbound_keepsRegs (txDataStep_keepsRegs _ _ _) s t h

/-! ### What writes no protocol state -/

theorem execXfer_ch {rx : Byte} (h : execXfer rx s = .next t) (c : Chan) : t.ch c = s.ch c :=
  ((execXfer_ringWrites h).ch c).trans (by cases c <;> rfl)

theorem execTick_st (h : execTick s = .next t) (c : Chan) : (t.ch c).st = (s.ch c).st := by
  unfold execTick at h
  split at h
  · cases h
    rw [advanceTick_ch, compareUnit]
    split <;> rfl
  · cases h

/-- An interrupt operation of one channel leaves the other as it was. -/
theorem OwnWrites.ch_other (h : OwnWrites d s t) (hc : c ≠ d) : t.ch c = s.ch c := by
  rw [h, setCh_ch_other _ _ hc]
  cases c <;> rfl

/-! ### Send requests -/

/-- What a send request needs, and where it leads (`44_vpw_transmitter.md` R191). -/
def RequestMove (c : Chan) (s t : State) : Prop := (s.ch c).st = .idle ∧ queueEmpty (.txq c) s = false ∧ (t.ch c).st = .txArmed

theorem execSendreq_move (h : execSendreq c s = .next t) : RequestMove c s t := by
  unfold execSendreq at h
  split at h
  · rename_i enabled
    obtain ⟨hst, hne⟩ := sendreqEnabled_eq_true.mp enabled
    obtain ⟨-, rfl⟩ := startSend_eq_next.mp h
    exact ⟨hst, isEmpty_eq_false.mpr hne, by rw [setCh_ch_same]⟩
  · cases h

/-- Housekeeping of a channel is its send request where that is enabled, and nothing elsewhere. -/
theorem housekeepChannel_eq_next (h : housekeepChannel c s = .next t) : t = s ∨ execSendreq c s = .next t := by
  unfold housekeepChannel at h
  split at h
  · rename_i enabled
    exact .inr ((if_pos enabled).trans h)
  · cases h
    exact .inl rfl

theorem housekeepChannel_ch_other (h : housekeepChannel d s = .next t) (hc : c ≠ d) : t.ch c = s.ch c := by
  rcases housekeepChannel_eq_next h with rfl | h
  · rfl
  · exact (execSendreq_writesOnly d s t h).ch_other hc

theorem housekeepChannel_move (h : housekeepChannel c s = .next t) (hne : (t.ch c).st ≠ (s.ch c).st) : RequestMove c s t := by
  rcases housekeepChannel_eq_next h with rfl | h
  · exact absurd rfl hne
  · exact execSendreq_move h

theorem execHousekeep_move (h : execHousekeep s = .next t) (hne : (t.ch c).st ≠ (s.ch c).st) : RequestMove c s t := by
  obtain ⟨u, hu, ht⟩ := andThen_eq_next.mp h
  cases c with
  | ch0 =>
    have after : t.ch .ch0 = u.ch .ch0 := housekeepChannel_ch_other ht (by decide)
    rw [RequestMove, after]
    exact housekeepChannel_move hu (by rwa [← after])
  | ch1 =>
    have before : u.ch .ch1 = s.ch .ch1 := housekeepChannel_ch_other hu (by decide)
    have move := housekeepChannel_move ht (by rwa [before])
    rwa [RequestMove, queueEmpty, queue_txq, before] at move

/-! ### The moves of `EDGE` -/

/-- The moves of `EDGE` to `lvl` (`43_vpw_receiver.md` R161 to R170, `44_vpw_transmitter.md` R199). -/
def EdgeMove (c : Chan) (lvl : Level) (s t : State) : Prop :=
  ((s.ch c).st = .idle ∧ lvl = .active ∧ (s.ch c).rxEn = true ∧ (t.ch c).st = .sofWait) ∨
  ((s.ch c).st = .sofWait ∧ lvl = .passive ∧ s.cfg.timing.isSof (elapsed s c) = true ∧ (t.ch c).st = .receiving) ∨
  ((s.ch c).st = .sofWait ∧ ¬ (lvl = .passive ∧ s.cfg.timing.isSof (elapsed s c) = true) ∧ (t.ch c).st = .idle) ∨
  ((s.ch c).st = .receiving ∧ (classify s.cfg.timing (elapsed s c) = none ∨ (s.ch c).byteIdx = 12) ∧ (t.ch c).st = .idle) ∨
  ((s.ch c).st = .txSending ∧ lvl ≠ (s.ch c).drive ∧ (t.ch c).st = .idle)

theorem rxAbort_st (c : Chan) (s : State) : ((rxAbort c s).ch c).st = .idle := by rw [rxAbort_eq, setCh_ch_same]

theorem armUnit_st {w : Nat} (h : armUnit c w s = .next t) : (t.ch c).st = (s.ch c).st := by
  obtain ⟨-, rfl⟩ := armUnit_eq_next.mp h
  rw [setCh_ch_same]

theorem contention_st (h : contention c s = .next t) : (t.ch c).st = .idle := by
  obtain ⟨-, rfl⟩ := txAbort_eq_next.mp h
  rw [setCh_ch_same]

theorem edgeIdle_st (h : edgeIdle c lvl s = .next t) :
    (t.ch c).st = (s.ch c).st ∨ lvl = .active ∧ (s.ch c).rxEn = true ∧ (t.ch c).st = .sofWait := by
  unfold edgeIdle at h
  split at h
  · rename_i rise
    cases h
    exact .inr ⟨rise.1, rise.2, by rw [setCh_ch_same]⟩
  · cases h
    exact .inl rfl

theorem edgeSofWait_st {e : Nat} (h : edgeSofWait c lvl e s = .next t) :
    (lvl = .passive ∧ s.cfg.timing.isSof e = true) ∧ (t.ch c).st = .receiving ∨
      ¬ (lvl = .passive ∧ s.cfg.timing.isSof e = true) ∧ (t.ch c).st = .idle := by
  unfold edgeSofWait at h
  split at h
  · exact .inl ⟨‹_›, by rw [armUnit_st h, setCh_ch_same]⟩
  · cases h
    exact .inr ⟨‹_›, rxAbort_st c _⟩

theorem appendBit_st {bit : Bool} (h : appendBit c bit s = .next t) : (t.ch c).st = (s.ch c).st := by
  simp only [appendBit] at h
  split at h
  · obtain ⟨u, hu, ht⟩ := andThen_eq_next.mp h
    rw [armUnit_st ht, setCh_ch_same, (qStage_sameRegs hu).st, setCh_ch_same]
  · rw [armUnit_st h, setCh_ch_same]

theorem edgeReceiving_st {e : Nat} (h : edgeReceiving c lvl e s = .next t) :
    (t.ch c).st = (s.ch c).st ∨ (classify s.cfg.timing e = none ∨ (s.ch c).byteIdx = 12) ∧ (t.ch c).st = .idle := by
  unfold edgeReceiving at h
  split at h
  · cases h
    exact .inr ⟨.inl ‹_›, rxAbort_st c _⟩
  · split at h
    · cases h
      exact .inr ⟨.inr ‹_›, rxAbort_st c _⟩
    · exact .inl (appendBit_st h)

theorem edgeSending_st (h : edgeSending c lvl s = .next t) :
    (t.ch c).st = (s.ch c).st ∨ lvl ≠ (s.ch c).drive ∧ (t.ch c).st = .idle := by
  unfold edgeSending at h
  split at h
  · exact .inr ⟨‹_›, contention_st h⟩
  · cases h
    exact .inl rfl

theorem stampEdge_cfg (c : Chan) (lvl : Level) (s : State) : (stampEdge c lvl s).cfg = s.cfg := rfl

/-- `EDGE`: the arm of each state of the protocol, after the stamp. -/
theorem edgeOp_move (h : edgeOp c lvl s = .next t) (hne : (t.ch c).st ≠ (s.ch c).st) : EdgeMove c lvl s t := by
  have same : ((stampEdge c lvl s).ch c).st = (s.ch c).st := by rw [stampEdge_ch]
  rw [← same] at hne
  unfold edgeOp at h
  split at h
  · cases hst : (s.ch c).st <;> simp only [hst] at h
    case idle =>
      obtain ⟨rise, en, st⟩ := (edgeIdle_st h).resolve_left hne
      exact .inl ⟨hst, rise, by simpa using en, st⟩
    case sofWait =>
      rcases edgeSofWait_st h with ⟨⟨fall, sof⟩, st⟩ | ⟨other, st⟩
      · exact .inr (.inl ⟨hst, fall, sof, st⟩)
      · exact .inr (.inr (.inl ⟨hst, other, st⟩))
    case receiving =>
      obtain ⟨abort, st⟩ := (edgeReceiving_st h).resolve_left hne
      exact .inr (.inr (.inr (.inl ⟨hst, by simpa [stampEdge_cfg] using abort, st⟩)))
    case txArmed | txWaitIfs =>
      cases h
      exact absurd rfl hne
    case txSending =>
      obtain ⟨foreign, st⟩ := (edgeSending_st h).resolve_left hne
      exact .inr (.inr (.inr (.inr ⟨hst, by simpa using foreign, st⟩)))
  · cases h

/-! ### The moves of `MATCH` -/

/-- The moves of `MATCH` (`43_vpw_receiver.md` R171, `44_vpw_transmitter.md` R192 to R198, R202). -/
def MatchMove (c : Chan) (s t : State) : Prop :=
  ((s.ch c).st = .receiving ∧ (t.ch c).st = .idle) ∨
  ((s.ch c).st = .txArmed ∧ (s.ch c).busIn = .active ∧ (t.ch c).st = .txWaitIfs) ∨
  (((s.ch c).st = .txArmed ∨ (s.ch c).st = .txWaitIfs) ∧ (s.ch c).busIn = .passive ∧ (t.ch c).st = .txSending) ∨
  ((s.ch c).st = .txSending ∧ (t.ch c).st = .idle ∧
    ((s.cfg.contentionSampleAtMatch = true ∧ (s.ch c).busIn ≠ (s.ch c).drive) ∨
      ∃ v, cellValue (.len (.txq c) (s.ch c).txq.start) s = some v ∧ v.toNat ≤ (s.ch c).byteIdx))

theorem matchReceiving_st (h : matchReceiving c s = .next t) : (t.ch c).st = .idle := by
  have idle : ((s.setCh c { s.ch c with st := .idle }).ch c).st = .idle := by rw [setCh_ch_same]
  simp only [matchReceiving] at h
  split at h
  · cases h
    exact idle
  · obtain ⟨ok, -, h⟩ := andThen_eq_next.mp h
    split at h
    · obtain ⟨b, -, h⟩ := andThen_eq_next.mp h
      split at h
      · obtain ⟨r, hr, h⟩ := andThen_eq_next.mp h
        cases h
        exact ((qCommit_sameRegs hr).st c).trans idle
      · cases h
        exact idle
    · cases h
      exact idle

theorem matchWaiting_st (h : matchWaiting c s = .next t) :
    (s.ch c).busIn = .active ∧ (t.ch c).st = .txWaitIfs ∨ (s.ch c).busIn = .passive ∧ (t.ch c).st = .txSending := by
  unfold matchWaiting at h
  split at h
  · rename_i busy
    exact .inl ⟨(eq_otherLevel_of_ne busy).symm, by rw [armUnit_st h, setCh_ch_same]⟩
  · rename_i quiet
    obtain ⟨u, -, h⟩ := andThen_eq_next.mp h
    cases h
    exact .inr ⟨not_not.mp quiet, by rw [setCh_ch_same]⟩

theorem sendBit_st (h : sendBit c s = .next t) : (t.ch c).st = (s.ch c).st := by
  obtain ⟨b, -, h⟩ := andThen_eq_next.mp h
  obtain ⟨u, hu, h⟩ := andThen_eq_next.mp h
  split at h <;> cases h <;> rw [setCh_ch_same, armUnit_st hu]

theorem endSend_st (h : endSend c s = .next t) : (t.ch c).st = .idle := by
  obtain ⟨u, -, h⟩ := andThen_eq_next.mp h
  cases h
  rw [setCh_ch_same]

theorem matchSending_st (h : matchSending c s = .next t) :
    (t.ch c).st = (s.ch c).st ∨ (t.ch c).st = .idle ∧
      ((s.cfg.contentionSampleAtMatch = true ∧ (s.ch c).busIn ≠ (s.ch c).drive) ∨
        ∃ v, cellValue (.len (.txq c) (s.ch c).txq.start) s = some v ∧ v.toNat ≤ (s.ch c).byteIdx) := by
  unfold matchSending at h
  split at h
  · exact .inr ⟨contention_st h, .inl ‹_›⟩
  · simp only [setCh_ch_same, readLen_setCh] at h
    obtain ⟨n, hn, h⟩ := andThen_eq_next.mp h
    obtain ⟨-, v, hv, rfl⟩ := readLen_eq_next.mp hn
    split at h
    · exact .inl ((sendBit_st h).trans (by rw [setCh_ch_same]))
    · exact .inr ⟨endSend_st h, .inr ⟨v, hv, not_lt.mp ‹_›⟩⟩

/-- `MATCH`: the arm of each state of the protocol, after the disarming. -/
theorem matchOp_move (h : matchOp c s = .next t) (hne : (t.ch c).st ≠ (s.ch c).st) : MatchMove c s t := by
  have same : ((disarmUnit c s).ch c).st = (s.ch c).st := by rw [disarmUnit_eq, setCh_ch_same]
  unfold matchOp at h
  split at h
  · cases hst : (s.ch c).st <;> simp only [hst] at h
    case idle | sofWait =>
      cases h
      exact absurd same hne
    case receiving => exact .inl ⟨hst, matchReceiving_st h⟩
    case txArmed =>
      rcases matchWaiting_st h with ⟨bus, st⟩ | ⟨bus, st⟩
      · exact .inr (.inl ⟨hst, by simpa using bus, st⟩)
      · exact .inr (.inr (.inl ⟨.inl hst, by simpa using bus, st⟩))
    case txWaitIfs =>
      rcases matchWaiting_st h with ⟨bus, st⟩ | ⟨bus, st⟩
      · exact absurd (st.trans hst.symm) hne
      · exact .inr (.inr (.inl ⟨.inr hst, by simpa using bus, st⟩))
    case txSending =>
      obtain ⟨st, why⟩ := (matchSending_st h).resolve_left (by rwa [same])
      exact .inr (.inr (.inr ⟨hst, st, by simpa using why⟩))
  · cases h

/-! ### Every operation -/

/-- An interrupt operation that moves channel `c` is one of channel `c`. -/
theorem OwnWrites.chan_eq (h : OwnWrites d s t) (hne : (t.ch c).st ≠ (s.ch c).st) : d = c := by
  by_contra hd
  exact hne (by rw [h.ch_other (Ne.symm hd)])

/-- Settles O15: each operation by the state it leads to from each state; five of the ten write no protocol state. -/
theorem protocolMovesAreTheListedOnes : Obligations.ProtocolMovesAreTheListedOnes := by
  intro c i s t hi h hne
  cases i
  case tick => exact absurd (execTick_st h c) hne
  case xfer rx => exact absurd (by rw [execXfer_ch h c]) hne
  case dispatch => exact absurd ((execDispatch_keepsRegs s t h).st c) hne
  case linktimeout | setinputs =>
    cases h
    exact absurd (by cases c <;> rfl) hne
  case reset =>
    cases h
    exact .inl ⟨rfl, by cases c <;> rfl⟩
  case housekeep => exact .inr (.inl ⟨.inl rfl, execHousekeep_move h hne⟩)
  case sendreq d =>
    obtain rfl := (execSendreq_writesOnly d s t h).chan_eq hne
    exact .inr (.inl ⟨.inr rfl, execSendreq_move h⟩)
  case edge d lvl =>
    obtain rfl := (edgeOp_writesOnly d lvl s t h).chan_eq hne
    exact .inr (.inr (.inl ⟨lvl, rfl, edgeOp_move h hne⟩))
  case timerMatch d =>
    obtain rfl := (matchOp_writesOnly d s t h).chan_eq hne
    exact .inr (.inr (.inr ⟨rfl, matchOp_move h hne⟩))
  all_goals cases hi

end Sys2Proof.Machine
end

section
/-! PROOFS. The transport rings: what a store, a push and a pop make of a ring's bytes, and the byte exchange (`45_transport_ring.md` R221 to R227). -/

namespace Sys2Proof.Machine

variable {s t : State} {r r' : RingId} {b : Byte}

/-! ### What leaves the buffered bytes alone -/

theorem ringFull_eq_true : ringFull r s = true ↔ ((s.ring r).stop + 1) % ringSize s.cfg r = (s.ring r).start := isFull_eq_true

theorem ringFull_eq_false : ringFull r s = false ↔ ((s.ring r).stop + 1) % ringSize s.cfg r ≠ (s.ring r).start := isFull_eq_false

theorem ringBytes_of_empty (hr : RingInv r s) (he : ringEmpty r s = true) : ringBytes r s = [] := by
  rw [ringBytes, ringCount, (count_eq_zero_iff hr.start_lt hr.stop_lt).mpr he, List.range_zero, List.map_nil]

/-- The bytes of a ring are read from its pointers and the storage alone. -/
theorem ringBytes_of_mem (hp : t.ring r = s.ring r) (hc : t.cfg = s.cfg) (hm : t.mem = s.mem) : ringBytes r t = ringBytes r s := by
  have cell : ∀ k, cellValue (.ring r k) t = cellValue (.ring r k) s := fun _ => cellValue_of_mem hm
  simp only [ringBytes, ringCount, hp, hc, cell]

@[simp] theorem ringBytes_raiseFault (r : RingId) (s : State) (e : Raised) : ringBytes r (raiseFault e s) = ringBytes r s :=
  ringBytes_of_mem (raiseFault_ring s e r) rfl rfl

@[simp] theorem ringBytes_setResult (r : RingId) (s : State) (v : Result) : ringBytes r (s.setResult v) = ringBytes r s :=
  ringBytes_of_mem (setResult_ring s v r) rfl rfl

@[simp] theorem ringBytes_setSdr (r : RingId) (s : State) (v : Byte) : ringBytes r { s with sdr := v } = ringBytes r s :=
  ringBytes_of_mem (by cases r <;> rfl) rfl rfl

@[simp] theorem cellValue_setSdr (x : CellId) (s : State) (v : Byte) : cellValue x { s with sdr := v } = cellValue x s := rfl

/-! ### A byte stored at `end` -/

/-- `s` with `b` in the cell at `end` of ring `r` and `end` advanced. -/
def ringStored (r : RingId) (b : Byte) (s : State) : State :=
  (s.setMem (s.mem.write (cellKey (.ring r (s.ring r).stop)) b)).setRing r
    { s.ring r with stop := nextIndex (ringSize s.cfg r) (s.ring r).stop }

theorem RingInv.ringStore_eq (hr : RingInv r s) (b : Byte) : ringStore r b s = .next (ringStored r b s) :=
  ringStore_eq_next.mpr ⟨cellExists_ring hr.stop_lt, rfl⟩

theorem RingInv.cellValue_ringStored {x : CellId} (hr : RingInv r s) (hx : cellExists s.cfg x = true) :
    cellValue x (ringStored r b s) = if x = .ring r (s.ring r).stop then some b else cellValue x s :=
  cellValue_store (cellExists_ring hr.stop_lt) hx

theorem RingInv.cellValue_ringStored_other {x : CellId} (hr : RingInv r s) (hx : cellExists s.cfg x = true)
    (ne : x ≠ .ring r (s.ring r).stop) : cellValue x (ringStored r b s) = cellValue x s := by
  rw [hr.cellValue_ringStored hx, if_neg ne]

/-- The cell at `end` holds no buffered byte, so a store there with room is an append (R221 to R223). -/
theorem RingInv.ringBytes_ringStored (hr : RingInv r s) (room : ringFull r s = false) (b : Byte) :
    ringBytes r (ringStored r b s) = ringBytes r s ++ [some b] := by
  refine ringBytes_push hr.start_lt hr.stop_lt room rfl (setRing_ring_same _ _ _) ?_ fun k hk held => ?_
  · rw [hr.cellValue_ringStored (cellExists_ring hr.stop_lt), if_pos rfl]
  · refine hr.cellValue_ringStored_other (cellExists_ring hk) fun at_end => ?_
    obtain ⟨-, rfl⟩ := CellId.ring.inj at_end
    exact not_holds_stop _ held

/-! ### The oldest byte taken -/

/-- `s` with `start` of ring `r` advanced. -/
def ringTaken (r : RingId) (s : State) : State :=
  s.setRing r { s.ring r with start := nextIndex (ringSize s.cfg r) (s.ring r).start }

theorem RingInv.taken (hr : RingInv r s) (hne : ringEmpty r s = false) : RingInv r (ringTaken r s) :=
  ringInv_pop hr hne (setRing_ring_same _ _ _) rfl rfl

theorem RingInv.ringBytes_ringTaken (hr : RingInv r s) (hne : ringEmpty r s = false) :
    ringBytes r (ringTaken r s) = (ringBytes r s).tail ∧ (ringBytes r s).head? = some (cellValue (.ring r (s.ring r).start) s) :=
  ringBytes_pop (t := ringTaken r s) hr.start_lt hr.stop_lt hne rfl rfl (setRing_ring_same _ _ _)

/-- A ring that is not empty has a written byte at `start`, its oldest, and a pop answers that byte. -/
theorem RingInv.ringPop_eq (hr : RingInv r s) (hne : ringEmpty r s = false) :
    ∃ b, (ringBytes r s).head? = some (some b) ∧ ringPop r s = .next (b, ringTaken r s) := by
  obtain ⟨b, hb⟩ := Option.isSome_iff_exists.mp (hr.cells _ hr.start_lt (holds_start hne))
  obtain ⟨-, first⟩ := hr.ringBytes_ringTaken hne
  exact ⟨b, by rw [first, hb], ringPop_eq_next.mpr ⟨hne, cellExists_ring hr.start_lt, hb, rfl⟩⟩

theorem ringBytes_ringTaken_other (h : r' ≠ r) (s : State) : ringBytes r' (ringTaken r s) = ringBytes r' s :=
  ringBytes_of_mem (by rw [ringTaken, setRing_ring, if_neg h]) rfl rfl

theorem ringPop_of_empty (he : ringEmpty r s = true) : ringPop r s = .refused .emptyRing := if_pos he

/-! ### `RING_POP` (R224) -/

theorem exec_ringPop (r : RingId) (s : State) : exec (.ringPop r) s = (ringPop r s).andThen fun p => .next (p.2.setResult (.byte p.1)) := rfl

/-- Settles O48: the byte at `start` is the oldest, and `start` moves past it. -/
theorem popServesTheOldestByte : Obligations.PopServesTheOldestByte := by
  intro r s hr
  refine ⟨fun he => by rw [exec_ringPop, ringPop_of_empty he, andThen_refused], fun hne => ?_⟩
  obtain ⟨b, oldest, pop⟩ := hr.ringPop_eq hne
  refine ⟨b, (ringTaken r s).setResult (.byte b), oldest, by rw [exec_ringPop, pop, andThen_next], ?_, rfl⟩
  obtain ⟨tail, -⟩ := hr.ringBytes_ringTaken hne
  rw [ringBytes_setResult, tail]

/-! ### `RING_PUSH_OUT` (R223) -/

/-- The outcome of an outbound push, with the bytes it leaves: dropped on a full ring, else stored. -/
theorem afterPushOut_cases (b : Byte) (s : State) :
    (ringFull .ringOut s = true ∧ afterPushOut b s = raiseFault (.transportOverflow .ringOut) s ∧ pushedOut b s = ringBytes .ringOut s) ∨
    (ringFull .ringOut s = false ∧ afterPushOut b s = ringStored .ringOut b s ∧ pushedOut b s = ringBytes .ringOut s ++ [some b]) := by
  cases full : ringFull .ringOut s with
  | true => exact .inl ⟨rfl, if_pos (ringFull_eq_true.mp full), if_pos (ringFull_eq_true.mp full)⟩
  | false => exact .inr ⟨rfl, if_neg (ringFull_eq_false.mp full), if_neg (ringFull_eq_false.mp full)⟩

/-- Settles O47: a push is dropped, or stored behind the buffered bytes. -/
theorem outboundPushDropsTheNewestWhenFull : Obligations.OutboundPushDropsTheNewestWhenFull := by
  intro b s _ hr
  obtain ⟨full, after, bytes⟩ | ⟨room, after, bytes⟩ := afterPushOut_cases b s
  · exact ⟨_, pushOut_eq_next.mpr (.inl ⟨full, rfl⟩), after.symm, by rw [bytes, ringBytes_raiseFault], fun x _ _ => cellValue_raiseFault x s _⟩
  · exact ⟨_, pushOut_eq_next.mpr (.inr ⟨room, hr.ringStore_eq b⟩), after.symm, by rw [bytes, hr.ringBytes_ringStored room],
      fun _ hx ne => hr.cellValue_ringStored_other hx ne⟩

/-! ### `RING_PUSH_IN` (R221, R222) -/

/-- `s` with the overflow of `ring_in` recorded and its oldest byte evicted (R221). -/
def evictedIn (s : State) : State := ringTaken .ringIn (raiseFault (.transportOverflow .ringIn) s)

/-- The outcome of an inbound push, with the bytes it leaves: stored, dropped, or stored after an eviction. -/
theorem afterPushIn_cases (b : Byte) (s : State) :
    (ringFull .ringIn s = false ∧ afterPushIn b s = ringStored .ringIn b s ∧ pushedIn b s = ringBytes .ringIn s ++ [some b]) ∨
    ((ringFull .ringIn s = true ∧ s.cfg.inboundPolicy = .dropNewest) ∧
      afterPushIn b s = raiseFault (.transportOverflow .ringIn) s ∧ pushedIn b s = ringBytes .ringIn s) ∨
    ((ringFull .ringIn s = true ∧ s.cfg.inboundPolicy = .dropOldest) ∧
      afterPushIn b s = ringStored .ringIn b (evictedIn s) ∧ pushedIn b s = (ringBytes .ringIn s).tail ++ [some b]) := by
  cases full : ringFull .ringIn s with
  | false => exact .inl ⟨rfl, if_neg (ringFull_eq_false.mp full), if_neg (ringFull_eq_false.mp full)⟩
  | true =>
    have isFull : (s.ringIn.stop + 1) % s.cfg.ringInSize = s.ringIn.start := ringFull_eq_true.mp full
    cases policy : s.cfg.inboundPolicy with
    | dropNewest =>
      refine .inr (.inl ⟨⟨rfl, rfl⟩, ?_, ?_⟩)
      · rw [afterPushIn, if_pos isFull, policy, raiseFault]
      · rw [pushedIn, if_pos isFull, policy]
    | dropOldest =>
      refine .inr (.inr ⟨⟨rfl, rfl⟩, ?_, ?_⟩)
      · rw [afterPushIn, if_pos isFull, policy]
        rfl
      · rw [pushedIn, if_pos isFull, policy]

/-- The eviction from a full ring of two or more cells leaves the ring sound, without its oldest byte and with room. -/
theorem RingInv.evicted (hr : RingInv .ringIn s) (hw : s.cfg.wf = true) (full : ringFull .ringIn s = true) :
    RingInv .ringIn (evictedIn s) ∧ ringFull .ringIn (evictedIn s) = false ∧ ringBytes .ringIn (evictedIn s) = (ringBytes .ringIn s).tail := by
  have logged : RingInv .ringIn (raiseFault (.transportOverflow .ringIn) s) := ringInv_congr hr rfl rfl (keepsWritten_of_mem rfl)
  obtain ⟨hne, room⟩ := room_of_evict (Config.wf_ringSize hw .ringIn) hr.start_lt hr.stop_lt full
  obtain ⟨tail, -⟩ := logged.ringBytes_ringTaken hne
  exact ⟨logged.taken hne, room, by rw [evictedIn, tail, ringBytes_raiseFault]⟩

theorem RingInv.pushIn_eq (hr : RingInv .ringIn s) (hw : s.cfg.wf = true) (b : Byte) : pushIn b s = .next (afterPushIn b s) := by
  rw [pushIn_eq_next]
  obtain ⟨room, after, -⟩ | ⟨⟨full, policy⟩, after, -⟩ | ⟨⟨full, policy⟩, after, -⟩ := afterPushIn_cases b s
  · exact .inl ⟨room, by rw [after, hr.ringStore_eq]⟩
  · exact .inr (.inl ⟨full, policy, after⟩)
  · exact .inr (.inr ⟨full, policy, by rw [after]; exact (hr.evicted hw full).1.ringStore_eq b⟩)

theorem RingInv.ringBytes_afterPushIn (hr : RingInv .ringIn s) (hw : s.cfg.wf = true) (b : Byte) :
    ringBytes .ringIn (afterPushIn b s) = pushedIn b s := by
  obtain ⟨room, after, bytes⟩ | ⟨-, after, bytes⟩ | ⟨⟨full, -⟩, after, bytes⟩ := afterPushIn_cases b s
  · rw [after, bytes, hr.ringBytes_ringStored room]
  · rw [after, bytes, ringBytes_raiseFault]
  · obtain ⟨evicted, room, tail⟩ := hr.evicted hw full
    rw [after, bytes, evicted.ringBytes_ringStored room, tail]

/-- An inbound push stores to the cell at `end` and to no other, whatever the policy. -/
theorem RingInv.cellValue_afterPushIn {x : CellId} (hr : RingInv .ringIn s) (hw : s.cfg.wf = true) (hx : cellExists s.cfg x = true)
    (ne : x ≠ .ring .ringIn s.ringIn.stop) : cellValue x (afterPushIn b s) = cellValue x s := by
  obtain ⟨-, after, -⟩ | ⟨-, after, -⟩ | ⟨⟨full, -⟩, after, -⟩ := afterPushIn_cases b s
  · rw [after, hr.cellValue_ringStored_other hx ne]
  · rw [after, cellValue_raiseFault]
  · rw [after]
    exact (hr.evicted hw full).1.cellValue_ringStored_other hx ne

/-- Settles O46: the three outcomes of an inbound push. -/
theorem inboundPushFollowsThePolicy : Obligations.InboundPushFollowsThePolicy := fun b _ hw hr =>
  ⟨_, hr.pushIn_eq hw b, rfl, hr.ringBytes_afterPushIn hw b, fun _ hx ne => hr.cellValue_afterPushIn hw hx ne⟩

/-! ### The byte exchange (R225 to R227) -/

/-- `s` after the first half of an exchange: the received byte is pushed and the link is active. -/
def received (rx : Byte) (s : State) : State := { afterPushIn rx s with linkActive := true }

/-- The push does not read the link's state. -/
theorem afterPushIn_linkActive (rx : Byte) (s : State) : afterPushIn rx { s with linkActive := true } = received rx s := by
  unfold received afterPushIn
  dsimp only
  split
  · cases s.cfg.inboundPolicy <;> rfl
  · rfl

theorem afterPushIn_ringWrites (rx : Byte) (s : State) : RingWrites s (afterPushIn rx s) := by
  obtain ⟨-, after, -⟩ | ⟨-, after, -⟩ | ⟨-, after, -⟩ := afterPushIn_cases rx s <;> rw [after] <;> rfl

theorem received_cfg (rx : Byte) (s : State) : (received rx s).cfg = s.cfg := by
  rw [received, afterPushIn_ringWrites rx s]

theorem received_sdr (rx : Byte) (s : State) : (received rx s).sdr = s.sdr := by
  rw [received, afterPushIn_ringWrites rx s]

theorem received_ringOut (rx : Byte) (s : State) : (received rx s).ringOut = s.ringOut := by
  obtain ⟨-, after, -⟩ | ⟨-, after, -⟩ | ⟨-, after, -⟩ := afterPushIn_cases rx s <;> rw [received, after] <;> rfl

theorem received_keepsWritten (rx : Byte) (s : State) : KeepsWritten s (received rx s) := by
  obtain ⟨-, after, -⟩ | ⟨-, after, -⟩ | ⟨-, after, -⟩ := afterPushIn_cases rx s <;> rw [received, after]
  · exact keepsWritten_of_write rfl
  · exact keepsWritten_of_mem rfl
  · exact keepsWritten_of_write rfl

theorem RingInv.afterReceived (hr : RingInv .ringOut s) (rx : Byte) : RingInv .ringOut (received rx s) :=
  ringInv_congr hr (received_ringOut rx s) (received_cfg rx s) (received_keepsWritten rx s)

theorem ringEmpty_received (rx : Byte) (s : State) : ringEmpty .ringOut (received rx s) = ringEmpty .ringOut s := by
  rw [ringEmpty, ring_out, received_ringOut]
  rfl

/-- The received byte is stored in `ring_in`, so the bytes to be sent are the same. -/
theorem RingInv.ringBytes_received (hin : RingInv .ringIn s) (hout : RingInv .ringOut s) (hw : s.cfg.wf = true) (rx : Byte) :
    ringBytes .ringIn (received rx s) = pushedIn rx s ∧ ringBytes .ringOut (received rx s) = ringBytes .ringOut s := by
  refine ⟨(ringBytes_of_mem rfl rfl rfl).trans (hin.ringBytes_afterPushIn hw rx),
    ringBytes_congr hout.start_lt hout.stop_lt (received_ringOut rx s) (received_cfg rx s) fun k hk _ => ?_⟩
  exact hin.cellValue_afterPushIn hw (cellExists_ring hk) (by simp)

theorem exec_xfer (hin : RingInv .ringIn s) (hw : s.cfg.wf = true) (rx : Byte) :
    exec (.xfer rx) s = (reloadSdr (received rx s)).andThen fun u => .next (u.setResult (.byte s.sdr)) := by
  have linked : RingInv .ringIn { s with linkActive := true } := ringInv_congr hin rfl rfl (keepsWritten_of_mem rfl)
  show (pushIn rx { s with linkActive := true }).andThen _ = _
  rw [linked.pushIn_eq hw, afterPushIn_linkActive, andThen_next]

theorem reloadSdr_of_empty (he : ringEmpty .ringOut s = true) : reloadSdr s = .next (raiseFault .transportUnderflow s) := if_pos he

/-- The reload from a ring that is not empty takes its oldest byte. -/
theorem RingInv.reloadSdr_eq (hr : RingInv .ringOut s) (hne : ringEmpty .ringOut s = false) :
    ∃ b, (ringBytes .ringOut s).head? = some (some b) ∧ reloadSdr s = .next { ringTaken .ringOut s with sdr := b } := by
  obtain ⟨b, oldest, pop⟩ := hr.ringPop_eq hne
  refine ⟨b, oldest, ?_⟩
  rw [reloadSdr, if_neg (Bool.eq_false_iff.mp hne), pop, andThen_next]

/-- Settles O49: the push into `ring_in`, then the reload from `ring_out`, which underflows or takes the oldest byte. -/
theorem exchangeMovesOneByteEachWay : Obligations.ExchangeMovesOneByteEachWay := by
  intro rx s hw hin hout
  obtain ⟨bytesIn, bytesOut⟩ := hin.ringBytes_received hout hw rx
  have cells : ∀ x, cellExists s.cfg x = true → x ≠ .ring .ringIn s.ringIn.stop → cellValue x (received rx s) = cellValue x s :=
    fun x hx ne => hin.cellValue_afterPushIn hw hx ne
  cases empty : ringEmpty .ringOut s with
  | true =>
    refine ⟨(raiseFault .transportUnderflow (received rx s)).setResult (.byte s.sdr), ?run, setResult_result _ _, ?inbound, ?outbound,
      fun _ => ?sdr, fun h => absurd h.symm Bool.false_ne_true, ?whole, fun x hx ne => ?cells⟩
    case run => rw [exec_xfer hin hw, reloadSdr_of_empty ((ringEmpty_received rx s).trans empty), andThen_next]
    case inbound => rw [ringBytes_setResult, ringBytes_raiseFault, bytesIn]
    case outbound => rw [ringBytes_setResult, ringBytes_raiseFault, bytesOut, ringBytes_of_empty hout empty, List.tail_nil]
    case sdr => rw [setResult_sdr, raiseFault_sdr, received_sdr]
    case cells => rw [cellValue_setResult, cellValue_raiseFault, cells x hx ne]
    case whole =>
      rw [if_pos rfl, if_pos rfl, ← received_ringOut rx s, received]
      generalize afterPushIn rx s = pushed
      rfl
  | false =>
    have ready : RingInv .ringOut (received rx s) := hout.afterReceived rx
    have notEmpty := (ringEmpty_received rx s).trans empty
    obtain ⟨b, oldest, reload⟩ := ready.reloadSdr_eq notEmpty
    obtain ⟨tail, -⟩ := ready.ringBytes_ringTaken notEmpty
    refine ⟨State.setResult { ringTaken .ringOut (received rx s) with sdr := b } (.byte s.sdr), ?run, setResult_result _ _, ?inbound, ?outbound,
      fun h => absurd h Bool.false_ne_true, fun _ => ?sdr, ?whole, fun x hx ne => ?cells⟩
    case run => rw [exec_xfer hin hw, reload, andThen_next]
    case inbound => rw [ringBytes_setResult, ringBytes_setSdr, ringBytes_ringTaken_other (by decide), bytesIn]
    case outbound => rw [ringBytes_setResult, ringBytes_setSdr, tail, bytesOut]
    case sdr => rw [setResult_sdr, ← bytesOut, oldest]
    case cells => rw [cellValue_setResult, cellValue_setSdr, ringTaken, cellValue_setRing, cells x hx ne]
    case whole =>
      rw [if_neg Bool.false_ne_true, if_neg Bool.false_ne_true, ← received_ringOut rx s, ← received_cfg rx s, received]
      generalize afterPushIn rx s = pushed
      rfl

end Sys2Proof.Machine
end

section
/-! PROOFS. The dispatcher: the inbound byte taken, the commands, and the sessions that take one byte each (`46_dispatcher.md` R240 to R251, R253). -/

namespace Sys2Proof.Machine

variable {c : Chan} {s : State} {b : Byte} {i : Instr}

/-! ### The inbound byte (R240) -/

@[simp] theorem takenIn_cfg (s : State) : (takenIn s).cfg = s.cfg := rfl
@[simp] theorem takenIn_mem (s : State) : (takenIn s).mem = s.mem := rfl
@[simp] theorem takenIn_sess (s : State) : (takenIn s).sess = s.sess := rfl
@[simp] theorem takenIn_ch (s : State) (c : Chan) : (takenIn s).ch c = s.ch c := by cases c <;> rfl
@[simp] theorem takenIn_queue (s : State) (q : QueueId) : (takenIn s).queue q = s.queue q := by
  rcases q with c | c <;> cases c <;> rfl

/-- The oldest byte of `ring_in` is `b`. -/
structure InboundByte (b : Byte) (s : State) : Prop where
  nonempty : s.ringIn.start ≠ s.ringIn.stop
  start_lt : s.ringIn.start < s.cfg.ringInSize
  cell : cellValue (.ring .ringIn s.ringIn.start) s = some b

theorem InboundByte.takeInbound_eq (hb : InboundByte b s) (use : Byte → State → Res State) : takeInbound use s = use b (takenIn s) := by
  have some_there : ringEmpty .ringIn s = false := isEmpty_eq_false.mpr hb.nonempty
  have pop : ringPop .ringIn s = .next (b, takenIn s) :=
    ringPop_eq_next.mpr ⟨some_there, cellExists_ring hb.start_lt, hb.cell, rfl⟩
  rw [takeInbound, if_neg (Bool.eq_false_iff.mp some_there), pop, andThen_next]

theorem exec_dispatch (s : State) : exec .dispatch s = execDispatch s := rfl

theorem InboundByte.exec_dispatch_idle (hb : InboundByte b s) (h : s.sess = .idle) : exec .dispatch s = commandStep b (takenIn s) := by
  rw [exec_dispatch, execDispatch, h]
  exact hb.takeInbound_eq commandStep

theorem InboundByte.exec_dispatch_filterLoad (hb : InboundByte b s) (h : s.sess = .filterLoad) :
    exec .dispatch s = filterLoadStep b (takenIn s) := by
  rw [exec_dispatch, execDispatch, h]
  exact hb.takeInbound_eq filterLoadStep

theorem InboundByte.exec_dispatch_txLen (hb : InboundByte b s) (h : s.sess = .txLen c) :
    exec .dispatch s = txLenStep c b (takenIn s) := by
  rw [exec_dispatch, execDispatch, h]
  exact hb.takeInbound_eq (txLenStep c)

theorem InboundByte.exec_dispatch_txData {idx len : Nat} (hb : InboundByte b s) (h : s.sess = .txData c idx len) :
    exec .dispatch s = txDataStep c idx len b (takenIn s) := by
  rw [exec_dispatch, execDispatch, h]
  exact hb.takeInbound_eq (txDataStep c idx len)

theorem exec_dispatch_popSend {idx rem : Nat} (h : s.sess = .popSend c idx rem) : exec .dispatch s = popSendStep c idx rem s := by
  rw [exec_dispatch, execDispatch, h]

/-! ### Commands (R241, R248) -/

/-- The command table, read by the decoder and by the dispatcher. -/
theorem exec_decodeCommand (b : Byte) (s : State) : exec (decodeCommand b) s = commandStep b s := by
  unfold decodeCommand commandStep
  split_ifs <;> rfl

theorem isCommandByte_eq_true : isCommandByte b = true ↔ 1 ≤ b.toNat ∧ b.toNat ≤ 8 := by simp [isCommandByte]

theorem isCommandByte_eq_false : isCommandByte b = false ↔ b.toNat = 0 ∨ 9 ≤ b.toNat := by
  rw [← Bool.not_eq_true, isCommandByte_eq_true]
  omega

theorem decodeCommand_mem_commands (h : isCommandByte b = true) : decodeCommand b ∈ commands := by
  rw [isCommandByte_eq_true] at h
  unfold decodeCommand
  split_ifs with h1 h2 h3 h4 h5 h6 h7 h8
  case neg => bv_omega
  all_goals simp [commands]

theorem asCommand_of_idle (body : State → Res State) (h : s.sess = .idle) : asCommand body s = body s := by rw [asCommand, h]

/-- A command that only updates the state. -/
theorem asCommand_next_of_idle (f : State → State) (h : s.sess = .idle) : asCommand (fun u => .next (f u)) s = .next (f s) :=
  asCommand_of_idle _ h

/-- A command ends the load: it runs with the staged filter active and the session closed. -/
theorem asCommand_of_filterLoad (body : State → Res State) (h : s.sess = .filterLoad) :
    asCommand body s = asCommand body { s with filtActive := s.filtStage, sess := .idle } := by
  rw [asCommand, h]
  rfl

theorem exec_command_of_filterLoad (hi : i ∈ commands) (h : s.sess = .filterLoad) :
    exec i s = exec i { s with filtActive := s.filtStage, sess := .idle } := by
  obtain ⟨body, isCommand⟩ := exec_eq_asCommand hi
  rw [isCommand, isCommand, asCommand_of_filterLoad body h]

/-- Settles O50: the byte is the one at `start`, and the decoder and the dispatcher read one command table. -/
theorem dispatchRunsTheCommandRead : Obligations.DispatchRunsTheCommandRead := by
  intro b s nonempty start_lt cell idle
  have inbound : InboundByte b s := ⟨nonempty, start_lt, cell⟩
  rw [inbound.exec_dispatch_idle idle, exec_decodeCommand]

/-- Settles O55: by whether the byte is a command. -/
theorem filterLoadEndsAtACommand : Obligations.FilterLoadEndsAtACommand := by
  intro i b s load
  refine ⟨fun hi => exec_command_of_filterLoad hi load, fun nonempty start_lt cell => ?_⟩
  have inbound : InboundByte b s := ⟨nonempty, start_lt, cell⟩
  refine ⟨fun ge le => ?_, fun ignored => ?_⟩
  · have command : isCommandByte b = true := isCommandByte_eq_true.mpr ⟨ge, le⟩
    rw [inbound.exec_dispatch_filterLoad load, filterLoadStep, if_pos command, ← exec_decodeCommand]
    exact exec_command_of_filterLoad (s := takenIn s) (decodeCommand_mem_commands command) load
  · have entry : isCommandByte b = false := isCommandByte_eq_false.mpr ignored
    rw [inbound.exec_dispatch_filterLoad load, filterLoadStep, if_neg (Bool.eq_false_iff.mp entry), filterAppend_eq]
    rfl

/-! ### Commands without a response (R246, R247, R249, R253) -/

/-- Settles O54: each command runs its body on the state itself. -/
theorem silentCommandsDoAsStated : Obligations.SilentCommandsDoAsStated := by
  intro c v s idle
  refine ⟨?clrFilter, ?setFilter, ?tx, fun ignored => ?cmdIgnored⟩
  case clrFilter => exact asCommand_next_of_idle filterClear idle
  case setFilter => exact asCommand_next_of_idle (fun u => (filterBegin u).setSess .filterLoad) idle
  case tx =>
    cases c with
    | ch0 => exact asCommand_next_of_idle (fun u => u.setSess (.txLen .ch0)) idle
    | ch1 => exact asCommand_next_of_idle (fun u => u.setSess (.txLen .ch1)) idle
  case cmdIgnored =>
    show execCmdIgnored v s = _
    rw [execCmdIgnored, idle]
    exact if_neg (Bool.eq_false_iff.mp (isCommandByte_eq_false.mpr ignored))

/-! ### Responses (R242 to R244) -/

theorem exec_ringPushOut (b : Byte) (s : State) : exec (.ringPushOut b) s = pushOut b s := rfl

theorem powerByte_eq_ofNat (acc hp : Bool) :
    powerByte acc hp = BitVec.ofNat 8 ((if acc then 1 else 0) + (if hp then 2 else 0)) := by
  cases acc <;> cases hp <;> rfl

/-- Settles O51: both commands are the push of their byte. -/
theorem telemetryPushesOneByte : Obligations.TelemetryPushesOneByte := by
  intro s wf ring idle i b telemetry
  have isPush : exec i s = exec (.ringPushOut b) s := by
    rcases telemetry with ⟨rfl, rfl⟩ | ⟨rfl, rfl⟩
    · exact asCommand_of_idle _ idle
    · rw [exec_ringPushOut, ← powerByte_eq_ofNat]
      exact asCommand_of_idle _ idle
  obtain ⟨t, push, -, bytes, -⟩ := outboundPushDropsTheNewestWhenFull b s wf ring
  exact ⟨t, isPush.trans push, push, bytes, (pushOut_ringWrites push).sess.trans idle⟩

theorem exec_popRxOf (c : Chan) (h : s.sess = .idle) : exec (popRxOf c) s = popRx c s := by
  cases c <;> exact asCommand_of_idle _ h

/-- Settles O52: the status byte is pushed first, which leaves the length of the oldest frame as it was. -/
theorem popRxOpensTheSendSession : Obligations.PopRxOpensTheSendSession := by
  intro c s wf ring queue idle
  rw [exec_popRxOf c idle, popRx]
  refine ⟨fun empty => ?_, fun frame => ?_⟩
  · obtain ⟨t, push, -⟩ := outboundPushDropsTheNewestWhenFull 0x00#8 s wf ring
    exact ⟨t, by rw [if_pos empty]; exact push, push⟩
  · obtain ⟨t, push, -, -, kept⟩ := outboundPushDropsTheNewestWhenFull 0x01#8 s wf ring
    have writes : RingWrites s t := pushOut_ringWrites push
    have cfg : t.cfg = s.cfg := by rw [writes]
    have start : (t.queue (.rxq c)).start = (s.ch c).rxq.start := by rw [queue_rxq, writes.ch]
    have exists_len : cellExists s.cfg (.len (.rxq c) (s.ch c).rxq.start) = true := cellExists_len queue.start_lt
    obtain ⟨n, len, -⟩ := queue.frames _ queue.start_lt (holds_start frame)
    have read : readLen (.rxq c) (t.queue (.rxq c)).start t = .next n.toNat := by
      rw [start]
      exact readLen_eq_next.mpr ⟨by rw [cfg, exists_len], n, by rw [kept _ exists_len (by simp)]; exact len, rfl⟩
    refine ⟨t, n, len, push, ?_⟩
    rw [exec_ringPushOut] at push
    rw [if_neg (Bool.eq_false_iff.mp frame), push, andThen_next, read, andThen_next]
    rfl

/-! ### The session that sends a frame (R245) -/

/-- Settles O53: the byte is read and pushed; after the last the frame at the head is released. -/
theorem popSendPushesTheNextFrameByte : Obligations.PopSendPushesTheNextFrameByte := by
  intro c idx rem b s wf ring session start_lt nonempty idx_lt cell
  obtain ⟨t, push, -⟩ := outboundPushDropsTheNewestWhenFull b s wf ring
  refine ⟨t, push, ?_⟩
  have writes : RingWrites s t := pushOut_ringWrites push
  have cfg : t.cfg = s.cfg := by rw [writes]
  have read : memRead (.data (.rxq c) (s.queue (.rxq c)).start idx) s = .next b :=
    memRead_eq_next.mpr ⟨cellExists_data start_lt idx_lt, cell⟩
  have release : qRelease (.rxq c) t = .next (t.setCh c
      { s.ch c with rxq := { (s.ch c).rxq with start := ((s.ch c).rxq.start + 1) % s.cfg.rxqSlots } }) := by
    refine qRelease_eq_next.mpr ⟨isEmpty_eq_false.mpr (by rwa [queue_rxq, writes.ch]), ?_⟩
    rw [setQueue_rxq, queue_rxq, writes.ch, cfg]
    rfl
  rw [exec_ringPushOut] at push
  rw [exec_dispatch_popSend session, popSendStep, read, andThen_next, push, andThen_next]
  split
  · rw [release, andThen_next]
    rfl
  · rfl

/-! ### The length byte and the payload (R250, R251) -/

/-- Settles O56: by whether the length is one of a frame. -/
theorem lengthByteOpensTheDataSession : Obligations.LengthByteOpensTheDataSession := by
  intro c b s session nonempty start_lt cell ne_one
  have inbound : InboundByte b s := ⟨nonempty, start_lt, cell⟩
  rw [inbound.exec_dispatch_txLen session, txLenStep, if_neg ne_one]
  split <;> rfl

/-- The payload byte goes to the slot at `end` of the queue, before anything else. -/
theorem txDataStep_eq {idx len : Nat} (stop_lt : (s.ch c).txq.stop < s.cfg.txqSlots) (idx_lt : idx < 12) :
    txDataStep c idx len b s =
      if idx + 1 = len - 1 then txComplete c len (s.setMem (s.mem.write (cellKey (.data (.txq c) (s.ch c).txq.stop idx)) b))
      else .next ((s.setMem (s.mem.write (cellKey (.data (.txq c) (s.ch c).txq.stop idx)) b)).setSess (.txData c (idx + 1) len)) := by
  have staged : qStage (.txq c) idx b s = .next (s.setMem (s.mem.write (cellKey (.data (.txq c) (s.ch c).txq.stop idx)) b)) :=
    qStage_eq_next.mpr ⟨cellExists_data (q := .txq c) stop_lt idx_lt, rfl⟩
  rw [txDataStep, staged, andThen_next]

/-- Settles O57: the byte is staged and the session goes on. -/
theorem payloadBytesAreStaged : Obligations.PayloadBytesAreStaged := by
  intro c idx len b s session nonempty start_lt cell stop_lt more len_le
  have inbound : InboundByte b s := ⟨nonempty, start_lt, cell⟩
  rw [inbound.exec_dispatch_txData session, txDataStep_eq (by simpa using stop_lt) (by omega), if_neg (by omega), takenIn_ch]
  rfl

end Sys2Proof.Machine
end

section
/-! PROOFS. The completion of a TX command: the payload and its CRC become a frame of the transmit queue, or are dropped (`46_dispatcher.md` R252). -/

namespace Sys2Proof.Machine

variable {c : Chan} {s t u : State} {q r : QueueId} {b : Byte} {xs : List Byte}

/-! ### A byte staged behind the others (`41_frame_queue.md` R133) -/

/-- Staging at the index after the bytes of a slot appends to them. -/
theorem slotHolds_append {k : Nat} (hk : k < queueSize s.cfg q) (hx : xs.length < 12) (h : slotHolds q k xs s) (b : Byte) :
    slotHolds q k (xs ++ [b]) (s.setMem (s.mem.write (cellKey (.data q k xs.length)) b)) := by
  intro i hi
  rw [List.length_append, List.length_singleton] at hi
  rw [cellValue_store (cellExists_data hk hx) (cellExists_data hk (by omega))]
  rcases Nat.lt_succ_iff_lt_or_eq.mp hi with before | rfl
  · rw [if_neg fun same => before.ne (CellId.data.inj same).2.2, h i before, List.getElem?_append_left before]
  · rw [if_pos rfl, List.getElem?_concat_length]

/-- A store to a byte of the slot at `end` of queue `q` keeps every queue's invariant: no buffered slot lies there. -/
theorem QueueInv.store_data {i : Nat} (hQ : QueueInv r s) (hx : cellExists s.cfg (.data q (s.queue q).stop i) = true) (v : Byte) :
    QueueInv r (s.setMem (s.mem.write (cellKey (.data q (s.queue q).stop i)) v)) :=
  queueInv_congr hQ (setMem_queue _ _ _) rfl (keepsWritten_of_write rfl) (keepsLens_of_write hx (by simp) rfl r)

/-! ### The last byte of the command (R250, R251) -/

/-- Since state `s` the last inbound byte was taken and storage written, so that `xs` is staged in channel `c`'s transmit queue and no frame of any
queue has changed. -/
structure PayloadStaged (c : Chan) (xs : List Byte) (s u : State) : Prop where
  frame : u = (takenIn s).setMem u.mem
  queues : ∀ q, QueueInv q u
  frames : ∀ q, queueFrames q u = queueFrames q s
  staged : slotHolds (.txq c) (s.ch c).txq.stop xs u

theorem PayloadStaged.ch (h : PayloadStaged c xs s u) (d : Chan) : u.ch d = s.ch d := by rw [h.frame, setMem_ch, takenIn_ch]

theorem PayloadStaged.cfg (h : PayloadStaged c xs s u) : u.cfg = s.cfg := by rw [h.frame, setMem_cfg, takenIn_cfg]

/-- Taking the inbound byte touches no queue, so what is staged stays. -/
theorem payloadStaged_takenIn (hQ : ∀ q, QueueInv q s) (h : slotHolds (.txq c) (s.ch c).txq.stop xs s) : PayloadStaged c xs s (takenIn s) where
  frame := rfl
  queues q := queueInv_congr (hQ q) (takenIn_queue s q) rfl (keepsWritten_of_mem rfl) (keepsLens_of_mem rfl q)
  frames q := queueFrames_of_mem (takenIn_queue s q) rfl rfl
  staged := h

theorem PayloadStaged.stage (h : PayloadStaged c xs s u) (hx : xs.length < 12) (b : Byte) :
    PayloadStaged c (xs ++ [b]) s (u.setMem (u.mem.write (cellKey (.data (.txq c) (u.ch c).txq.stop xs.length)) b)) := by
  have stop_lt : (u.ch c).txq.stop < queueSize u.cfg (.txq c) := (h.queues (.txq c)).stop_lt
  have cell : cellExists u.cfg (.data (.txq c) (u.queue (.txq c)).stop xs.length) = true := cellExists_data stop_lt hx
  refine ⟨?_, fun q => (h.queues q).store_data cell b,
    fun q => (queueFrames_store_at_end (h.queues q) cell (.inr ⟨_, rfl⟩)).trans (h.frames q), ?_⟩
  · rw [h.frame]
    rfl
  · have staged := h.staged
    rw [← h.ch] at staged ⊢
    exact slotHolds_append stop_lt hx staged b

/-- Either form of the last byte completes the command on a state where the whole payload is staged. -/
theorem InboundByte.exec_dispatch_last (hb : InboundByte b s) (hQ : ∀ q, QueueInv q s)
    (last : (s.sess = .txLen c ∧ b.toNat = 1 ∧ xs = []) ∨
      (∃ ys, xs = ys ++ [b] ∧ ys.length ≤ 10 ∧ s.sess = .txData c ys.length (ys.length + 2) ∧ slotHolds (.txq c) (s.ch c).txq.stop ys s)) :
    xs.length ≤ 11 ∧ ∃ u, PayloadStaged c xs s u ∧ exec .dispatch s = txComplete c (xs.length + 1) u := by
  rcases last with ⟨session, one, rfl⟩ | ⟨ys, rfl, le, session, staged⟩
  · refine ⟨Nat.zero_le _, takenIn s, payloadStaged_takenIn hQ fun i hi => absurd hi (Nat.not_lt_zero i), ?_⟩
    rw [hb.exec_dispatch_txLen session, txLenStep, if_neg (by omega), if_pos one]
    rfl
  · have before := payloadStaged_takenIn hQ staged
    have stop_lt : ((takenIn s).ch c).txq.stop < (takenIn s).cfg.txqSlots := (before.queues (.txq c)).stop_lt
    rw [List.length_append, List.length_singleton]
    refine ⟨by omega, _, before.stage (by omega) b, ?_⟩
    rw [hb.exec_dispatch_txData session, txDataStep_eq stop_lt (by omega), if_pos (by omega)]

/-! ### The frame completed (R252) -/

/-- `s` with its storage replaced after a TX command of channel `c`: the session closed and `end` advanced, or with a full queue the overflow recorded. -/
def completed (c : Chan) (m : Memory) (s : State) : State :=
  ({ s with
      mem := m, sess := .idle
      raised := if ((s.ch c).txq.stop + 1) % s.cfg.txqSlots = (s.ch c).txq.start then .queueOverflow (.txq c) :: s.raised else s.raised } :
    State).setCh c
    { s.ch c with txq := { (s.ch c).txq with
        stop := if ((s.ch c).txq.stop + 1) % s.cfg.txqSlots = (s.ch c).txq.start then (s.ch c).txq.stop
          else ((s.ch c).txq.stop + 1) % s.cfg.txqSlots } }

/-- The commit of a TX frame, with the session closed, is one of the two outcomes of `completed`. -/
theorem qCommit_completed {n : Nat} {ok : Bool} (h : qCommit (.txq c) n s = .next (ok, t)) : t.setSess .idle = completed c t.mem s := by
  obtain ⟨-, ⟨full, -, rfl⟩ | ⟨room, -, -, rfl⟩⟩ := qCommit_eq_next.mp h
  · have full : ((s.ch c).txq.stop + 1) % s.cfg.txqSlots = (s.ch c).txq.start := queueFull_eq_true.mp full
    rw [completed, if_pos full, if_pos full]
    cases c <;> rfl
  · have room : ((s.ch c).txq.stop + 1) % s.cfg.txqSlots ≠ (s.ch c).txq.start := queueFull_eq_false.mp room
    rw [completed, if_neg room, if_neg room]
    cases c <;> rfl

theorem completed_setMem (c : Chan) (m n : Memory) (s : State) : completed c m (s.setMem n) = completed c m s := by
  cases c <;> rfl

theorem queueFrames_setSess (q : QueueId) (s : State) (v : Session) : queueFrames q (s.setSess v) = queueFrames q s :=
  queueFrames_of_mem (setSess_queue s v q) rfl rfl

/-- The CRC is staged behind the payload and the whole committed: the frame goes behind the others, or is dropped. -/
theorem txComplete_eq (hQ : ∀ q, QueueInv q s) (hx : xs.length ≤ 11) (h : slotHolds (.txq c) (s.ch c).txq.stop xs s) :
    ∃ t, txComplete c (xs.length + 1) s = .next t ∧ queueFrames (.txq c) t = withFrame (.txq c) (xs ++ [crc8 xs]) s ∧
      (∀ q, q ≠ .txq c → queueFrames q t = queueFrames q s) ∧ t = completed c t.mem s := by
  have stop_lt : (s.queue (.txq c)).stop < queueSize s.cfg (.txq c) := (hQ (.txq c)).stop_lt
  have cell : cellExists s.cfg (.data (.txq c) (s.queue (.txq c)).stop xs.length) = true := cellExists_data stop_lt (by omega)
  have read : readData (.txq c) (s.queue (.txq c)).stop xs.length s = .next xs := by
    rw [readData_of_slotHolds stop_lt h (by omega) le_rfl, List.take_length]
  have stage : qStage (.txq c) xs.length (crc8 xs) s = .next _ := qStage_eq_next.mpr ⟨cell, rfl⟩
  have staged : StagedSince (.txq c) s (xs ++ [crc8 xs])
      (s.setMem (s.mem.write (cellKey (.data (.txq c) (s.queue (.txq c)).stop xs.length)) (crc8 xs))) :=
    ⟨rfl, setMem_queue _ _ _, slotHolds_append stop_lt (by omega) h _, fun x hx other => by rw [cellValue_store cell hx, if_neg (other _)]⟩
  obtain ⟨⟨ok, t⟩, commit, -, frames⟩ := staged.commit (hQ (.txq c)) (by simp; omega)
  refine ⟨t.setSess .idle, ?run, by rw [queueFrames_setSess, frames], fun q other => ?others, ?whole⟩
  case run =>
    rw [List.length_append, List.length_singleton] at commit
    rw [txComplete, Nat.add_sub_cancel, read, andThen_next, stage, andThen_next, commit, andThen_next]
  case others =>
    rw [queueFrames_setSess, qCommit_frames_other commit ((hQ q).store_data cell _) other,
      queueFrames_store_at_end (hQ q) cell (.inr ⟨_, rfl⟩)]
  case whole => rw [qCommit_completed commit, completed_setMem]; rfl

theorem PayloadStaged.withFrame_eq (h : PayloadStaged c xs s u) (ys : List Byte) : withFrame (.txq c) ys u = withFrame (.txq c) ys s := by
  rw [withFrame, withFrame, queue_txq, queue_txq, h.ch, h.cfg, h.frames]

/-- Settles O58: the last byte leaves the payload staged, and its completion commits it with its CRC. -/
theorem lastPayloadByteQueuesTheFrame : Obligations.LastPayloadByteQueuesTheFrame := by
  intro c b xs s _ hQ nonempty start_lt cell last
  have inbound : InboundByte b s := ⟨nonempty, start_lt, cell⟩
  obtain ⟨len_le, u, payload, run⟩ := inbound.exec_dispatch_last hQ last
  have staged := payload.staged
  rw [← payload.ch] at staged
  obtain ⟨t, complete, frames, others, whole⟩ := txComplete_eq payload.queues len_le staged
  refine ⟨t, run.trans complete, frames.trans (payload.withFrame_eq _), fun q other => (others q other).trans (payload.frames q), ?_⟩
  rw [payload.frame, completed_setMem] at whole
  cases c <;> exact whole

end Sys2Proof.Machine
end

section
/-! PROOFS. The timer and the environment: `TICK`, `ARM` and `DISARM`, the deadline of an armed unit, the environment's inputs and `RESET`
(`60_exceptions.md` R285 to R291, `70_reset_and_hazards.md` R300, R301). -/

namespace Sys2Proof.Machine

variable {c : Chan} {s : State}

/-! ### `TICK` (R285) -/

/-- With nothing pending, the comparison decides the pending bit. -/
theorem compareUnit_of_not_pending {k : Channel} (h : k.matchPend = false) (t : Byte) :
    compareUnit t k = { k with matchPend := k.matchEn && decide (t = k.ocr) } := by
  unfold compareUnit
  split
  · rename_i due
    simp [due.1, ← due.2]
  · rename_i early
    have quiet : (k.matchEn && decide (t = k.ocr)) = k.matchPend := by
      rw [h, Bool.eq_false_iff]
      simpa using early
    rw [quiet]

/-- Settles O17: the tick is enabled, and both units compare. -/
theorem tickAdvancesAndCompares : Obligations.TickAdvancesAndCompares := by
  intro s h0 h1
  rw [exec_tick (by rintro (_ | _); exacts [h0, h1]), ← add_ofNat_eq, ← compareUnit_of_not_pending h0, ← compareUnit_of_not_pending h1]
  rfl

/-! ### `ARM` and `DISARM` (R286, R287) -/

/-- `s` with the unit of channel `c` armed for `w` ticks from now. -/
def armed (c : Chan) (w : Nat) (s : State) : State :=
  s.setCh c { s.ch c with ocr := s.tcnt + BitVec.ofNat 8 w, matchEn := true, matchPend := false }

theorem exec_arm {w : Nat} (hw : 1 ≤ w ∧ w ≤ 255) : exec (.arm c w) s = .next (armed c w s) := if_pos hw

/-- Settles O18: by whether the width is one of a deadline. -/
theorem armAndDisarmSetTheUnit : Obligations.ArmAndDisarmSetTheUnit := by
  intro c w s
  refine ⟨fun h1 h255 => ?_, fun out => if_neg (by omega), rfl⟩
  rw [← add_ofNat_eq]
  exact exec_arm ⟨h1, h255⟩

/-- Settles O19: the ticks below `w` find both units quiet; the `w`-th reaches the deadline of channel `c`. -/
theorem matchFallsDueAtTheArmedTick : Obligations.MatchFallsDueAtTheArmedTick := by
  intro c d w s hdc hen hpend h1 h255
  have run : ∀ is, runOps (.arm c w :: is) s = runOps is (armed c w s) := fun is => by
    rw [runOps_cons, exec_arm ⟨h1, h255⟩, andThen_next]
  have own : (armed c w s).ch c = { s.ch c with ocr := s.tcnt + BitVec.ofNat 8 w, matchEn := true, matchPend := false } :=
    setCh_ch_same s c _
  have other : ∀ e, e ≠ c → ((armed c w s).ch e).matchEn = false ∧ ((armed c w s).ch e).matchPend = false := fun e hec => by
    obtain rfl : e = d := by revert hdc hec; cases c <;> cases d <;> cases e <;> decide
    rw [armed, setCh_ch_other s _ hec]
    exact ⟨hen, hpend⟩
  refine ⟨fun n hn => ?_, ?_⟩
  · have quiet : ∀ e, QuietFor n (armed c w s).tcnt ((armed c w s).ch e) := fun e => by
      by_cases hec : e = c
      · subst hec
        exact quietFor_of_deadline (by rw [own]) (by rw [own]; rfl) hn h255
      · exact quietFor_of_disarmed (other e hec).1 (other e hec).2
    exact ⟨_, (run _).trans (runOps_ticks_quiet quiet), by rw [later_ch, own]⟩
  · have due := runOps_ticks_due (s := armed c w s) ⟨h1, h255⟩ (by rw [own]) (by rw [own]) (by rw [own]; rfl) other
    exact ⟨_, (run _).trans due, by rw [setCh_ch_same]⟩

/-! ### The environment (R290, R291, R300, R301) -/

/-- Settles O59: both operations are single assignments. -/
theorem environmentSetsItsInputs : Obligations.EnvironmentSetsItsInputs := fun _ _ _ _ => ⟨rfl, rfl⟩

/-- Settles O60: `RESET` and the reset state are both built on the reset channel, without a stored cell. -/
theorem resetGivesTheStatedValues : Obligations.ResetGivesTheStatedValues := by
  intro s
  refine ⟨_, rfl, rfl, ?_⟩
  rintro u (rfl | rfl)
  all_goals
    refine ⟨?_, rfl, rfl, rfl, rfl, rfl, rfl, rfl, fun _ => rfl⟩
    rintro (_ | _)
    · exact ⟨rfl, rfl, rfl, rfl, rfl, rfl, rfl, rfl, rfl, rfl⟩
    · exact ⟨rfl, rfl, rfl, rfl, rfl, rfl, rfl, rfl, rfl, rfl⟩

end Sys2Proof.Machine
end

section
/-! PROOFS. Every enabled operation completes: it does not fault, and no part of it is refused (`70_reset_and_hazards.md` R326). -/

namespace Sys2Proof.Machine

variable {s : State} {c : Chan} {q : QueueId} {r : RingId}

/-! ### Answers that are no refusal -/

/-- The answer is a value or a fault. -/
def NoRefusal {α : Type} (x : Res α) : Prop := ∀ e, x ≠ .refused e

theorem noRefusal_next {α : Type} (a : α) : NoRefusal (.next a) := fun _ => nofun

theorem noRefusal_of_eq_next {α : Type} {x : Res α} {a : α} (h : x = .next a) : NoRefusal x := h ▸ noRefusal_next a

/-- A sequence is not refused when its first part is not, nor the second after what the first answers. -/
theorem NoRefusal.andThen {α β : Type} {x : Res α} {f : α → Res β} (hx : NoRefusal x) (hf : ∀ a, x = .next a → NoRefusal (f a)) :
    NoRefusal (x.andThen f) := fun e h => by
  obtain h | ⟨a, ha, h⟩ := andThen_eq_refused.mp h
  · exact hx e h
  · exact hf a ha e h

/-- A sequence whose second part only packs what the first answers. -/
theorem NoRefusal.map {α β : Type} {x : Res α} {f : α → β} (hx : NoRefusal x) : NoRefusal (x.andThen fun a => .next (f a)) :=
  hx.andThen fun _ _ => noRefusal_next _

/-- What neither faults nor is refused completes. -/
theorem NoRefusal.completes {α : Type} {x : Res α} (hr : NoRefusal x) (hf : NoFault x) : ∃ a, x = .next a := by
  cases x with
  | next a => exact ⟨a, rfl⟩
  | fault f => exact absurd rfl (hf f)
  | refused e => exact absurd rfl (hr e)

/-! ### The shared operations -/

theorem memRead_noRefusal (x : CellId) (s : State) : NoRefusal (memRead x s) := memRead_ne_refused x s

theorem memWrite_noRefusal (x : CellId) (v : Byte) (s : State) : NoRefusal (memWrite x v s) := fun e => by
  unfold memWrite
  split <;> nofun

theorem readLen_noRefusal (q : QueueId) (k : Nat) (s : State) : NoRefusal (readLen q k s) := (memRead_noRefusal _ s).map

theorem readData_noRefusal (q : QueueId) (k n : Nat) (s : State) : NoRefusal (readData q k n s) := by
  induction n with
  | zero => exact noRefusal_next []
  | succ n ih => exact ih.andThen fun _ _ => (memRead_noRefusal _ s).map

theorem armUnit_noRefusal {w : Nat} (hw : 1 ≤ w ∧ w ≤ 255) : NoRefusal (armUnit c w s) :=
  noRefusal_of_eq_next (armUnit_eq_next.mpr ⟨hw, rfl⟩)

theorem qCommit_noRefusal {n : Nat} (hn : 1 ≤ n ∧ n ≤ 12) : NoRefusal (qCommit q n s) := by
  unfold qCommit
  rw [if_pos hn]
  split
  · exact noRefusal_next _
  · exact (memWrite_noRefusal _ _ s).map

theorem qRelease_noRefusal (hne : queueEmpty q s = false) : NoRefusal (qRelease q s) :=
  noRefusal_of_eq_next (qRelease_eq_next.mpr ⟨hne, rfl⟩)

theorem ringStore_noRefusal (r : RingId) (b : Byte) (s : State) : NoRefusal (ringStore r b s) := (memWrite_noRefusal _ b s).map

theorem pushOut_noRefusal (b : Byte) (s : State) : NoRefusal (pushOut b s) := by
  unfold pushOut
  split
  · exact noRefusal_next _
  · exact ringStore_noRefusal _ b s

theorem pushIn_noRefusal (b : Byte) (s : State) : NoRefusal (pushIn b s) := by
  unfold pushIn
  split
  · split
    · exact ringStore_noRefusal _ b _
    · exact noRefusal_next _
  · exact ringStore_noRefusal _ b s

theorem ringPop_noRefusal (hne : ringEmpty r s = false) : NoRefusal (ringPop r s) := by
  rw [ringPop, if_neg (Bool.eq_false_iff.mp hne)]
  exact (memRead_noRefusal _ s).map

/-! ### `EDGE` -/

theorem edgeSofWait_noRefusal {lvl : Level} {e : Nat} (hw : s.cfg.wf = true) : NoRefusal (edgeSofWait c lvl e s) := by
  unfold edgeSofWait
  split
  · exact armUnit_noRefusal (Timing.wf_rxEodMin (Config.wf_timing hw))
  · exact noRefusal_next _

theorem appendBit_noRefusal {bit : Bool} (hw : s.cfg.wf = true) : NoRefusal (appendBit c bit s) := by
  have deadline := Timing.wf_rxEodMin (Config.wf_timing hw)
  simp only [appendBit]
  split
  · refine (memWrite_noRefusal _ _ _).andThen fun u hu => ?_
    obtain ⟨-, rfl⟩ := memWrite_eq_next.mp hu
    exact armUnit_noRefusal deadline
  · exact armUnit_noRefusal deadline

theorem edgeReceiving_noRefusal {lvl : Level} {e : Nat} (hw : s.cfg.wf = true) : NoRefusal (edgeReceiving c lvl e s) := by
  unfold edgeReceiving
  split
  · exact noRefusal_next _
  · split
    · exact noRefusal_next _
    · exact appendBit_noRefusal hw

theorem contention_noRefusal (hne : queueEmpty (.txq c) s = false) : NoRefusal (contention c s) :=
  noRefusal_of_eq_next (txAbort_eq_next.mpr ⟨by simpa [queueEmpty] using hne, rfl⟩)

theorem edgeSending_noRefusal {lvl : Level} (hne : queueEmpty (.txq c) s = false) : NoRefusal (edgeSending c lvl s) := by
  unfold edgeSending
  split
  · exact contention_noRefusal hne
  · exact noRefusal_next _

/-- `EDGE` to the other level: the stamp, then the arm of each state of the protocol. -/
theorem exec_edge_noRefusal {lvl : Level} (h : BlockInv s) (hb : (s.ch c).busIn ≠ lvl) : NoRefusal (exec (.edge c lvl) s) := by
  have stamped := h.stampEdge c lvl
  cases hst : (s.ch c).st
  case idle => exact noRefusal_of_eq_next (edgeInIdleStartsTheSofWait c lvl s hb hst)
  case sofWait =>
    rw [exec_edge_of_sofWait hb hst]
    exact edgeSofWait_noRefusal stamped.cfg
  case receiving =>
    rw [exec_edge_of_receiving hb hst]
    exact edgeReceiving_noRefusal stamped.cfg
  case txArmed => exact noRefusal_of_eq_next (edgeWhileWaitingIsStampedOnly c lvl s hb (.inl hst))
  case txWaitIfs => exact noRefusal_of_eq_next (edgeWhileWaitingIsStampedOnly c lvl s hb (.inr hst))
  case txSending =>
    rw [exec_edge_of_sending hb hst]
    exact edgeSending_noRefusal ((stamped.channels c).frameHeld (.inr (.inr (by rw [stampEdge_ch, hst]))))

/-! ### `MATCH` -/

theorem rxCrcPasses_noRefusal (c : Chan) (n : Nat) (s : State) : NoRefusal (rxCrcPasses c n s) := by
  unfold rxCrcPasses
  split
  · exact (readData_noRefusal _ _ _ s).andThen fun _ _ => (memRead_noRefusal _ s).map
  · exact noRefusal_next _

/-- A frame of one to twelve bytes has a length that can be committed. -/
theorem matchReceiving_noRefusal (h12 : (s.ch c).byteIdx ≤ 12) : NoRefusal (matchReceiving c s) := by
  simp only [matchReceiving]
  split
  · exact noRefusal_next _
  · rename_i hn
    refine (rxCrcPasses_noRefusal _ _ _).andThen fun ok _ => ?_
    split
    · refine (memRead_noRefusal _ _).andThen fun b _ => ?_
      split
      · exact (qCommit_noRefusal ⟨Nat.one_le_iff_ne_zero.mpr hn, h12⟩).map
      · exact noRefusal_next _
    · exact noRefusal_next _

theorem sendBit_noRefusal (hw : s.cfg.wf = true) : NoRefusal (sendBit c s) := by
  refine (memRead_noRefusal _ s).andThen fun b _ => ?_
  refine (armUnit_noRefusal (Timing.wf_txTicks_arm (Config.wf_timing hw) _)).andThen fun u _ => ?_
  split
  · exact noRefusal_next _
  · exact noRefusal_next _

theorem endSend_noRefusal (hne : queueEmpty (.txq c) s = false) : NoRefusal (endSend c s) :=
  (qRelease_noRefusal (by simpa [queueEmpty] using hne)).map

theorem matchSending_noRefusal (hw : s.cfg.wf = true) (hne : queueEmpty (.txq c) s = false) : NoRefusal (matchSending c s) := by
  unfold matchSending
  split
  · exact contention_noRefusal hne
  · refine (readLen_noRefusal _ _ _).andThen fun n _ => ?_
    split
    · exact sendBit_noRefusal hw
    · exact endSend_noRefusal (by simpa [queueEmpty] using hne)

theorem exec_match_of_receiving (hp : (s.ch c).matchPend = true) (hst : (s.ch c).st = .receiving) :
    exec (.timerMatch c) s = matchReceiving c (disarmUnit c s) := by
  show matchOp c s = _
  simp only [matchOp, matchEnabled, hp, if_true, hst]

/-- `MATCH` with a match pending: the arm of each state of the protocol. -/
theorem exec_match_noRefusal (h : BlockInv s) (hp : (s.ch c).matchPend = true) : NoRefusal (exec (.timerMatch c) s) := by
  cases hst : (s.ch c).st
  case idle => exact noRefusal_of_eq_next (strayMatchOnlyClearsTheUnit c s hp (.inl hst))
  case sofWait => exact noRefusal_of_eq_next (strayMatchOnlyClearsTheUnit c s hp (.inr hst))
  case receiving =>
    rw [exec_match_of_receiving hp hst]
    exact matchReceiving_noRefusal (by simpa using (h.channels c).byteIdx_le)
  case txArmed => exact noRefusal_of_eq_next (matchWhileWaitingTestsTheBus c s h.cfg hp (.inl hst))
  case txWaitIfs => exact noRefusal_of_eq_next (matchWhileWaitingTestsTheBus c s h.cfg hp (.inr hst))
  case txSending =>
    rw [exec_match_of_sending hp hst]
    exact matchSending_noRefusal h.cfg (by simpa [queueEmpty] using (h.channels c).frameHeld (.inr (.inr hst)))

/-! ### The byte exchange -/

theorem reloadSdr_noRefusal (s : State) : NoRefusal (reloadSdr s) := by
  unfold reloadSdr
  split
  · exact noRefusal_next _
  · exact (ringPop_noRefusal (Bool.eq_false_iff.mpr ‹_›)).map

theorem execXfer_noRefusal (rx : Byte) (s : State) : NoRefusal (execXfer rx s) :=
  (pushIn_noRefusal rx _).andThen fun u _ => (reloadSdr_noRefusal u).map

/-! ### Commands -/

/-- `f` is refused in no state. -/
def NeverRefused (f : State → Res State) : Prop := ∀ s, NoRefusal (f s)

theorem popRx_neverRefused (c : Chan) : NeverRefused (popRx c) := by
  intro s
  unfold popRx
  split
  · exact pushOut_noRefusal _ s
  · exact (pushOut_noRefusal _ s).andThen fun u _ => (readLen_noRefusal _ _ u).map

/-- A session in which a command byte is recognised (`30_encoding.md` R98). -/
def TakesCommands (s : State) : Prop := s.sess = .idle ∨ s.sess = .filterLoad

theorem asCommand_noRefusal {body : State → Res State} (hb : NeverRefused body) (hs : TakesCommands s) : NoRefusal (asCommand body s) := by
  unfold asCommand
  rcases hs with hs | hs <;> rw [hs]
  · exact hb s
  · exact hb _

/-- The bodies of the eight commands (`46_dispatcher.md` R242 to R249). -/
theorem exec_command_noRefusal {i : Instr} (hi : i ∈ commands) (hs : TakesCommands s) : NoRefusal (exec i s) := by
  simp only [commands, List.mem_cons, List.not_mem_nil, or_false] at hi
  rcases hi with rfl | rfl | rfl | rfl | rfl | rfl | rfl | rfl
  · exact asCommand_noRefusal (body := fun u => pushOut u.switchCode u) (fun u => pushOut_noRefusal _ u) hs
  · exact asCommand_noRefusal (body := fun u => pushOut (powerByte u.accRail u.hostPwrRail) u) (fun u => pushOut_noRefusal _ u) hs
  · exact asCommand_noRefusal (popRx_neverRefused .ch0) hs
  · exact asCommand_noRefusal (popRx_neverRefused .ch1) hs
  · exact asCommand_noRefusal (fun u => noRefusal_next (filterClear u)) hs
  · exact asCommand_noRefusal (fun u => noRefusal_next ((filterBegin u).setSess .filterLoad)) hs
  · exact asCommand_noRefusal (fun u => noRefusal_next (u.setSess (.txLen .ch0))) hs
  · exact asCommand_noRefusal (fun u => noRefusal_next (u.setSess (.txLen .ch1))) hs

/-- A command byte is one of the eight commands. -/
theorem commandStep_noRefusal {b : Byte} (hb : isCommandByte b = true) (hs : TakesCommands s) : NoRefusal (commandStep b s) := by
  rw [← exec_decodeCommand]
  exact exec_command_noRefusal (decodeCommand_mem_commands hb) hs

/-- In `SIdle` a byte that is no command is ignored (`46_dispatcher.md` R253). -/
theorem commandStep_of_ignored {b : Byte} (hb : isCommandByte b = false) (hs : s.sess = .idle) : commandStep b s = .next s := by
  rw [← exec_decodeCommand, decodeCommand_of_not_commandByte hb]
  obtain ⟨-, -, -, ignored⟩ := silentCommandsDoAsStated .ch0 b s hs
  exact ignored (isCommandByte_eq_false.mp hb)

/-! ### The sessions of the dispatcher -/

theorem commandStep_noRefusal_of_idle (b : Byte) (hs : s.sess = .idle) : NoRefusal (commandStep b s) := by
  cases hb : isCommandByte b with
  | true => exact commandStep_noRefusal hb (.inl hs)
  | false => exact noRefusal_of_eq_next (commandStep_of_ignored hb hs)

theorem filterLoadStep_noRefusal (b : Byte) (hs : s.sess = .filterLoad) : NoRefusal (filterLoadStep b s) := by
  unfold filterLoadStep
  split
  · exact commandStep_noRefusal ‹_› (.inr hs)
  · exact noRefusal_next _

theorem txComplete_noRefusal {len : Nat} (hlen : 1 ≤ len ∧ len ≤ 12) : NoRefusal (txComplete c len s) :=
  (readData_noRefusal _ _ _ s).andThen fun _ _ => (memWrite_noRefusal _ _ s).andThen fun _ _ => (qCommit_noRefusal hlen).map

theorem txLenStep_noRefusal (c : Chan) (b : Byte) (s : State) : NoRefusal (txLenStep c b s) := by
  unfold txLenStep
  split_ifs
  · exact noRefusal_next _
  · exact txComplete_noRefusal (by omega)
  · exact noRefusal_next _

theorem txDataStep_noRefusal {idx len : Nat} (b : Byte) (h : BlockInv s) (hs : s.sess = .txData c idx len) :
    NoRefusal (txDataStep c idx len b s) := by
  have session := h.session
  simp only [SessionInv, hs] at session
  obtain ⟨h2, h12, -⟩ := session
  refine (memWrite_noRefusal _ b s).andThen fun u _ => ?_
  split
  · exact txComplete_noRefusal ⟨by omega, h12⟩
  · exact noRefusal_next _

/-- The frame being popped is at the head of its queue, which a response does not move. -/
theorem popSendStep_noRefusal {idx rem : Nat} (h : BlockInv s) (hs : s.sess = .popSend c idx rem) :
    NoRefusal (popSendStep c idx rem s) := by
  have session := h.session
  simp only [SessionInv, hs] at session
  obtain ⟨-, hne, -⟩ := session
  refine (memRead_noRefusal _ s).andThen fun b _ => (pushOut_noRefusal b s).andThen fun u hu => ?_
  split
  · exact (qRelease_noRefusal (by simpa [queueEmpty, (pushOut_ringWrites hu).ch] using hne)).map
  · exact noRefusal_next _

theorem takeInbound_noRefusal {use : Byte → State → Res State} (h : BlockInv s) (hne : ringEmpty .ringIn s = false)
    (huse : ∀ b u, BlockInv u → u.sess = s.sess → NoRefusal (use b u)) : NoRefusal (takeInbound use s) := by
  rw [takeInbound, if_neg (Bool.eq_false_iff.mp hne)]
  exact (ringPop_noRefusal hne).andThen fun p hp => huse p.1 p.2 (ringPop_keepsInv h hp) (ringPop_ringWrites hp).sess

/-- `DISPATCH`: the step of each session. -/
theorem execDispatch_noRefusal (h : BlockInv s) (enabled : dispatchEnabled s = true) : NoRefusal (execDispatch s) := by
  unfold dispatchEnabled at enabled
  unfold execDispatch
  cases hs : s.sess <;> simp only [hs, Bool.not_eq_true'] at enabled ⊢
  case popSend c idx rem => exact popSendStep_noRefusal h hs
  case idle => exact takeInbound_noRefusal h enabled fun b u _ hus => commandStep_noRefusal_of_idle b (hus.trans hs)
  case filterLoad => exact takeInbound_noRefusal h enabled fun b u _ hus => filterLoadStep_noRefusal b (hus.trans hs)
  case txLen c => exact takeInbound_noRefusal h enabled fun b u _ _ => txLenStep_noRefusal c b u
  case txData c idx len => exact takeInbound_noRefusal h enabled fun b u hu hus => txDataStep_noRefusal b hu (hus.trans hs)

/-! ### Every operation -/

/-- An enabled operation of the block is not refused. -/
theorem exec_noRefusal {i : Instr} (hi : isOperation i = true) (h : BlockInv s) (enabled : opEnabled i s = true) : NoRefusal (exec i s) := by
  cases i
  case tick => exact noRefusal_of_eq_next (exec_tick (tickEnabled_iff.mp enabled))
  case edge c lvl => exact exec_edge_noRefusal h (of_decide_eq_true enabled).symm
  case timerMatch c => exact exec_match_noRefusal h enabled
  case xfer rx => exact execXfer_noRefusal rx s
  case housekeep => exact noRefusal_of_eq_next (housekeepingRequestsOnIdleChannels s h.cfg)
  case sendreq c =>
    obtain ⟨idle, frame⟩ := sendreqEnabled_eq_true.mp enabled
    exact noRefusal_of_eq_next (sendRequestArmsTheIfsWait c s h.cfg idle frame)
  case dispatch => exact execDispatch_noRefusal h enabled
  case linktimeout | setinputs sw acc hp | reset => exact noRefusal_next _
  all_goals cases hi

/-- Settles O8: the operation does not fault from a state of the invariant, and where it is enabled it is not refused. -/
theorem enabledOperationsComplete : Obligations.EnabledOperationsComplete :=
  fun _ _ h hi enabled => (exec_noRefusal hi h enabled).completes (exec_noFault hi h)

end Sys2Proof.Machine
end
